-- ==== Sys2Proof/Word.lean ====
section
/-!
DEFINITION. The widths of DWMAC: the 32-bit register word and the byte of the data space
(spec 10_state.md R21, 20_memory.md R58).
-/

namespace Sys2Proof

/-- A register of the window, a command word, an i32 or an fp32 bit pattern (R14, R21). -/
abbrev Word := BitVec 32

/-- One byte of the data space: a u8 source value, an s8 weight, a u8 output (R11, R58). -/
abbrev Byte := BitVec 8

end Sys2Proof
end

