-- ==== Sys2Proof/Config.lean ====
section
/-!
DEFINITION. What an instance of DWMAC fixes (spec 00_scope.md R10) and the values the spec leaves open
(spec 93_implementation_defined.md). A free value is a constant with NO BODY applied to the draw counter of
State (`draws`, for a host read also `peeks`) and to what distinguishes one draw from another within a command: no proof can see its value.
-/

namespace Sys2Proof

/-- The requantizer an instance has (R140): `reference` is REQ_REF (R141), the default; `custom n` is any other
total function of the four operands, of which nothing is known (`Config.customReq`). -/
inductive Requantizer where
  | reference
  | custom (n : Nat)
deriving DecidableEq, Repr

/-- The parameters of R10, fixed for the life of an instance, with their defaults. RB_BYTES and WS_MAX are
powers of two and are held as their logarithms, as PARAMS0 and PARAMS1 show them (R25, R26). -/
structure Params where
  /-- vector width W, int32 lanes per channel group -/
  w : Nat := 16
  /-- ACC_N, vector accumulators in the accumulator file -/
  accN : Nat := 8
  /-- ADDR_W, width of a data-port byte address -/
  addrW : Nat := 32
  /-- C_MAX, the largest channel count INIT accepts -/
  cMax : Nat := 4096
  /-- log2 of WS_MAX -/
  wsLog2 : Nat := 18
  /-- log2 of RB_BYTES -/
  rbLog2 : Nat := 20
  /-- REQ -/
  req : Requantizer := .reference
deriving DecidableEq, Repr

/-- WS_MAX, the weight store's entries (R10). -/
def Params.wsMax (p : Params) : Nat := 2 ^ p.wsLog2

/-- RB_BYTES, the ring buffer's bytes (R10). -/
def Params.rbBytes (p : Params) : Nat := 2 ^ p.rbLog2

/-- REG_BASE: OPEN, a platform address (R10, R69; log 23). -/
opaque Config.regBase : Nat

/-- PLAT_COHERENT: OPEN, whether the host's caches are coherent with the data port (R10, R79; log 23). -/
opaque Config.platCoherent : Bool

/-- REQ of an instance whose requantizer is not REQ_REF: any total function of sum, bias, scale and zero point
(R140; log 9). -/
opaque Config.customReq : (n : Nat) → (sum bias scale : Word) → (zp : Byte) → Byte

/-- The byte REQ_REF gives when the scaled value is a NaN, drawn per output byte (R141; log 8). -/
opaque Config.nanByte : (draw output : Nat) → Byte

/-- Which of several failing accesses ERR_BUS reports (R150; log 11). -/
opaque Config.failingAccess : (draw : Nat) → Nat

/-- Whether the engine reads a byte of its region that no output depends on (R67; log 13). -/
opaque Config.extraRead : (draw address : Nat) → Bool

/-- Whether, of two accesses that are not answered with data, the one that is never answered keeps the engine
waiting although the other got a bus error (R150, R152; log 30). -/
opaque Config.waitsOn : (draw : Nat) → Bool

/-- Whether a destination byte of a command that a bus error or a reset cut short was written (R122, R164;
log 14). -/
opaque Config.landed : (draw address : Nat) → Bool

/-- Which of the values a racing byte takes during the command one engine read of it returns (R75; log 16). -/
opaque Config.racedRead : (draw read : Nat) → Nat

/-- Whether the engine's value, not the host's, stays in a byte both wrote during the command (R75; log 16). -/
opaque Config.racedWrite : (draw address : Nat) → Bool

/-- Whether a host read of a destination byte during the command, the one numbered `peek`, returns the value the command
writes (R75; log 16). -/
opaque Config.racedSeen : (draw peek : Nat) → Bool

/-- What a lane of the accumulator file holds between tiles (R54; log 20). -/
opaque Config.accResidue : (draw accumulator lane : Nat) → Word

end Sys2Proof
end

