-- ==== Sys2Proof/Syntax.lean ====
section
/-!
DEFINITION. The command set of DWMAC (spec 30_encoding.md R83): one constructor per row of the opcode table.
-/

namespace Sys2Proof

/-- The seven commands (R83). A command carries no operand field (R82): its operands are registers, latched when
it is accepted. -/
inductive Instr where
  /-- completes and does nothing else (R89) -/
  | nop
  /-- builds the kernel object (R90) -/
  | init
  /-- fills the ring with the window of a row range (R101) -/
  | preprocess
  /-- computes a row range from the source or from the ring (R119) -/
  | compute
  /-- fills the ring and computes a row range (R120) -/
  | run
  /-- empties the ring (R97) -/
  | inval
  /-- leaves the error condition (R98) -/
  | clrerr
deriving DecidableEq, Repr

end Sys2Proof
end

