-- ==== Sys2Proof/WellFormed.lean ====
section
/-!
DEFINITION. What is well formed: a command word (spec 30_encoding.md R83), an instruction, a register-port access
(10_state.md R21) and an instance's parameters (00_scope.md R10).
-/

namespace Sys2Proof

/-- A command word is legal exactly when RSV = 0 and OP is one of the seven opcodes (R83). -/
def wordLegal (w : Word) : Bool := w.toNat < 7

/-- Every instruction is well formed: it has no operand that could be out of range (R82). -/
def Instr.wellFormed (_ : Instr) : Bool := true

/-- A register-port access is made as R21 asks: 32 bits wide, at a byte offset that is a multiple of 4. -/
def accessLegal (offset : Byte) (bytes : Nat) : Bool := bytes == 4 && offset.toNat % 4 == 0

/-- The legal values of the parameters (R10). -/
def Params.legal (p : Params) : Bool :=
  [4, 8, 16, 32, 64].contains p.w && decide (8 ≤ p.accN)
    && decide (16 ≤ p.addrW ∧ p.addrW ≤ 32)
    && decide (1 ≤ p.cMax ∧ p.cMax ≤ 65535)
    && decide (10 ≤ p.wsLog2 ∧ p.wsLog2 ≤ 24)
    && decide (10 ≤ p.rbLog2 ∧ p.rbLog2 ≤ 31)

end Sys2Proof
end

