-- ==== Sys2Proof/Decode.lean ====
section
/-!
DEFINITION. The command decoder and encoder (spec 30_encoding.md R81, R83, R84), and the byte order of a 32-bit word
(20_memory.md R59). Decoding is total on all words and on any list of bytes, and rejects by name.
-/

namespace Sys2Proof

/-- Little-endian: byte 0 holds bits 7:0 (R59). -/
def wordOfBytes (b0 b1 b2 b3 : Byte) : Word := b3 ++ b2 ++ b1 ++ b0

/-- The four bytes of a word, the lowest address first (R59). -/
def bytesOfWord (w : Word) : List Byte :=
  [w.extractLsb' 0 8, w.extractLsb' 8 8, w.extractLsb' 16 8, w.extractLsb' 24 8]

/-- Why a command is not one of the seven (R84, R85, R86). -/
inductive Reject where
  /-- RSV ≠ 0 -/
  | reservedBits
  /-- RSV = 0 and OP is 0x07 to 0xFF -/
  | reservedOpcode
  /-- not one 32-bit register write -/
  | wrongLength
deriving DecidableEq, Repr

/-- Field OP of a command word, bits 7:0 (R81). -/
def opField (w : Word) : Byte := w.extractLsb' 0 8

/-- Field RSV of a command word, bits 31:8 (R81). -/
def rsvField (w : Word) : BitVec 24 := w.extractLsb' 8 24

/-- The opcode map (R83). -/
def opcodeTable : List (Byte × Instr) :=
  [(0x00, .nop), (0x01, .init), (0x02, .preprocess), (0x03, .compute), (0x04, .run), (0x05, .inval), (0x06, .clrerr)]

/-- The decoder of R84. -/
def decode (w : Word) : Except Reject Instr :=
  if rsvField w ≠ 0 then .error .reservedBits
  else match opcodeTable.lookup (opField w) with
    | some i => .ok i
    | none => .error .reservedOpcode

/-- The decoder on the bytes of the register write that carries the command (R80, R86). -/
def decodeBytes : List Byte → Except Reject Instr
  | [b0, b1, b2, b3] => decode (wordOfBytes b0 b1 b2 b3)
  | _ => .error .wrongLength

/-- OP of an instruction (R83). -/
def opcode : Instr → Byte
  | .nop => 0x00
  | .init => 0x01
  | .preprocess => 0x02
  | .compute => 0x03
  | .run => 0x04
  | .inval => 0x05
  | .clrerr => 0x06

/-- The command word of an instruction: RSV = 0 above OP (R81, R83). -/
def encode (i : Instr) : Word := 0#24 ++ opcode i

/-- The word the opcode table's bits stand for: `nbits` bits of `w`, every bit above them 0. -/
def tableWord (nbits w : Nat) : Word := BitVec.ofNat 32 (w % 2 ^ nbits)

/-- What the decoder reads from an instruction whose bits are `w`, numbered as the opcode table numbers them. No
command is longer than one 32-bit write (R86). -/
def decodeTableWord (nbits w : Nat) : Option Instr :=
  if nbits ≤ 32 then
    match decodeBytes (bytesOfWord (tableWord nbits w)) with
    | .ok i => some i
    | .error _ => none
  else none

end Sys2Proof
end

