-- ==== Sys2Proof/Machine/State.lean ====
section
/-!
DEFINITION. The state of DWMAC as plain data (spec 10_state.md), the state after reset (70_reset_and_hazards.md R161),
and the reasons a step of the model can stop.
-/

namespace Sys2Proof.Machine

/-- The data space (R20): address and byte pairs, addresses strictly rising, none equal to what an unlisted
address reads as (`Memory.unlisted`). -/
abbrev Memory := List Host.Cell

/-- The error codes of R143. -/
inductive ErrorCode where
  | none | cmdIllegal | notReady | cfgShape | cfgSrcType | cfgDstType | cfgReorder | cfgVariant | cfgCapacity
  | zp | range | addr | align | overlap | ringMiss | bus
deriving DecidableEq, Repr

/-- The variants a kernel object can have (R39, R96). -/
inductive Variant where
  | v0 | v1 | v2
deriving DecidableEq, Repr

/-- The reorder types a kernel object can have (R39, R95, R107). -/
inductive Reorder where
  /-- type 0: channels contiguous per pixel -/
  | rowMajor
  /-- type 1: the pixels of a row contiguous within a channel group -/
  | channelMajor
deriving DecidableEq, Repr

/-- The shape, mode and tensor-address registers, which INIT latches (R34 to R40, R90). A bit marked res is 0. -/
structure ShapeRegs where
  shapeSrc : Word
  shapeC : Word
  kernelReg : Word
  dil : Word
  pad : Word
  mode : Word
  wgtBase : Word
  biasBase : Word
  scaleBase : Word
deriving DecidableEq, Repr

/-- The registers a PREPROCESS, COMPUTE or RUN latches (R40 to R42, R48). -/
structure CallRegs where
  srcBase : Word
  dstBase : Word
  srcZp : Word
  dstZp : Word
  rows : Word
deriving DecidableEq, Repr

/-- The kernel object K (R47). It exists exactly when KVALID = 1. -/
structure Kernel where
  srcH : Nat
  srcW : Nat
  c : Nat
  ky : Nat
  kx : Nat
  sy : Nat
  sx : Nat
  dily : Nat
  dilx : Nat
  pt : Nat
  pl : Nat
  pb : Nat
  pr : Nat
  var : Variant
  reord : Reorder
  fpdis : Bool
  dstH : Nat
  dstW : Nat
  extY : Nat
  extX : Nat
  ph : Nat
  pw : Nat
  cpad : Nat
  bufH : Nat
  fast : Bool
  /-- K.Wt[ky][kx][c] at index (ky*KX + kx)*C + c (R52) -/
  wt : List Byte
  /-- the physical image of the weight store, by variant and reorder type (R95) -/
  store : List Word
  /-- K.Bias[c] (R53) -/
  bias : List Word
  /-- K.Scale[c], fp32 bit patterns (R53) -/
  scale : List Word
deriving DecidableEq, Repr

/-- A slot of the ring (R50): `tag` is `none` for INVALID, else the padded row it holds; `lanes` is its payload,
32-bit lanes in the slot's physical order (R107). The payload of an INVALID slot is never read. -/
structure Slot where
  tag : Option Nat
  lanes : List Word
deriving DecidableEq, Repr

/-- What the ring was filled from (R51). -/
structure RingCtx where
  srcBase : Word
  srcZp : Byte
deriving DecidableEq, Repr

/-- An access to one data byte that the Memory agent does not answer with data: a bus error (R150), or no answer
at all (R152). -/
structure PortFault where
  address : Nat
  isWrite : Bool
  silent : Bool
deriving DecidableEq, Repr

/-- A host write to a data byte since the running command was accepted: the value it found and the value it wrote
(R75). -/
structure Race where
  address : Nat
  before : Byte
  wrote : Byte
deriving DecidableEq, Repr

/-- What the host asks of a register (R80). -/
inductive PortOp where
  | read
  | write (data : Word)
deriving DecidableEq, Repr

/-- One access to the register window: byte offset, width in bytes, direction (R80). -/
structure PortAccess where
  offset : Byte
  bytes : Nat
  op : PortOp
deriving DecidableEq, Repr

/-- What the agents around the engine do, and the engine's own turn (R57, R162; log 3). -/
inductive Event where
  /-- the engine takes a turn -/
  | engine
  /-- the host accesses the register window -/
  | access (a : PortAccess)
  /-- the host accesses the window in the clock cycle in which the engine completes its command (R151) -/
  | accessAtCompletion (a : PortAccess)
  /-- the host reads a data byte, outside DWMAC (R57) -/
  | memRead (address : Nat)
  /-- the host writes a data byte, outside DWMAC (R57) -/
  | memWrite (address : Nat) (value : Byte)
  /-- from now on the Memory agent answers so (R57, R150, R152) -/
  | portAnswers (faults : List PortFault)
  /-- the platform asserts or releases `rst` (R162) -/
  | rst (asserted : Bool)
deriving DecidableEq, Repr

/-- The answer to the host's last access (R21, R87; log 22). -/
inductive Response where
  /-- no access yet -/
  | none
  /-- the value a register read returned -/
  | data (value : Word)
  /-- a register write was taken, whatever it did -/
  | written
  /-- a slave error (R21) -/
  | slaveError
  /-- no answer: `rst` is asserted (R162) -/
  | unanswered
  /-- the byte a direct read of the data space returned -/
  | byte (value : Byte)
deriving DecidableEq, Repr

/-- All the state the spec gives DWMAC, and the model's own fields (INVENTORY.md, State). BUSY is `held.isSome`
(R46), KVALID `kernel.isSome` (R47), RVALID `rctx.isSome` (R51). -/
structure State where
  /-- the instance's parameters (R10) -/
  params : Params
  /-- the command word the engine holds while BUSY (R46) -/
  held : Option Word
  /-- STATUS.DONE -/
  done : Bool
  /-- STATUS.ERR -/
  err : Bool
  /-- STATUS.DROP -/
  drop : Bool
  /-- STATUS.ERRCODE -/
  errCode : ErrorCode
  /-- STATUS.LASTCMD -/
  lastCmd : Byte
  /-- ERRINFO (R31) -/
  errInfo : Word
  /-- IRQ_EN (R32) -/
  irqEn : Word
  /-- IRQ_STATUS (R33) -/
  irqStatus : Word
  /-- the registers INIT latches (R34 to R40) -/
  shape : ShapeRegs
  /-- the registers an invocation latches (R40 to R42) -/
  callRegs : CallRegs
  /-- S, what INIT latched at acceptance (R56, R145) -/
  latched : Option ShapeRegs
  /-- the invocation context I (R48) -/
  call : Option CallRegs
  /-- the kernel object (R47) -/
  kernel : Option Kernel
  /-- the ring buffer's slots (R49) -/
  ring : List Slot
  /-- RCTX, none for NONE (R51) -/
  rctx : Option RingCtx
  /-- the accumulator file (R54) -/
  acc : List (List Word)
  /-- the data space (R20) -/
  mem : Memory
  /-- the reset input as the platform holds it (R162) -/
  rst : Bool
  /-- model: what the data port does not answer with data (log 11) -/
  port : List PortFault
  /-- model: host writes since the running command was accepted, oldest first (log 16) -/
  races : List Race
  /-- model: bytes of the running command that a host read has shown, latest first (R75; log 16) -/
  shown : List Host.Cell
  /-- model: what the agents do next, oldest first (log 3) -/
  events : List Event
  /-- model: the answer to the host's last access (log 22) -/
  resp : Response
  /-- model: the draw counter of the free values (log 7) -/
  draws : Nat
  /-- model: the host reads of a running command's destination bytes, each a draw of its own (log 7) -/
  peeks : Nat
deriving DecidableEq, Repr

/-- The machine right after reset with the default parameters (R161). The accumulator file, unspecified there, holds
zeros (log 6). -/
def State.reset : State where
  params := {}
  held := none
  done := false
  err := false
  drop := false
  errCode := .none
  lastCmd := 0
  errInfo := 0
  irqEn := 0
  irqStatus := 0
  shape := ⟨0, 0, 0, 0, 0, 0, 0, 0, 0⟩
  callRegs := ⟨0, 0, 0, 0, 0⟩
  latched := none
  call := none
  kernel := none
  ring := []
  rctx := none
  acc := List.replicate 8 (List.replicate 16 0)
  mem := []
  rst := false
  port := []
  races := []
  shown := []
  events := []
  resp := .none
  draws := 0
  peeks := 0

/-- Why a step stops with a fault. -/
inductive Fault where
  /-- Raised by a direct host read or write of a data address that is not below 2^ADDR_W (R20, R58); the engine never
  raises it (R65). Safe: such an address does not exist (log 17). -/
  | outsideDataSpace (address : Nat)
deriving DecidableEq, Repr

/-- Why an instruction has no meaning. -/
inductive Refusal where
  /-- Raised by an arm of exec whose instruction has no meaning yet. Safe. No arm is left so. -/
  | notModelled (mnemonic : String)
deriving DecidableEq, Repr

end Sys2Proof.Machine
end

