-- ==== Sys2Proof/Machine/Operands.lean ====
section
/-!
DEFINITION. The operand fields of the commands (spec 30_encoding.md R82): every operand is a field of a latched
register, read as an unsigned number, or an entry of K's stores.
-/

namespace Sys2Proof.Machine

/-- v[hi:lo] as an unsigned number (R13, R82). -/
def bits (v : Word) (hi lo : Nat) : Nat := v.toNat / 2 ^ lo % 2 ^ (hi + 1 - lo)

/-! ### Fields of the registers INIT latches (R34 to R40) -/

def ShapeRegs.srcH (r : ShapeRegs) : Nat := bits r.shapeSrc 15 0
def ShapeRegs.srcW (r : ShapeRegs) : Nat := bits r.shapeSrc 31 16
def ShapeRegs.c (r : ShapeRegs) : Nat := bits r.shapeC 15 0
def ShapeRegs.ky (r : ShapeRegs) : Nat := bits r.kernelReg 7 0
def ShapeRegs.kx (r : ShapeRegs) : Nat := bits r.kernelReg 15 8
def ShapeRegs.sy (r : ShapeRegs) : Nat := bits r.kernelReg 23 16
def ShapeRegs.sx (r : ShapeRegs) : Nat := bits r.kernelReg 31 24
def ShapeRegs.dily (r : ShapeRegs) : Nat := bits r.dil 7 0
def ShapeRegs.dilx (r : ShapeRegs) : Nat := bits r.dil 15 8
def ShapeRegs.pt (r : ShapeRegs) : Nat := bits r.pad 7 0
def ShapeRegs.pl (r : ShapeRegs) : Nat := bits r.pad 15 8
def ShapeRegs.pb (r : ShapeRegs) : Nat := bits r.pad 23 16
def ShapeRegs.pr (r : ShapeRegs) : Nat := bits r.pad 31 24
def ShapeRegs.var (r : ShapeRegs) : Nat := bits r.mode 1 0
def ShapeRegs.reord (r : ShapeRegs) : Nat := bits r.mode 3 2
def ShapeRegs.fpdis (r : ShapeRegs) : Bool := bits r.mode 4 4 == 1
def ShapeRegs.srcT (r : ShapeRegs) : Nat := bits r.mode 9 8
def ShapeRegs.dstT (r : ShapeRegs) : Nat := bits r.mode 11 10

/-! ### Fields of the invocation context (R41, R42, R48) -/

def CallRegs.dyBeg (r : CallRegs) : Nat := bits r.rows 15 0
def CallRegs.dyEnd (r : CallRegs) : Nat := bits r.rows 31 16

/-- I.SRC_ZP[7:0], which the zero-point broadcast repeats (R99, R131). -/
def CallRegs.srcZpByte (r : CallRegs) : Byte := r.srcZp.setWidth 8

/-- I.DST_ZP[7:0] (R140). -/
def CallRegs.dstZpByte (r : CallRegs) : Byte := r.dstZp.setWidth 8

/-- The context a ring filled by this invocation has (R103). -/
def CallRegs.ringCtx (r : CallRegs) : RingCtx := ⟨r.srcBase, r.srcZpByte⟩

/-! ### The latched operands of the running command -/

/-- S, the values INIT works on: those latched at acceptance (R56, R145). An INIT that nothing latched for latches as
it starts (log 26). -/
def State.initOperands (s : State) : ShapeRegs := s.latched.getD s.shape

/-- I, the invocation context of the running command (R48). One that nothing latched for latches as it starts
(log 26). -/
def State.invocation (s : State) : CallRegs := s.call.getD s.callRegs

/-! ### Entries of K's stores (R52, R53) -/

/-- K.Wt[ky][kx][c]. -/
def Kernel.weight (K : Kernel) (ky kx c : Nat) : Byte := K.wt.getD ((ky * K.kx + kx) * K.c + c) 0

/-- K.Bias[c]. -/
def Kernel.biasAt (K : Kernel) (c : Nat) : Word := K.bias.getD c 0

/-- K.Scale[c]. -/
def Kernel.scaleAt (K : Kernel) (c : Nat) : Word := K.scale.getD c 0

/-- The length of the source region, SRC_H*SRC_W*C bytes (R60). -/
abbrev Kernel.srcBytes (K : Kernel) : Nat := K.srcH * K.srcW * K.c

/-- The length of the destination region, DST_H*DST_W*C bytes (R61). -/
abbrev Kernel.dstBytes (K : Kernel) : Nat := K.dstH * K.dstW * K.c

end Sys2Proof.Machine
end

