-- ==== Sys2Proof/Machine/Flags.lean ====
section
/-!
DEFINITION. The status fields, the registers computed from state, and the interrupt line (spec 10_state.md R25 to R45,
60_exceptions.md R153).
-/

namespace Sys2Proof.Machine

/-- ERRCODE, STATUS[15:8] (R143). -/
def ErrorCode.bits : ErrorCode → Byte
  | .none => 0x00
  | .cmdIllegal => 0x01
  | .notReady => 0x02
  | .cfgShape => 0x03
  | .cfgSrcType => 0x04
  | .cfgDstType => 0x05
  | .cfgReorder => 0x06
  | .cfgVariant => 0x07
  | .cfgCapacity => 0x08
  | .zp => 0x09
  | .range => 0x0A
  | .addr => 0x0B
  | .align => 0x0C
  | .overlap => 0x0D
  | .ringMiss => 0x0E
  | .bus => 0x0F

/-- STATUS.BUSY: the engine holds a command (R28, R46). -/
def State.busy (s : State) : Bool := s.held.isSome

/-- STATUS.KVALID: a valid kernel object exists (R28, R47). -/
def State.kvalid (s : State) : Bool := s.kernel.isSome

/-- STATUS.RVALID: the ring context is set (R28, R51). -/
def State.rvalid (s : State) : Bool := s.rctx.isSome

/-- STATUS (R28). -/
def State.statusWord (s : State) : Word :=
  0#8 ++ s.lastCmd ++ s.errCode.bits ++ 0#2 ++ BitVec.ofBool s.drop ++ BitVec.ofBool s.rvalid
    ++ BitVec.ofBool s.kvalid ++ BitVec.ofBool s.err ++ BitVec.ofBool s.done ++ BitVec.ofBool s.busy

/-- PARAMS0 (R25). -/
def params0Word (p : Params) : Word :=
  BitVec.ofNat 8 p.rbLog2 ++ BitVec.ofNat 8 p.addrW ++ BitVec.ofNat 8 p.accN ++ BitVec.ofNat 8 p.w

/-- PARAMS1 (R26). -/
def params1Word (p : Params) : Word := 0#11 ++ BitVec.ofNat 5 p.wsLog2 ++ BitVec.ofNat 16 p.cMax

/-- LAYOUT.KVAR and MODE.VAR (R39, R44). -/
def Variant.bits : Variant → BitVec 2
  | .v0 => 0
  | .v1 => 1
  | .v2 => 2

/-- LAYOUT.KREORD and MODE.REORD (R39, R44). -/
def Reorder.bits : Reorder → BitVec 2
  | .rowMajor => 0
  | .channelMajor => 1

/-- LAYOUT.BUFH_LOG2: log2(BUFH), and 0 for V0 (R44). -/
def Kernel.bufHLog2 (K : Kernel) : Nat :=
  match K.var with
  | .v0 => 0
  | .v1 => Nat.log2 K.bufH
  | .v2 => Nat.log2 K.bufH

/-- DST_SHAPE of a kernel object (R43). -/
def Kernel.dstShapeWord (K : Kernel) : Word := BitVec.ofNat 16 K.dstW ++ BitVec.ofNat 16 K.dstH

/-- LAYOUT of a kernel object (R44). -/
def Kernel.layoutWord (K : Kernel) : Word :=
  0#19 ++ K.reord.bits ++ BitVec.ofBool K.fast ++ K.var.bits ++ 0#3 ++ BitVec.ofNat 5 K.bufHLog2

/-- BUFW of a kernel object (R45). -/
def Kernel.bufwWord (K : Kernel) : Word := 0#14 ++ BitVec.ofNat 18 K.pw

/-- A register derived from K reads 0 when KVALID = 0 (R43 to R45). -/
def State.derived (s : State) (f : Kernel → Word) : Word :=
  match s.kernel with
  | some K => f K
  | none => 0

/-- IRQ_STATUS.DONE_IS and IRQ_EN.DONE_IE, bit 0 (R32, R33). -/
def irqDone : Word := 1

/-- IRQ_STATUS.ERR_IS and IRQ_EN.ERR_IE, bit 1 (R32, R33). -/
def irqErr : Word := 2

/-- The interrupt output, a level that follows the registers (R153). -/
def State.irq (s : State) : Bool :=
  (s.irqStatus.getLsbD 0 && s.irqEn.getLsbD 0) || (s.irqStatus.getLsbD 1 && s.irqEn.getLsbD 1)

end Sys2Proof.Machine
end

