-- ==== Sys2Proof/Machine/Ops.lean ====
section
/-!
DEFINITION. The named operations over the data space and the engine's registers: reading and writing bytes (spec
20_memory.md R58, R59), taking an error (60_exceptions.md R148) and leaving it (40_control.md R98), successful
completion (R147), and acceptance (R145).
-/

namespace Sys2Proof.Machine

/-! ### The data space -/

/-- What a byte of the data space that nothing has written reads as (log 5). -/
def Memory.unlisted : Byte := 0

/-- One byte of the data space (R58). -/
def Memory.read : Memory → Nat → Byte
  | [], _ => Memory.unlisted
  | (b, v) :: rest, a => if a = b then v else if a < b then Memory.unlisted else Memory.read rest a

/-- A listed byte at the head of what follows it, left out when it is what an unlisted byte reads as. -/
def Memory.entry (a : Nat) (v : Byte) (rest : Memory) : Memory :=
  if v = Memory.unlisted then rest else (a, v) :: rest

/-- A write of one byte (R58, R68). -/
def Memory.write : Memory → Nat → Byte → Memory
  | [], a, v => Memory.entry a v []
  | (b, u) :: rest, a, v =>
    if a < b then Memory.entry a v ((b, u) :: rest)
    else if a = b then Memory.entry a v rest
    else (b, u) :: Memory.write rest a v

/-- Writes of consecutive bytes from `a` on. -/
def Memory.writeBytes : Memory → Nat → List Byte → Memory
  | m, _, [] => m
  | m, a, v :: vs => Memory.writeBytes (m.write a v) (a + 1) vs

/-- Every listed address is above `lo`, they rise strictly, and no listed byte is what an unlisted one reads as. -/
def Memory.wfAbove : Nat → Memory → Bool
  | _, [] => true
  | lo, (a, v) :: rest => decide (lo ≤ a) && decide (v ≠ Memory.unlisted) && Memory.wfAbove (a + 1) rest

/-- The canonical form of the data space. -/
def Memory.wf (m : Memory) : Bool := Memory.wfAbove 0 m

/-- [base, base + n) holds the address (R60 to R63). -/
def inRegion (base n a : Nat) : Bool := decide (base ≤ a) && decide (a < base + n)

/-! ### The ring's tags -/

/-- Every slot tag becomes INVALID (R51, R97, R148). The payloads, unspecified then, stay (log 24). -/
def invalidateTags (ring : List Slot) : List Slot := ring.map fun x => { x with tag := none }

/-- RCTX <- NONE and every slot tag <- INVALID. -/
def emptyRing (s : State) : State := { s with ring := invalidateTags s.ring, rctx := none }

/-! ### Completion (R147, R148) and leaving an error (R98) -/

/-- The engine stops holding the command and what it latched (R46, R48). -/
def release (s : State) : State :=
  { s with held := none, latched := none, call := none, races := [], shown := [], draws := s.draws + 1 }

/-- `complete()`, successful completion (R147). -/
def complete (s : State) : State :=
  release { s with done := true, irqStatus := s.irqStatus ||| irqDone }

/-- `raise Error(code, info)`, error completion: the exception of this machine (R148). It saves the code and the
detail, enters the ERROR condition, raises the error interrupt and empties the ring; there is no address to save and
nowhere to go. -/
def raiseError (code : ErrorCode) (info : Word) (s : State) : State :=
  release (emptyRing
    { s with err := true, errCode := code, errInfo := info, irqStatus := s.irqStatus ||| irqErr })

/-- What leaves the ERROR condition (R98, R149): nothing is restored. -/
def clearError (s : State) : State := { s with err := false, errCode := .none, errInfo := 0 }

/-! ### Acceptance (R145) -/

/-- The previous kernel object is discarded (R90). -/
def discardKernel (s : State) : State := emptyRing { s with kernel := none }

/-- What acceptance of a command word does to the status: BUSY <- 1, DONE <- 0, LASTCMD <- w[7:0]. -/
def takeCommand (w : Word) (s : State) : State :=
  { s with
    held := some w, done := false, lastCmd := opField w, latched := none, call := none, races := [], shown := [] }

/-- Acceptance of a legal command word: the status, then what the command latches, discards or clears at once (R145).
The values latched are the register values just before. -/
def latchCommand (w : Word) (s : State) : State :=
  match decode w with
  | .ok .init => discardKernel { takeCommand w s with latched := some s.shape }
  | .ok .preprocess => { takeCommand w s with call := some s.callRegs }
  | .ok .compute => { takeCommand w s with call := some s.callRegs }
  | .ok .run => { takeCommand w s with call := some s.callRegs }
  | .ok .clrerr => clearError (takeCommand w s)
  | .ok .nop => takeCommand w s
  | .ok .inval => takeCommand w s
  | .error _ => takeCommand w s

/-- Acceptance of a command word (R145). An illegal word ends at once with ERR_CMD_ILLEGAL (R84; log 21). -/
def acceptCommand (w : Word) (s : State) : State :=
  match decode w with
  | .ok _ => latchCommand w s
  | .error _ => raiseError .cmdIllegal w (latchCommand w s)

/-- A write of a command word to CMD: dropped while BUSY, and while ERR = 1 unless it is CLRERR; else accepted
(R145, R146). -/
def submitCommand (w : Word) (s : State) : State :=
  if s.busy then { s with drop := true }
  else if s.err && w != encode .clrerr then { s with drop := true }
  else acceptCommand w s

/-! ### Checks in order -/

/-- A check: the condition that fails it, and the error it raises with its ERRINFO. -/
abbrev Check := Bool × ErrorCode × Word

/-- The first check that fails raises its error, and no later check is made (R91, R102, R116, R151). -/
def firstError : List Check → Option (ErrorCode × Word)
  | [] => none
  | (fails, code, info) :: rest => if fails then some (code, info) else firstError rest

/-- A region [base, base + n), n > 0, that passes the top of the data space fails the range check (R65). -/
def outOfSpace (p : Params) (base n : Nat) : Bool := n != 0 && decide (2 ^ p.addrW < base + n)

end Sys2Proof.Machine
end

