-- ==== Sys2Proof/Machine/Bus.lean ====
section
/-!
DEFINITION. The data port (spec 20_memory.md R58, R71 to R75, 60_exceptions.md R150, R152): what the engine reads and
writes, how the port answers a command's accesses, and the races a host that breaks R74 makes.
-/

namespace Sys2Proof.Machine

/-! ### Reads and writes of the engine -/

/-- One byte the engine reads, in the read numbered `k` of the command. A byte the host wrote during the command
returns its value at acceptance or a value the host wrote, chosen per read (R75; log 16). How many reads a command makes
of a byte, and which of its values come from one read, is the model's choice (R67; log 32). -/
def State.engineByte (s : State) (k a : Nat) : Byte :=
  match s.races.filter (fun r => r.address == a) with
  | [] => s.mem.read a
  | r :: rs =>
    (r.before :: r.wrote :: rs.map Race.wrote).getD (Config.racedRead s.draws k % (rs.length + 2)) (s.mem.read a)

/-- MemRead(a, 4), little-endian (R15, R59), in the reads numbered `k` to `k + 3`. -/
def State.engineWord (s : State) (k a : Nat) : Word :=
  wordOfBytes (s.engineByte k a) (s.engineByte (k + 1) (a + 1)) (s.engineByte (k + 2) (a + 2))
    (s.engineByte (k + 3) (a + 3))

/-- What a byte the engine writes holds in the end: its value, unless the host wrote the byte too (R75; log 16). -/
def State.settled (s : State) (a : Nat) (v : Byte) : Byte :=
  if s.races.any (fun r => r.address == a) then
    (if Config.racedWrite s.draws a then v else s.mem.read a)
  else v

/-- What a byte holds after a command that was cut short: the value it would write or the one before (R122, R164;
log 14). -/
def State.maybeLanded (s : State) (a : Nat) (v : Byte) : Byte :=
  if Config.landed s.draws a then v else s.mem.read a

/-- A byte's value when the running command was accepted, before any host write since (R75). -/
def State.acceptedByte (s : State) (a : Nat) : Byte :=
  match s.races.filter (fun r => r.address == a) with
  | [] => s.mem.read a
  | r :: _ => r.before

/-- The bytes a command writes from `a` on. When the host has written source bytes during the command, a byte that a
host read has shown stays as shown: its source reads are done (R75; log 16). -/
def State.keepShown (s : State) (base n : Nat) (a : Nat) (vs : List Byte) : List Byte :=
  if s.races.any (fun r => inRegion base n r.address) then
    vs.mapIdx fun i v => (s.shown.lookup (a + i)).getD v
  else vs

/-- The data space after the engine's writes of consecutive bytes from `a` on, each byte's last value by `f`. -/
def State.storedBytes (s : State) (f : Nat → Byte → Byte) (a : Nat) (vs : List Byte) : Memory :=
  s.mem.writeBytes a (vs.mapIdx fun i v => f (a + i) v)

/-! ### The port's answer to a command -/

/-- How the port answers a command's accesses: all with data, a bus error for the access at an address, or one access
never. -/
inductive BusAnswer where
  | data
  | error (address : Nat)
  | waiting
deriving DecidableEq, Repr

/-- The failing access that ERR_BUS reports (R150; log 11). -/
def reported (draw first : Nat) (others : List Nat) : Nat :=
  if others.isEmpty then first
  else (first :: others).getD (Config.failingAccess draw % (others.length + 1)) first

/-- The port's answer to a command. `hits f` lists the command's accesses that touch the byte of `f`, each by its
lowest byte address (R58, R150). -/
def State.portAnswer (s : State) (hits : PortFault → List Nat) : BusAnswer :=
  match (s.port.filter fun f => !f.silent).flatMap hits, (s.port.filter fun f => f.silent).flatMap hits with
  | [], [] => .data
  | [], _ :: _ => .waiting
  | a :: as, [] => .error (reported s.draws a as)
  | a :: as, _ :: _ => if Config.waitsOn s.draws then .waiting else .error (reported s.draws a as)

/-- A command that makes no access. -/
def noAccess : PortFault → List Nat := fun _ => []

end Sys2Proof.Machine
end

