-- ==== Sys2Proof/Machine/Layout.lean ====
section
/-!
DEFINITION. INIT's checks and the layout it derives (spec 40_control.md R91 to R95, 20_memory.md R64, R65,
00_scope.md R16).
-/

namespace Sys2Proof.Machine

/-- ceil(a/b) (R16). -/
def ceilDiv (a b : Nat) : Nat := (a + b - 1) / b

/-- The smallest power of two that is at least n (R16). -/
def nextPow2 (n : Nat) : Nat := if n ≤ 1 then 1 else 2 ^ (Nat.log2 (n - 1) + 1)

/-! ### The derived layout (R92) -/

abbrev ShapeRegs.extY (S : ShapeRegs) : Nat := (S.ky - 1) * S.dily + 1
abbrev ShapeRegs.extX (S : ShapeRegs) : Nat := (S.kx - 1) * S.dilx + 1
abbrev ShapeRegs.ph (S : ShapeRegs) : Nat := S.srcH + S.pt + S.pb
abbrev ShapeRegs.pw (S : ShapeRegs) : Nat := S.srcW + S.pl + S.pr
abbrev ShapeRegs.dstH (S : ShapeRegs) : Nat := (S.ph - S.extY) / S.sy + 1
abbrev ShapeRegs.dstW (S : ShapeRegs) : Nat := (S.pw - S.extX) / S.sx + 1

/-- CPAD, the channel count rounded up to whole groups of W (R16). -/
def cpadOf (w c : Nat) : Nat := ceilDiv c w * w

/-- MODE.VAR as a variant; 3 never passes the checks (R91). -/
def ShapeRegs.variant (S : ShapeRegs) : Variant :=
  match S.var with
  | 0 => .v0
  | 1 => .v1
  | _ => .v2

/-- MODE.REORD as a reorder type; 2 and 3 never pass the checks (R91). -/
def ShapeRegs.reorder (S : ShapeRegs) : Reorder :=
  match S.reord with
  | 0 => .rowMajor
  | _ => .channelMajor

/-- BUFH (R92). -/
def bufHOf (v : Variant) (extY sy : Nat) : Nat :=
  match v with
  | .v0 => 0
  | .v1 => nextPow2 (extY + sy)
  | .v2 => nextPow2 (extY + 2 * sy)

/-- FAST, the 3×3 fast path (R92, R123). -/
def ShapeRegs.fast (S : ShapeRegs) : Bool :=
  S.ky == 3 && S.kx == 3 && S.dily == 1 && S.dilx == 1 && !S.fpdis
    && (S.variant == .v0 || S.reorder == .channelMajor)

/-- The kernel object's shape, mode and derived values, with its stores still empty (R92). -/
def ShapeRegs.layout (S : ShapeRegs) (w : Nat) : Kernel where
  srcH := S.srcH
  srcW := S.srcW
  c := S.c
  ky := S.ky
  kx := S.kx
  sy := S.sy
  sx := S.sx
  dily := S.dily
  dilx := S.dilx
  pt := S.pt
  pl := S.pl
  pb := S.pb
  pr := S.pr
  var := S.variant
  reord := S.reorder
  fpdis := S.fpdis
  dstH := S.dstH
  dstW := S.dstW
  extY := S.extY
  extX := S.extX
  ph := S.ph
  pw := S.pw
  cpad := cpadOf w S.c
  bufH := bufHOf S.variant S.extY S.sy
  fast := S.fast
  wt := []
  store := []
  bias := []
  scale := []

/-! ### The tensors INIT reads (R62, R63) -/

/-- KY*KX*C, the weight region's bytes (R62). -/
abbrev ShapeRegs.weightBytes (S : ShapeRegs) : Nat := S.ky * S.kx * S.c

/-- 4*C, the bias region's and the scale region's bytes (R63). -/
abbrev ShapeRegs.vectorBytes (S : ShapeRegs) : Nat := 4 * S.c

/-! ### The checks, in order (R90, R91, R151) -/

/-- R91: the field checks. -/
def fieldChecks (S : ShapeRegs) : List Check :=
  [ (S.srcH == 0 || S.srcW == 0, .cfgShape, 0x28),
    (S.c == 0, .cfgShape, 0x2C),
    (S.ky == 0 || S.kx == 0 || S.sy == 0 || S.sx == 0, .cfgShape, 0x30),
    (S.dily == 0 || S.dilx == 0, .cfgShape, 0x34),
    (S.srcT != 0, .cfgSrcType, 0x3C),
    (S.dstT != 0, .cfgDstType, 0x3C),
    (decide (1 < S.reord), .cfgReorder, 0x3C),
    (S.var == 3 || (S.var == 2 && decide (S.ky < 2)), .cfgVariant, 0x3C) ]

/-- R92: the derived sizes must exist and fit. -/
def derivedChecks (S : ShapeRegs) : List Check :=
  [ (decide (S.ph < S.extY ∨ S.pw < S.extX), .cfgShape, 0x60),
    (decide (65535 < S.dstH ∨ 65535 < S.dstW), .cfgShape, 0x60) ]

/-- R93: the fixed storage must hold the kernel object. -/
def capacityChecks (p : Params) (S : ShapeRegs) : List Check :=
  [ (decide (p.cMax < S.c), .cfgCapacity, 1),
    (decide (p.wsMax < S.ky * S.kx * S.c), .cfgCapacity, 2),
    (S.variant != .v0 && decide (p.rbBytes < bufHOf S.variant S.extY S.sy * S.pw * cpadOf p.w S.c * 4),
      .cfgCapacity, 3) ]

/-- R64: BIAS_BASE, then SCALE_BASE, a multiple of 4. -/
def alignChecks (S : ShapeRegs) : List Check :=
  [ (S.biasBase.toNat % 4 != 0, .align, 0x44),
    (S.scaleBase.toNat % 4 != 0, .align, 0x48) ]

/-- R65: the weight, then the bias, then the scale region inside the data space. -/
def regionChecks (p : Params) (S : ShapeRegs) : List Check :=
  [ (outOfSpace p S.wgtBase.toNat S.weightBytes, .addr, 0x40),
    (outOfSpace p S.biasBase.toNat S.vectorBytes, .addr, 0x44),
    (outOfSpace p S.scaleBase.toNat S.vectorBytes, .addr, 0x48) ]

/-- Every check of INIT, in the order of R90. -/
def initChecks (p : Params) (S : ShapeRegs) : List Check :=
  fieldChecks S ++ derivedChecks S ++ capacityChecks p S ++ alignChecks S ++ regionChecks p S

/-! ### The stores (R94, R95) -/

/-- NPAIR = ceil(KY/2), the kernel-row pairs of V2 (R95). -/
def Kernel.npair (K : Kernel) : Nat := ceilDiv K.ky 2

/-- The rows of weight vectors the store holds per column: kernel rows, or pairs for V2 (R95). -/
def Kernel.storeRows (K : Kernel) : Nat :=
  match K.var with
  | .v0 => K.ky
  | .v1 => K.ky
  | .v2 => K.npair

/-- The index of the entry for weight row r (kernel row or pair), column kx and channel c (R95). V0 keeps the
row-major order for either reorder type. -/
def Kernel.storeIndex (K : Kernel) (w r kx c : Nat) : Nat :=
  match K.var, K.reord with
  | .v0, _ => (r * K.kx + kx) * K.cpad + c
  | _, .rowMajor => (r * K.kx + kx) * K.cpad + c
  | _, .channelMajor => (c / w * K.storeRows * K.kx + r * K.kx + kx) * w + c % w

/-- The weight pair of kernel rows 2j and 2j+1; a missing partner of an odd kernel height weighs 0 (R95, R113). -/
def Kernel.weightPair (K : Kernel) (j kx c : Nat) : Word :=
  let wl : BitVec 16 := (K.weight (2 * j) kx c).signExtend 16
  let wh : BitVec 16 := if 2 * j + 1 < K.ky then (K.weight (2 * j + 1) kx c).signExtend 16 else 0
  wh ++ wl

/-- The entry value for weight row r, column kx and channel c; 0 in a lane with c ≥ C (R95). V0's s8 entry stands in
the low byte (log 28). -/
def Kernel.storeEntry (K : Kernel) (r kx c : Nat) : Word :=
  if c < K.c then
    match K.var with
    | .v0 => (K.weight r kx c).setWidth 32
    | .v1 => (K.weight r kx c).signExtend 32
    | .v2 => K.weightPair r kx c
  else 0

/-- Weight row, column and channel of the store's entry i: the inverse of `storeIndex`. -/
def Kernel.storeCoord (K : Kernel) (w i : Nat) : Nat × Nat × Nat :=
  match K.var, K.reord with
  | .v0, _ => (i / K.cpad / K.kx, i / K.cpad % K.kx, i % K.cpad)
  | _, .rowMajor => (i / K.cpad / K.kx, i / K.cpad % K.kx, i % K.cpad)
  | _, .channelMajor =>
    let t := i / w
    (t / K.kx % K.storeRows, t % K.kx, t / K.kx / K.storeRows * w + i % w)

/-- The repacked weight store (R95). -/
def Kernel.repacked (K : Kernel) (w : Nat) : List Word :=
  (List.range (K.storeRows * K.kx * K.cpad)).map fun i =>
    let x := K.storeCoord w i
    K.storeEntry x.1 x.2.1 x.2.2

/-- The kernel object with its stores loaded from the data space and the weights repacked (R94, R95). -/
def State.loadKernel (s : State) (S : ShapeRegs) : Kernel :=
  let n := S.weightBytes
  let K : Kernel :=
    { S.layout s.params.w with
      wt := (List.range n).map fun i => s.engineByte (4 * i) (S.wgtBase.toNat + i)
      bias := (List.range S.c).map fun c => s.engineWord (4 * (n + c)) (S.biasBase.toNat + 4 * c)
      scale := (List.range S.c).map fun c => s.engineWord (4 * (n + S.c + c)) (S.scaleBase.toNat + 4 * c) }
  { K with store := K.repacked s.params.w }

/-- The accesses of INIT that touch the byte of `f`, by their lowest byte address: every byte of the weight region,
every entry of the bias and scale regions (R66, R94). -/
def initHits (S : ShapeRegs) (f : PortFault) : List Nat :=
  let entry (base : Nat) : List Nat :=
    if inRegion base S.vectorBytes f.address then [base + 4 * ((f.address - base) / 4)] else []
  if f.isWrite then []
  else (if inRegion S.wgtBase.toNat S.weightBytes f.address then [f.address] else [])
    ++ entry S.biasBase.toNat ++ entry S.scaleBase.toNat

/-- The slots of a kernel object's ring, every tag INVALID (R49, R50). -/
def Kernel.emptySlots (K : Kernel) : List Slot := List.replicate K.bufH ⟨none, []⟩

end Sys2Proof.Machine
end

