-- ==== Sys2Proof/Machine/Control.lean ====
section
/-!
DEFINITION. The control commands NOP, INIT, INVAL and CLRERR (spec 40_control.md). A command's meaning starts after
its acceptance and ends in `complete` or `raiseError`.
-/

namespace Sys2Proof.Machine

/-- NOP (R89). -/
def execNop (s : State) : Host.Outcome State Fault Refusal := .next (complete s)

/-- KVALID <- 1: the new kernel object, with an empty ring of its BUFH slots (R47, R49, R90). -/
def installKernel (K : Kernel) (s : State) : State := { s with kernel := some K, ring := K.emptySlots }

/-- INIT (R90): the previous kernel object is discarded, then the checks of R91 to R93, R64 and R65 in order, then the
loads of R94 and the repacking of R95. The path of R96 is K.var and K.fast. -/
def execInit (s : State) : Host.Outcome State Fault Refusal :=
  let S := s.initOperands
  let s₀ := discardKernel s
  match firstError (initChecks s.params S) with
  | some (code, info) => .next (raiseError code info s₀)
  | none =>
    match s₀.portAnswer (initHits S) with
    | .data => .next (complete (installKernel (s.loadKernel S) s₀))
    | .error a => .next (raiseError .bus (BitVec.ofNat 32 a) s₀)
    | .waiting => .next s₀

/-- INVAL (R97). RVALID falls in the step of completion, which is the model's choice (log 33). -/
def execInval (s : State) : Host.Outcome State Fault Refusal := .next (complete (emptyRing s))

/-- CLRERR (R98). What it clears, acceptance has cleared already (R145); clearing it again changes nothing. -/
def execClrerr (s : State) : Host.Outcome State Fault Refusal := .next (complete (clearError s))

end Sys2Proof.Machine
end

