-- ==== Sys2Proof/Machine/Fp32.lean ====
section
/-!
DEFINITION. The IEEE 754 binary32 arithmetic REQ_REF uses (spec 43_datapath.md R141, 93_implementation_defined.md G1,
G2): conversion from i32, multiplication, rounding to an integer, each to nearest with ties to even. Values are
exact; a rounding is the one place where a value changes.
-/

namespace Sys2Proof.Machine

/-- A binary32 value. `fin neg m e` is (-1)^neg * m * 2^e. -/
inductive Fp where
  | nan
  | inf (neg : Bool)
  | fin (neg : Bool) (m : Nat) (e : Int)
deriving DecidableEq, Repr

/-- m / 2^k to the nearest integer, ties to even. -/
def rneShift (m k : Nat) : Nat :=
  let q : Nat := m / 2 ^ k
  let r : Nat := m % 2 ^ k
  if 2 * r > 2 ^ k ∨ (2 * r = 2 ^ k ∧ q % 2 = 1) then q + 1 else q

/-- The value of a binary32 bit pattern (G1). -/
def Fp.ofBits (w : Word) : Fp :=
  let neg := w.getLsbD 31
  let ex : Nat := (w.toNat / 2 ^ 23) % 2 ^ 8
  let man : Nat := w.toNat % 2 ^ 23
  if ex = 255 then (if man = 0 then .inf neg else .nan)
  else if ex = 0 then .fin neg man (-149)
  else .fin neg (2 ^ 23 + man) ((ex : Int) - 150)

/-- The binary32 value nearest to (-1)^neg * m * 2^e, ties to even; an infinity when that value is too large, a
subnormal or zero when it is too small (G2; log 10). -/
def Fp.rounded (neg : Bool) (m : Nat) (e : Int) : Fp :=
  if m = 0 then .fin neg 0 (-149)
  else
    let q : Int := max (e + (Nat.log2 m : Int) + 1 - 24) (-149)
    let man := if q ≤ e then m * 2 ^ (e - q).toNat else rneShift m (q - e).toNat
    if man * 2 ^ (q + 149).toNat < 2 ^ 277 then .fin neg man q else .inf neg

/-- toFP32 of an i32 (R141). -/
def Fp.ofI32 (t : Word) : Fp := Fp.rounded (decide (t.toInt < 0)) t.toInt.natAbs 0

/-- The binary32 product (R141). -/
def Fp.mul : Fp → Fp → Fp
  | .nan, _ => .nan
  | _, .nan => .nan
  | .inf n, .inf n' => .inf (n != n')
  | .inf n, .fin n' m _ => if m = 0 then .nan else .inf (n != n')
  | .fin n m _, .inf n' => if m = 0 then .nan else .inf (n != n')
  | .fin n m e, .fin n' m' e' => Fp.rounded (n != n') (m * m') (e + e')

/-- roundTiesEven of a finite value (R141). -/
def Fp.toIntRne (neg : Bool) (m : Nat) (e : Int) : Int :=
  let a : Nat := if 0 ≤ e then m * 2 ^ e.toNat else rneShift m (-e).toNat
  if neg then -(a : Int) else a

/-- clamp(v, 0, 255) as a byte (R16, R141). -/
def clampByte (v : Int) : Byte := BitVec.ofNat 8 (min (max v 0) 255).toNat

/-- REQ_REF (R141). `nan` is the byte it gives for a NaN. -/
def reqRef (nan : Byte) (sum bias scale : Word) (zp : Byte) : Byte :=
  match Fp.mul (Fp.ofI32 (sum + bias)) (Fp.ofBits scale) with
  | .nan => nan
  | .inf neg => if neg then 0 else 255
  | .fin neg m e => clampByte (Fp.toIntRne neg m e + zp.toNat)

end Sys2Proof.Machine
end

