-- ==== Sys2Proof/Machine/Ring.lean ====
section
/-!
DEFINITION. Source values, windows and the ring buffer (spec 41_preprocess.md R99, R100, R103 to R107, 10_state.md
R49 to R51).
-/

namespace Sys2Proof.Machine

/-- A reader of source values: the number of the read within the command, then padded row, padded column, channel. -/
abbrev Source := (read py px c : Nat) → Byte

/-- SrcVal(py, px, c) over a reader of the data space (R99): the source element when the coordinates fall inside the
source plane (R60), else the source zero point. -/
def srcVal (K : Kernel) (I : CallRegs) (rd : Nat → Byte) (py px c : Nat) : Byte :=
  if (K.pt ≤ py ∧ py < K.pt + K.srcH) ∧ (K.pl ≤ px ∧ px < K.pl + K.srcW) then
    rd (I.srcBase.toNat + ((py - K.pt) * K.srcW + (px - K.pl)) * K.c + c)
  else I.srcZpByte

/-- SrcVal as the engine reads it in the running command. -/
def State.source (s : State) (K : Kernel) (I : CallRegs) : Source :=
  fun read py px c => srcVal K I (s.engineByte read) py px c

/-! ### Windows (R100) -/

/-- byBeg(b, e). -/
abbrev Kernel.byBeg (K : Kernel) (b : Nat) : Nat := b * K.sy

/-- L(b, e), the window length of the non-empty range [b, e). -/
abbrev Kernel.windowLen (K : Kernel) (b e : Nat) : Nat := (e - 1 - b) * K.sy + K.extY

/-- The padded rows of the window of the non-empty range [b, e), ascending. -/
def Kernel.window (K : Kernel) (b e : Nat) : List Nat := List.range' (K.byBeg b) (K.windowLen b e)

/-! ### Slots (R50, R107) -/

/-- The slot of padded row `by`. -/
def Kernel.slotOf (K : Kernel) (by_ : Nat) : Nat := by_ &&& (K.bufH - 1)

/-- The tag of slot i; a slot that does not exist holds no row. -/
def tagAt (ring : List Slot) (i : Nat) : Option Nat := (ring[i]?).bind Slot.tag

/-- Where lane (px, c) stands within its slot's payload, by reorder type (R107). -/
def Kernel.laneIndex (K : Kernel) (w px c : Nat) : Nat :=
  match K.reord with
  | .rowMajor => px * K.cpad + c
  | .channelMajor => c / w * K.pw * w + px * w + c % w

/-- Pixel and channel of the lane at index j of a slot's payload: the inverse of `laneIndex`. -/
def Kernel.laneCoord (K : Kernel) (w j : Nat) : Nat × Nat :=
  match K.reord with
  | .rowMajor => (j / K.cpad, j % K.cpad)
  | .channelMajor => (j / w % K.pw, j / w / K.pw * w + j % w)

/-- The number of a fill's read of padded row `by`, pixel px, channel c; `half` is 1 for V2's second row. -/
def Kernel.fillRead (K : Kernel) (half by_ px c : Nat) : Nat := ((by_ * K.pw + px) * K.c + c) * 2 + half

/-- The lane (px, c) of a slot filled with padded row `by`: the widened value (R105), V2's pair of rows `by` and
`by + DILY` (R106), or the broadcast zero point in a lane with c ≥ C (R107, R131). -/
def Kernel.laneValue (K : Kernel) (zp : Byte) (src : Source) (by_ px c : Nat) : Word :=
  match K.var with
  | .v2 =>
    let lo : Byte := if c < K.c then src (K.fillRead 0 by_ px c) by_ px c else zp
    let hi : Byte := if c < K.c then src (K.fillRead 1 by_ px c) (by_ + K.dily) px c else zp
    hi.setWidth 16 ++ lo.setWidth 16
  | _ => (if c < K.c then src (K.fillRead 0 by_ px c) by_ px c else zp).setWidth 32

/-- The payload of a slot filled with padded row `by`, in its physical order (R104, R107). -/
def Kernel.payload (K : Kernel) (w : Nat) (zp : Byte) (src : Source) (by_ : Nat) : List Word :=
  (List.range (K.pw * K.cpad)).map fun j =>
    let x := K.laneCoord w j
    K.laneValue zp src by_ x.1 x.2

/-- Filling slot `by & (BUFH - 1)` with padded row `by` (R104). -/
def Kernel.fillSlot (K : Kernel) (w : Nat) (zp : Byte) (src : Source) (ring : List Slot) (by_ : Nat) : List Slot :=
  ring.set (K.slotOf by_) ⟨some by_, K.payload w zp src by_⟩

/-- Filling padded rows, in the order given. -/
def Kernel.fillRows (K : Kernel) (w : Nat) (zp : Byte) (src : Source) (ring : List Slot) (rows : List Nat) :
    List Slot :=
  rows.foldl (K.fillSlot w zp src) ring

/-- v32[py & m][px][c] or {hi, lo} of it: the lane a command reads for padded row py (R113). -/
def Kernel.ringLane (K : Kernel) (w : Nat) (ring : List Slot) (py px c : Nat) : Word :=
  match ring[K.slotOf py]? with
  | some x => x.lanes.getD (K.laneIndex w px c) 0
  | none => 0

/-- The ring an invocation fills from: another context than RCTX empties it first (R103). -/
def ringFor (s : State) (I : CallRegs) : List Slot :=
  if s.rctx = some I.ringCtx then s.ring else invalidateTags s.ring

/-! ### The bytes a fill reads -/

/-- Whether an output row of [b, e) reads padded row py (R100, R111). -/
def Kernel.rowUsed (K : Kernel) (b e py : Nat) : Bool :=
  (List.range' b (e - b)).any fun dy => (List.range K.ky).any fun ky => dy * K.sy + ky * K.dily == py

/-- Whether an output column reads padded column px (R111). -/
def Kernel.colUsed (K : Kernel) (px : Nat) : Bool :=
  (List.range K.dstW).any fun dx => (List.range K.kx).any fun kx => dx * K.sx + kx * K.dilx == px

/-- The padded row and column of the source element whose byte is at address a (R60). -/
def Kernel.paddedCoord (K : Kernel) (base a : Nat) : Nat × Nat :=
  ((a - base) / (K.srcW * K.c) + K.pt, (a - base) % (K.srcW * K.c) / K.c + K.pl)

/-- The read of source byte `f` a command makes: surely when the command reads the byte and an output depends on it,
possibly for any other byte of the source region (R66, R67; log 13). -/
def sourceHits (draw : Nat) (K : Kernel) (I : CallRegs) (sure : Nat → Nat → Bool) (f : PortFault) : List Nat :=
  let x := K.paddedCoord I.srcBase.toNat f.address
  if f.isWrite then []
  else if inRegion I.srcBase.toNat K.srcBytes f.address then
    (if sure x.1 x.2 then [f.address] else if Config.extraRead draw f.address then [f.address] else [])
  else []

/-- Whether filling the window of [b, e) reads padded row py: a row of the window, or for V2 the partner of one. -/
def Kernel.rowFilled (K : Kernel) (b e py : Nat) : Bool :=
  (K.window b e).contains py
    || (K.var == .v2 && decide (K.dily ≤ py) && (K.window b e).contains (py - K.dily))

/-- The source reads of a fill of the window of [b, e). -/
def fillHits (draw : Nat) (K : Kernel) (I : CallRegs) (b e : Nat) : PortFault → List Nat :=
  sourceHits draw K I fun py px => K.rowFilled b e py && K.rowUsed 0 K.dstH py && K.colUsed px

end Sys2Proof.Machine
end

