-- ==== Sys2Proof/Machine/Mac.lean ====
section
/-!
DEFINITION. The lane operations of the datapath (spec 43_datapath.md R130 to R135, R140) and the sums of
42_convolution.md R111, R113.
-/

namespace Sys2Proof.Machine

/-- Widening of a source value: zero extension (R130). -/
def widenSource (v : Byte) : Word := v.setWidth 32

/-- Widening of a weight: sign extension (R130). -/
def widenWeight (v : Byte) : Word := v.signExtend 32

/-- Multiply-accumulate in one lane (R132); the addition is +32. -/
def mac (acc a b : Word) : Word := acc + a * b

/-- The high i16 half of a lane, sign-extended (R133). -/
def hiHalf (x : Word) : Word := (x.extractLsb' 16 16).signExtend 32

/-- The low i16 half of a lane, sign-extended (R133). -/
def loHalf (x : Word) : Word := (x.extractLsb' 0 16).signExtend 32

/-- PMADD of a source pair and a weight pair (R133). -/
def pmadd (x y : Word) : Word := hiHalf x * hiHalf y + loHalf x * loHalf y

/-- Paired multiply-accumulate in one lane (R133). -/
def pmac (acc x y : Word) : Word := acc + pmadd x y

/-- REQ of the instance (R140). `draw` and `output` number the NaN draw of REQ_REF. -/
def requant (r : Requantizer) (draw output : Nat) (sum bias scale : Word) (zp : Byte) : Byte :=
  match r with
  | .reference => reqRef (Config.nanByte draw output) sum bias scale zp
  | .custom n => Config.customReq n sum bias scale zp

/-- The kernel taps, row by row. -/
def taps (rows cols : Nat) : List (Nat × Nat) :=
  (List.range rows).flatMap fun r => (List.range cols).map fun x => (r, x)

/-- The linear index of output (dy, dx, c) within the destination tensor (R61). -/
def Kernel.outIndex (K : Kernel) (dy dx c : Nat) : Nat := (dy * K.dstW + dx) * K.c + c

/-- Row, column and channel of the output with linear index n: the inverse of `outIndex`. -/
def Kernel.outCoord (K : Kernel) (n : Nat) : Nat × Nat × Nat := (n / K.c / K.dstW, n / K.c % K.dstW, n % K.c)

/-- The number of the source read of tap (ky, kx) for output index n. -/
def Kernel.tapRead (K : Kernel) (n ky kx : Nat) : Nat := (n * K.ky + ky) * K.kx + kx

/-- RefSum(dy, dx, c) (R111). -/
def Kernel.refSum (K : Kernel) (src : Source) (dy dx c : Nat) : Word :=
  (taps K.ky K.kx).foldl (init := 0) fun acc t =>
    mac acc
      (widenSource (src (K.tapRead (K.outIndex dy dx c) t.1 t.2) (dy * K.sy + t.1 * K.dily) (dx * K.sx + t.2 * K.dilx) c))
      (widenWeight (K.weight t.1 t.2 c))

/-- RingSum(dy, dx, c) of V1 (R113). -/
def Kernel.ringSumV1 (K : Kernel) (w : Nat) (ring : List Slot) (dy dx c : Nat) : Word :=
  (taps K.ky K.kx).foldl (init := 0) fun acc t =>
    mac acc (K.ringLane w ring (dy * K.sy + t.1 * K.dily) (dx * K.sx + t.2 * K.dilx) c)
      (widenWeight (K.weight t.1 t.2 c))

/-- RingSum(dy, dx, c) of V2, a pair of kernel rows at a time (R113). -/
def Kernel.ringSumV2 (K : Kernel) (w : Nat) (ring : List Slot) (dy dx c : Nat) : Word :=
  (taps K.npair K.kx).foldl (init := 0) fun acc t =>
    pmac acc (K.ringLane w ring (dy * K.sy + 2 * t.1 * K.dily) (dx * K.sx + t.2 * K.dilx) c)
      (K.weightPair t.1 t.2 c)

/-- RingSum(dy, dx, c) of a kernel object with a ring (R113). -/
def Kernel.ringSum (K : Kernel) (w : Nat) (ring : List Slot) (dy dx c : Nat) : Word :=
  match K.var with
  | .v2 => K.ringSumV2 w ring dy dx c
  | _ => K.ringSumV1 w ring dy dx c

/-- The output byte of a sum: REQ with the channel's bias and scale and the destination zero point (R111, R135,
R140). -/
def State.outByte (s : State) (K : Kernel) (I : CallRegs) (sum : Nat → Nat → Nat → Word) (dy dx c : Nat) : Byte :=
  requant s.params.req s.draws (K.outIndex dy dx c) (sum dy dx c) (K.biasAt c) (K.scaleAt c) I.dstZpByte

/-- The output bytes with linear indices n₀ to n₀ + k - 1, in destination order (R61, R112). -/
def State.outBytes (s : State) (K : Kernel) (I : CallRegs) (sum : Nat → Nat → Nat → Word) (n₀ k : Nat) : List Byte :=
  (List.range' n₀ k).map fun n =>
    let x := K.outCoord n
    s.outByte K I sum x.1 x.2.1 x.2.2

end Sys2Proof.Machine
end

