-- ==== Sys2Proof/Machine/Preprocess.lean ====
section
/-!
DEFINITION. PREPROCESS (spec 41_preprocess.md R101 to R108).
-/

namespace Sys2Proof.Machine

/-- A zero point must be 0 to 255 (R41). -/
def zpTooLarge (v : Word) : Bool := decide (255 < v.toNat)

/-- A row range is legal when b ≤ e ≤ DST_H (R115). -/
def rangeIllegal (K : Kernel) (I : CallRegs) : Bool := !(decide (I.dyBeg ≤ I.dyEnd) && decide (I.dyEnd ≤ K.dstH))

/-- PREPROCESS's checks 2 to 4 (R102). -/
def preprocessChecks (p : Params) (K : Kernel) (I : CallRegs) : List Check :=
  [ (zpTooLarge I.srcZp, .zp, 0x54),
    (rangeIllegal K I, .range, I.rows),
    (outOfSpace p I.srcBase.toNat K.srcBytes, .addr, 0x4C) ]

/-- The state after the context update of R103, before the first fill. -/
def enterContext (s : State) (I : CallRegs) : State := { s with ring := ringFor s I, rctx := some I.ringCtx }

/-- PREPROCESS (R101). A fill that waits for the data port for ever leaves the context updated (log 15). Otherwise the
context, and RVALID with it, changes in the step of completion: when a host sees it change while BUSY is the model's
choice (log 33). -/
def execPreprocess (s : State) : Host.Outcome State Fault Refusal :=
  match s.kernel with
  | none => .next (raiseError .notReady (encode .preprocess) s)
  | some K =>
    let I := s.invocation
    match firstError (preprocessChecks s.params K I) with
    | some (code, info) => .next (raiseError code info s)
    | none =>
      if I.dyBeg = I.dyEnd ∨ K.var = .v0 then .next (complete s)
      else
        let s₁ := enterContext s I
        match s.portAnswer (fillHits s.draws K I I.dyBeg I.dyEnd) with
        | .data =>
          .next (complete
            { s₁ with
              ring := K.fillRows s.params.w I.srcZpByte (s.source K I) s₁.ring (K.window I.dyBeg I.dyEnd) })
        | .error a => .next (raiseError .bus (BitVec.ofNat 32 a) s₁)
        | .waiting => .next s₁

end Sys2Proof.Machine
end

