-- ==== Sys2Proof/Machine/Convolution.lean ====
section
/-!
DEFINITION. COMPUTE and RUN (spec 42_convolution.md R111 to R122).
-/

namespace Sys2Proof.Machine

/-! ### Checks (R115 to R118) -/

/-- The regions [a, a + n) and [d, d + k) overlap (R117). -/
def regionsOverlap (a n d k : Nat) : Bool := decide (a < d + k) && decide (d < a + n)

/-- Checks 2 to 7 of COMPUTE and RUN (R116). -/
def convChecks (p : Params) (K : Kernel) (I : CallRegs) : List Check :=
  [ (zpTooLarge I.srcZp, .zp, 0x54),
    (zpTooLarge I.dstZp, .zp, 0x58),
    (rangeIllegal K I, .range, I.rows),
    (outOfSpace p I.srcBase.toNat K.srcBytes, .addr, 0x4C),
    (outOfSpace p I.dstBase.toNat K.dstBytes, .addr, 0x50),
    (regionsOverlap I.srcBase.toNat K.srcBytes I.dstBase.toNat K.dstBytes, .overlap, 0x50) ]

/-- Padded row `by` is resident: its slot's tag names it (R118). -/
def resident (K : Kernel) (ring : List Slot) (by_ : Nat) : Bool := tagAt ring (K.slotOf by_) == some by_

/-- ERRINFO of the residency check when it fails: all ones for the context, else the first missing row of the window
(R118). -/
def ringMiss (s : State) (K : Kernel) (I : CallRegs) : Option Word :=
  if s.rctx ≠ some I.ringCtx then some 0xFFFFFFFF
  else ((K.window I.dyBeg I.dyEnd).find? fun by_ => !resident K s.ring by_).map (BitVec.ofNat 32)

/-! ### What a command will do, once its checks have passed -/

/-- The data-space writes of a command, one run of bytes from `first` on; the accesses it makes; the ring as it starts
(`started`), and the ring and the ring context it leaves. -/
structure Plan where
  first : Nat
  values : List Byte
  hits : PortFault → List Nat
  started : List Slot
  ring : List Slot
  rctx : Option RingCtx

/-- Nothing to do: an empty row range (R115). -/
def emptyPlan (s : State) (I : CallRegs) : Plan := ⟨I.dstBase.toNat, [], noAccess, s.ring, s.ring, s.rctx⟩

/-- The destination bytes of the rows [b, e): the linear index of the first and their count (R61, R112). -/
abbrev Kernel.rowsFirst (K : Kernel) (b : Nat) : Nat := b * K.dstW * K.c

/-- See `Kernel.rowsFirst`. -/
abbrev Kernel.rowsCount (K : Kernel) (b e : Nat) : Nat := (e - b) * K.dstW * K.c

/-- The destination writes of the rows [b, e) as accesses (R66, R150). -/
def writeHits (K : Kernel) (I : CallRegs) (b e : Nat) (f : PortFault) : List Nat :=
  if f.isWrite && inRegion (I.dstBase.toNat + K.rowsFirst b) (K.rowsCount b e) f.address then [f.address] else []

/-- The source reads of V0: the taps of the outputs in range (R111, R130). -/
def directHits (draw : Nat) (K : Kernel) (I : CallRegs) (b e : Nat) : PortFault → List Nat :=
  sourceHits draw K I fun py px => K.rowUsed b e py && K.colUsed px

/-- COMPUTE and RUN on V0: every output is RefOut of the source in the data space (R111, R119, R120). -/
def directPlan (s : State) (K : Kernel) (I : CallRegs) : Plan where
  first := I.dstBase.toNat + K.rowsFirst I.dyBeg
  values := s.keepShown I.srcBase.toNat K.srcBytes (I.dstBase.toNat + K.rowsFirst I.dyBeg)
    (s.outBytes K I (K.refSum (s.source K I)) (K.rowsFirst I.dyBeg) (K.rowsCount I.dyBeg I.dyEnd))
  hits f := directHits s.draws K I I.dyBeg I.dyEnd f ++ writeHits K I I.dyBeg I.dyEnd f
  started := s.ring
  ring := s.ring
  rctx := s.rctx

/-- COMPUTE on V1 or V2: every output comes from the ring, which stays (R113, R119). -/
def ringPlan (s : State) (K : Kernel) (I : CallRegs) : Plan where
  first := I.dstBase.toNat + K.rowsFirst I.dyBeg
  values := s.outBytes K I (K.ringSum s.params.w s.ring) (K.rowsFirst I.dyBeg) (K.rowsCount I.dyBeg I.dyEnd)
  hits f := writeHits K I I.dyBeg I.dyEnd f
  started := s.ring
  ring := s.ring
  rctx := s.rctx

/-- RUN's loop on V1 and V2 (R120): before each output row, the rows of its window that are still to come are filled.
`next` is the first padded row not filled yet. A source byte is read once for each lane filled from it (V2: once for the
low and once for the high half), and every output that uses the lane has that read: the model's choice among the counts
R67 allows, which only a race can tell apart (log 32). The result is the final ring and the output bytes. -/
def runRows (s : State) (K : Kernel) (I : CallRegs) : List Nat → List Slot → Nat → List Slot × List Byte
  | [], ring, _ => (ring, [])
  | dy :: rest, ring, next =>
    let stop := dy * K.sy + K.extY
    let ring' := K.fillRows s.params.w I.srcZpByte (s.source K I) ring (List.range' next (stop - next))
    let r := runRows s K I rest ring' (max next stop)
    (r.1, s.outBytes K I (K.ringSum s.params.w ring') (K.rowsFirst dy) (K.dstW * K.c) ++ r.2)

/-- RUN on V1 or V2 (R120). -/
def fusedPlan (s : State) (K : Kernel) (I : CallRegs) : Plan :=
  let r := runRows s K I (List.range' I.dyBeg (I.dyEnd - I.dyBeg)) (invalidateTags s.ring) (K.byBeg I.dyBeg)
  { first := I.dstBase.toNat + K.rowsFirst I.dyBeg
    values := s.keepShown I.srcBase.toNat K.srcBytes (I.dstBase.toNat + K.rowsFirst I.dyBeg) r.2
    hits := fun f => fillHits s.draws K I I.dyBeg I.dyEnd f ++ writeHits K I I.dyBeg I.dyEnd f
    started := invalidateTags s.ring
    ring := r.1
    rctx := some I.ringCtx }

/-- COMPUTE's checks and what it will do (R116, R118, R119). -/
def computePlan (s : State) : Except (ErrorCode × Word) Plan :=
  match s.kernel with
  | none => .error (.notReady, encode .compute)
  | some K =>
    let I := s.invocation
    match firstError (convChecks s.params K I) with
    | some e => .error e
    | none =>
      if I.dyBeg = I.dyEnd then .ok (emptyPlan s I)
      else if K.var = .v0 then .ok (directPlan s K I)
      else match ringMiss s K I with
        | some info => .error (.ringMiss, info)
        | none => .ok (ringPlan s K I)

/-- RUN's checks and what it will do (R116, R120). -/
def runPlan (s : State) : Except (ErrorCode × Word) Plan :=
  match s.kernel with
  | none => .error (.notReady, encode .run)
  | some K =>
    let I := s.invocation
    match firstError (convChecks s.params K I) with
    | some e => .error e
    | none =>
      if I.dyBeg = I.dyEnd then .ok (emptyPlan s I)
      else if K.var = .v0 then .ok (directPlan s K I)
      else .ok (fusedPlan s K I)

/-! ### Doing it -/

/-- What the accumulator file holds once the tiles are done, or cut short, or while one waits for the data port: nothing
the spec states (R54; log 20). A command that makes no tile leaves it alone. -/
def State.accAfter (s : State) (P : Plan) : List (List Word) :=
  if P.values.isEmpty then s.acc
  else (List.range s.params.accN).map fun k => (List.range s.params.w).map fun i => Config.accResidue s.draws k i

/-- The data space after a command that was cut short: each byte it would have written is old or new (R122, R164). -/
def State.partialMem (s : State) (P : Plan) : Memory := s.storedBytes s.maybeLanded P.first P.values

/-- A command's accesses and its completion (R112, R119, R120, R122). One that waits for the data port for ever has set
its ring context, and no slot is filled yet (R152; log 15); what its tiles have left in the accumulator file is free (R54;
log 20). Else RVALID changes with the completion (log 33). -/
def finishPlan (s : State) (P : Plan) : Host.Outcome State Fault Refusal :=
  match s.portAnswer P.hits with
  | .data =>
    .next (complete
      { s with
        mem := s.storedBytes s.settled P.first P.values
        ring := P.ring
        rctx := P.rctx
        acc := s.accAfter P })
  | .error a => .next (raiseError .bus (BitVec.ofNat 32 a) { s with mem := s.partialMem P, acc := s.accAfter P })
  | .waiting => .next { s with ring := P.started, rctx := P.rctx, acc := s.accAfter P }

/-- COMPUTE (R119). -/
def execCompute (s : State) : Host.Outcome State Fault Refusal :=
  match computePlan s with
  | .error (code, info) => .next (raiseError code info s)
  | .ok P => finishPlan s P

/-- RUN (R120). -/
def execRun (s : State) : Host.Outcome State Fault Refusal :=
  match runPlan s with
  | .error (code, info) => .next (raiseError code info s)
  | .ok P => finishPlan s P

end Sys2Proof.Machine
end

