-- ==== Sys2Proof/Machine/Dispatch.lean ====
section
/-! DEFINITION. The meaning of every command (spec 30_encoding.md R83), one arm a constructor. -/

namespace Sys2Proof.Machine

def exec (i : Instr) (s : State) : Host.Outcome State Fault Refusal :=
  match i with
  | .nop => Sys2Proof.Machine.execNop s
  | .init => Sys2Proof.Machine.execInit s
  | .preprocess => Sys2Proof.Machine.execPreprocess s
  | .compute => Sys2Proof.Machine.execCompute s
  | .run => Sys2Proof.Machine.execRun s
  | .inval => Sys2Proof.Machine.execInval s
  | .clrerr => Sys2Proof.Machine.execClrerr s

end Sys2Proof.Machine
end

