-- ==== Sys2Proof/Machine/RegPort.lean ====
section
/-!
DEFINITION. The register port (spec 10_state.md R21 to R45) and reset (70_reset_and_hazards.md R161 to R164).
-/

namespace Sys2Proof.Machine

/-! ### Reset -/

/-- What the running command would write, when it is a COMPUTE or RUN whose checks pass (R164). -/
def State.runningPlan (s : State) : Option Plan :=
  match s.held with
  | none => none
  | some w =>
    match decode w with
    | .ok .compute => (computePlan s).toOption
    | .ok .run => (runPlan s).toOption
    | _ => none

/-- The data space after a reset: a reset while BUSY leaves each byte the command would have written old or new (R164;
log 14, log 29). -/
def State.abandonedMem (s : State) : Memory :=
  match s.runningPlan with
  | some P => s.partialMem P
  | none => s.mem

/-- Power-on and soft reset (R161, R163): every piece of state takes its reset value, but for the instance's
parameters, the data space, and what is outside the block. The accumulator file, unspecified, holds zeros (log 6). -/
def resetMachine (s : State) : State :=
  { State.reset with
    params := s.params
    acc := List.replicate s.params.accN (List.replicate s.params.w 0)
    mem := s.abandonedMem
    rst := s.rst
    port := s.port
    events := s.events
    resp := s.resp
    draws := s.draws + 1
    peeks := s.peeks }

/-! ### The register map (R22) -/

/-- The 27 registers of the window. -/
inductive Reg where
  | id | version | params0 | params1 | ctrl | status | cmd | errinfo | irqEn | irqStatus
  | shapeSrc | shapeC | kernel | dil | pad | mode
  | wgtBase | biasBase | scaleBase | srcBase | dstBase | srcZp | dstZp | rows
  | dstShape | layout | bufw
deriving DecidableEq, Repr

/-- The registers in the order of their offsets, 0x00, 0x04 and so on (R22). -/
def regMap : List Reg :=
  [.id, .version, .params0, .params1, .ctrl, .status, .cmd, .errinfo, .irqEn, .irqStatus,
   .shapeSrc, .shapeC, .kernel, .dil, .pad, .mode,
   .wgtBase, .biasBase, .scaleBase, .srcBase, .dstBase, .srcZp, .dstZp, .rows,
   .dstShape, .layout, .bufw]

/-- The register at an offset: bits [7:2] select it (R80); none at 0x6C to 0xFC (R21). -/
def regAt (offset : Byte) : Option Reg := regMap[offset.toNat / 4]?

/-- The platform address of a window offset (R20, R69). -/
def busAddress (offset : Byte) : Nat := Config.regBase + offset.toNat

/-- The value a register reads (R22 to R45). A read never changes state (R21). -/
def readReg (s : State) : Reg → Word
  | .id => 0x444D5743
  | .version => 0x00010000
  | .params0 => params0Word s.params
  | .params1 => params1Word s.params
  | .ctrl => 0
  | .status => s.statusWord
  | .cmd => 0
  | .errinfo => s.errInfo
  | .irqEn => s.irqEn
  | .irqStatus => s.irqStatus
  | .shapeSrc => s.shape.shapeSrc
  | .shapeC => s.shape.shapeC
  | .kernel => s.shape.kernelReg
  | .dil => s.shape.dil
  | .pad => s.shape.pad
  | .mode => s.shape.mode
  | .wgtBase => s.shape.wgtBase
  | .biasBase => s.shape.biasBase
  | .scaleBase => s.shape.scaleBase
  | .srcBase => s.callRegs.srcBase
  | .dstBase => s.callRegs.dstBase
  | .srcZp => s.callRegs.srcZp
  | .dstZp => s.callRegs.dstZp
  | .rows => s.callRegs.rows
  | .dstShape => s.derived Kernel.dstShapeWord
  | .layout => s.derived Kernel.layoutWord
  | .bufw => s.derived Kernel.bufwWord

/-- The bits of a register that a write stores; the others are res and stay 0 (R21, R32, R35, R37, R39). -/
def irqEnMask : Word := 0x00000003
def shapeCMask : Word := 0x0000FFFF
def dilMask : Word := 0x0000FFFF
def modeMask : Word := 0x00000F1F

/-- A write of `v` to a register (R21 to R45). `arriving` are the IRQ_STATUS events of the same clock cycle: an event
wins over a clearing write (R33, R151). -/
def writeReg (s : State) (v : Word) (arriving : Word) : Reg → State
  | .ctrl => if v.getLsbD 0 then resetMachine s else s
  | .status => if v.getLsbD 5 then { s with drop := false } else s
  | .cmd => submitCommand v s
  | .irqEn => { s with irqEn := v &&& irqEnMask }
  | .irqStatus => { s with irqStatus := s.irqStatus &&& ~~~(v &&& ~~~arriving) }
  | .shapeSrc => { s with shape := { s.shape with shapeSrc := v } }
  | .shapeC => { s with shape := { s.shape with shapeC := v &&& shapeCMask } }
  | .kernel => { s with shape := { s.shape with kernelReg := v } }
  | .dil => { s with shape := { s.shape with dil := v &&& dilMask } }
  | .pad => { s with shape := { s.shape with pad := v } }
  | .mode => { s with shape := { s.shape with mode := v &&& modeMask } }
  | .wgtBase => { s with shape := { s.shape with wgtBase := v } }
  | .biasBase => { s with shape := { s.shape with biasBase := v } }
  | .scaleBase => { s with shape := { s.shape with scaleBase := v } }
  | .srcBase => { s with callRegs := { s.callRegs with srcBase := v } }
  | .dstBase => { s with callRegs := { s.callRegs with dstBase := v } }
  | .srcZp => { s with callRegs := { s.callRegs with srcZp := v } }
  | .dstZp => { s with callRegs := { s.callRegs with dstZp := v } }
  | .rows => { s with callRegs := { s.callRegs with rows := v } }
  | .id => s
  | .version => s
  | .params0 => s
  | .params1 => s
  | .errinfo => s
  | .dstShape => s
  | .layout => s
  | .bufw => s

/-- One access to the window (R21): unanswered while `rst` is asserted (R162), a slave error with no effect when it is
not an aligned 32-bit access, else the register's read or write; a reserved offset reads 0 and ignores writes. -/
def portAccess (a : PortAccess) (arriving : Word) (s : State) : State :=
  if s.rst then { s with resp := .unanswered }
  else if !accessLegal a.offset a.bytes then { s with resp := .slaveError }
  else
    match a.op, regAt a.offset with
    | .read, some r => { s with resp := .data (readReg s r) }
    | .read, none => { s with resp := .data 0 }
    | .write v, some r => { writeReg s v arriving r with resp := .written }
    | .write _, none => { s with resp := .written }

/-! ### The other events around the engine -/

/-- A direct host write of a data byte (R57). During a command it is recorded: it races with the engine (R75). -/
def hostStore (a : Nat) (v : Byte) (s : State) : State :=
  { s with
    mem := s.mem.write a v
    races := if s.busy then s.races ++ [⟨a, s.mem.read a, v⟩] else s.races }

/-- The value the running command writes to a byte, when it writes it. -/
def State.pendingByte (s : State) (a : Nat) : Option Byte :=
  match s.runningPlan with
  | some P => if P.first ≤ a then P.values[a - P.first]? else none
  | none => none

/-- A direct host read of a data byte (R57). A destination byte of the running command returns its value before the
command or the value the command writes, drawn per read (R75; log 16). -/
def hostLoad (a : Nat) (s : State) : State :=
  match s.pendingByte a with
  | none => { s with resp := .byte (s.mem.read a) }
  | some v =>
    let new := Config.racedSeen s.draws s.peeks
    { s with
      resp := .byte (if new then v else s.acceptedByte a)
      shown := if new then (a, v) :: s.shown else s.shown
      peeks := s.peeks + 1 }

/-- The platform drives `rst` (R162): the machine is in the reset state when it is released. That it is so from the
assertion on, and that driving the level `rst` already has changes nothing, is the model's choice (log 18). -/
def driveReset (asserted : Bool) (s : State) : State :=
  if asserted = s.rst then s else { resetMachine s with rst := asserted }

end Sys2Proof.Machine
end

