-- ==== Sys2Proof/Machine/Engine.lean ====
section
/-!
DEFINITION. The engine's turn and the events around it (spec 20_memory.md R57, 60_exceptions.md R145 to R152,
70_reset_and_hazards.md R162; log 2, log 3, log 4).
-/

namespace Sys2Proof.Machine

/-- The command the engine runs: the held command word, decoded (R46, R84). -/
def State.fetched (s : State) : Option (Except Reject Instr) := s.held.map decode

/-- The engine's turn: it executes the command it holds. Idle, or held in reset, it does nothing (R159, R162). -/
def engineTurn (s : State) : Host.Outcome State Fault Refusal :=
  if s.rst then .next s
  else
    match s.held with
    | none => .next s
    | some w =>
      match decode w with
      | .ok i => exec i s
      | .error _ => .next (raiseError .cmdIllegal w s)

/-- The IRQ_STATUS bit a completion has just set: the engine no longer holds a command, and ERR tells which of the two
it was (R147, R148). -/
def arrivingEvent (s : State) : Word :=
  if s.busy then 0 else if s.err then irqErr else irqDone

/-- A host access in the cycle of the engine's completion: the completion is ordered first, and its event wins over a
clearing write (R151; log 19). Without a running command it is an access like any other. -/
def accessAfterCompletion (a : PortAccess) (s : State) : Host.Outcome State Fault Refusal :=
  if s.busy && !s.rst then
    match engineTurn s with
    | .next t => .next (portAccess a (arrivingEvent t) t)
    | .fault r => .fault r
    | .refused r => .refused r
  else .next (portAccess a 0 s)

/-- One event, already taken from the list. A direct access to a data address that does not exist faults (log 17). -/
def handleEvent (e : Event) (s : State) : Host.Outcome State Fault Refusal :=
  match e with
  | .engine => engineTurn s
  | .access a => .next (portAccess a 0 s)
  | .accessAtCompletion a => accessAfterCompletion a s
  | .memRead a => if a < 2 ^ s.params.addrW then .next (hostLoad a s) else .fault (.outsideDataSpace a)
  | .memWrite a v => if a < 2 ^ s.params.addrW then .next (hostStore a v s) else .fault (.outsideDataSpace a)
  | .portAnswers l => .next { s with port := l }
  | .rst b => .next (driveReset b s)

/-- One step: the oldest event when one is pending, else the engine's turn. -/
def stepEvent (s : State) : Host.Outcome State Fault Refusal :=
  match s.events with
  | [] => engineTurn s
  | e :: rest => handleEvent e { s with events := rest }

/-- The state in which the engine holds the table's word as an accepted command and has the turn (log 2). -/
def holdWord (nbits w : Nat) (s : State) : State :=
  latchCommand (tableWord nbits w) { s with events := [], rst := false }

end Sys2Proof.Machine
end

