-- ==== Sys2Proof/Machine/Step.lean ====
section
/-! DEFINITION. One step of the machine, and the state whose next step runs a given command word. -/

namespace Sys2Proof.Machine

/-- One step of the machine: `stepEvent`. -/
def step (s : State) : Host.Outcome State Fault Refusal := stepEvent s

/-- `s` with the instruction held by the engine as an accepted command, where the next step fetches it (R46; log 2). -/
def State.withFetchWord (s : State) (nbits w : Nat) : State := holdWord nbits w s

end Sys2Proof.Machine
end

