-- ==== Sys2Proof/Machine/Datapath.lean ====
section
/-!
DEFINITION. The vector datapath: channel groups, lanes, tiles over the accumulator file and the variants' schedules
(spec 43_datapath.md R129 to R137, 42_convolution.md R123 to R128). COMPUTE and RUN are defined by the reference
rules R111 and R113 (Convolution.lean), as R128 asks: nothing a host can observe depends on this file's order. What
it computes is stated equal to what they write (log 25).
-/

namespace Sys2Proof.Machine

/-! ### Channel groups (R129) -/

/-- G, the number of channel groups (R16, R129). -/
def Kernel.groupCount (K : Kernel) (w : Nat) : Nat := K.cpad / w

/-- The channel of lane i of group g. -/
def laneChannel (w g i : Nat) : Nat := g * w + i

/-- The tail mask M_i of group g (R134): the lane is valid. -/
def Kernel.laneValid (K : Kernel) (w g i : Nat) : Bool := decide (laneChannel w g i < K.c)

/-- One value per lane of a group. -/
def lanes (w : Nat) (f : Nat → Word) : List Word := (List.range w).map f

/-! ### Loads (R130, R131, R134) -/

/-- Widen-load of one group for V0: a valid lane reads the source value, an invalid lane gets the zero point and
causes no read. -/
def widenLoad (K : Kernel) (w : Nat) (zp : Byte) (src : Source) (dy dx ky kx g : Nat) : List Word :=
  lanes w fun i =>
    let c := laneChannel w g i
    widenSource
      (if K.laneValid w g i then
        src (K.tapRead (K.outIndex dy dx c) ky kx) (dy * K.sy + ky * K.dily) (dx * K.sx + kx * K.dilx) c
      else zp)

/-- Load of one group from the ring: all lanes (R134). -/
def ringLoad (K : Kernel) (w : Nat) (ring : List Slot) (py px g : Nat) : List Word :=
  lanes w fun i => K.ringLane w ring py px (laneChannel w g i)

/-- Load of one group of weight row r, column kx from the repacked store: all lanes; V0's entries are sign-extended
as they are loaded (R130, R134). -/
def weightLoad (K : Kernel) (w r kx g : Nat) : List Word :=
  lanes w fun i =>
    let e := K.store.getD (K.storeIndex w r kx (laneChannel w g i)) 0
    match K.var with
    | .v0 => widenWeight (e.extractLsb' 0 8)
    | _ => e

/-! ### Tiles (R136) -/

/-- Output pixels and channel groups computed together: every pixel with every group. -/
structure Tile where
  pixels : List (Nat × Nat)
  groups : List Nat
deriving DecidableEq, Repr

/-- The (pixel, group) pairs of a tile. Pair number k uses accumulator k. -/
def Tile.pairs (t : Tile) : List ((Nat × Nat) × Nat) := t.pixels.flatMap fun p => t.groups.map fun g => (p, g)

/-- The steps of a tile's loop: the kernel taps, or the kernel-row pairs for V2 (R136). -/
def Kernel.tileSteps (K : Kernel) : List (Nat × Nat) :=
  match K.var with
  | .v2 => taps K.npair K.kx
  | _ => taps K.ky K.kx

/-- The source vector of a pixel and group at a step (R125 to R127). -/
def stepSource (s : State) (K : Kernel) (I : CallRegs) (ring : List Slot) (p : (Nat × Nat) × Nat) (t : Nat × Nat) :
    List Word :=
  let dy := p.1.1
  let dx := p.1.2
  match K.var with
  | .v0 => widenLoad K s.params.w I.srcZpByte (s.source K I) dy dx t.1 t.2 p.2
  | .v1 => ringLoad K s.params.w ring (dy * K.sy + t.1 * K.dily) (dx * K.sx + t.2 * K.dilx) p.2
  | .v2 => ringLoad K s.params.w ring (dy * K.sy + 2 * t.1 * K.dily) (dx * K.sx + t.2 * K.dilx) p.2

/-- One accumulator after a step: MAC in every lane, or PMADD for V2 (R132, R133). -/
def laneStep (K : Kernel) (acc a b : List Word) : List Word :=
  (acc.zip (a.zip b)).map fun x =>
    match K.var with
    | .v2 => pmac x.1 x.2.1 x.2.2
    | _ => mac x.1 x.2.1 x.2.2

/-- The accumulator file with each accumulator a tile uses set to 0 in every lane; the others keep what they hold. -/
def zeroAccs (w n : Nat) (file : List (List Word)) : List (List Word) :=
  file.mapIdx fun k v => if k < n then List.replicate w 0 else v

/-- The accumulator file after one step of a tile. -/
def stepAccs (s : State) (K : Kernel) (I : CallRegs) (ring : List Slot) (ps : List ((Nat × Nat) × Nat))
    (file : List (List Word)) (t : Nat × Nat) : List (List Word) :=
  file.mapIdx fun k v =>
    match ps[k]? with
    | some p => laneStep K v (stepSource s K I ring p t) (weightLoad K s.params.w t.1 t.2 p.2)
    | none => v

/-- The pack of one accumulator: REQ on each valid lane, with the output's linear index (R134, R135, R137). -/
def packPair (s : State) (K : Kernel) (I : CallRegs) (p : (Nat × Nat) × Nat) (v : List Word) : List (Nat × Byte) :=
  (List.range s.params.w).filterMap fun i =>
    let c := laneChannel s.params.w p.2 i
    if K.laneValid s.params.w p.2 i then
      some (K.outIndex p.1.1 p.1.2 c, s.outByte K I (fun _ _ _ => v.getD i 0) p.1.1 p.1.2 c)
    else none

/-- One tile over the accumulator file: zero, accumulate, pack (R136). The result is the file it leaves and the bytes
it stores. -/
def runTile (s : State) (K : Kernel) (I : CallRegs) (ring : List Slot) (file : List (List Word)) (t : Tile) :
    List (List Word) × List (Nat × Byte) :=
  let ps := t.pairs
  let done := K.tileSteps.foldl (stepAccs s K I ring ps) (zeroAccs s.params.w ps.length file)
  (done, (ps.zipIdx.map fun x => packPair s K I x.1 (done.getD x.2 [])).flatten)

/-- Tiles one after another over the same accumulator file. -/
def runTiles (s : State) (K : Kernel) (I : CallRegs) (ring : List Slot) :
    List Tile → List (List Word) → List (List Word) × List (Nat × Byte)
  | [], file => (file, [])
  | t :: ts, file =>
    let r := runTile s K I ring file t
    let q := runTiles s K I ring ts r.1
    (q.1, r.2 ++ q.2)

/-! ### Schedules (R123 to R127) -/

/-- [lo, lo + n) cut into runs of k, the last one shorter. -/
def blocks (k lo n : Nat) : List (List Nat) :=
  ((List.range (n / k)).map fun i => List.range' (lo + k * i) k)
    ++ (if n % k = 0 then [] else [List.range' (lo + k * (n / k)) (n % k)])

/-- The groups of a pixel in batches of 4, then 2, then 1 (R125). -/
def groupBatches (n : Nat) : List (List Nat) :=
  ((List.range (n / 4)).map fun i => List.range' (4 * i) 4)
    ++ (if n % 4 < 2 then [] else [List.range' (4 * (n / 4)) 2])
    ++ (if n % 2 = 0 then [] else [[n - 1]])

/-- Neighbours two by two, the last one alone. -/
def pairUp : List Nat → List (List Nat)
  | a :: b :: rest => [a, b] :: pairUp rest
  | [a] => [[a]]
  | [] => []

/-- Every pixel of the given rows and columns. -/
def pixelsOf (rows cols : List Nat) : List (Nat × Nat) := rows.flatMap fun dy => cols.map fun dx => (dy, dx)

/-- An interior pixel of the V0 fast path: its nine taps all read source elements (R124). -/
def Kernel.interior (K : Kernel) (dy dx : Nat) : Bool :=
  decide (K.pt ≤ dy * K.sy) && decide (dy * K.sy + 2 < K.pt + K.srcH)
    && decide (K.pl ≤ dx * K.sx) && decide (dx * K.sx + 2 < K.pl + K.srcW)

/-- One pixel on V0's generic path: its groups in batches of 4, 2, 1 (R125). -/
def directTiles (K : Kernel) (w dy dx : Nat) : List Tile :=
  (groupBatches (K.groupCount w)).map fun gs => ⟨[(dy, dx)], gs⟩

/-- One row on V0's fast path: edge pixels generic, interior pixels by Main2 in pairs and Main1 for a last one, a group
at a time (R125). -/
def directFastRow (K : Kernel) (w dy : Nat) : List Tile :=
  (((List.range K.dstW).filter fun dx => !K.interior dy dx).flatMap fun dx => directTiles K w dy dx)
    ++ ((pairUp ((List.range K.dstW).filter fun dx => K.interior dy dx)).flatMap fun dxs =>
      (List.range (K.groupCount w)).map fun g => ⟨dxs.map fun dx => (dy, dx), [g]⟩)

/-- AnyR0: two columns and two rows at a time, as many groups as the accumulators allow (R126, R127). -/
def anyR0 (K : Kernel) (w accN b e : Nat) : List Tile :=
  (blocks 2 b (e - b)).flatMap fun rows =>
    (blocks 2 0 K.dstW).flatMap fun cols =>
      (blocks (accN / (rows.length * cols.length)) 0 (K.groupCount w)).map fun gs => ⟨pixelsOf rows cols, gs⟩

/-- AnyR1: up to four adjacent columns of a row and one group (R126, R127). -/
def anyR1 (K : Kernel) (w b e : Nat) : List Tile :=
  (List.range' b (e - b)).flatMap fun dy =>
    (blocks 4 0 K.dstW).flatMap fun cols =>
      (List.range (K.groupCount w)).map fun g => ⟨pixelsOf [dy] cols, [g]⟩

/-- The rows a tile of the 3×3 path fuses: dy and dy + 1 for V1, dy and dy + 2 for V2, when SY = 1; else one row
(R126, R127). -/
def Kernel.fusedRows (K : Kernel) (b e : Nat) : List (List Nat) :=
  if K.sy = 1 then
    match K.var with
    | .v2 =>
      (blocks 4 b (e - b)).flatMap fun rows =>
        match rows with
        | [a, b, c, d] => [[a, c], [b, d]]
        | [a, b, c] => [[a, c], [b]]
        | _ => rows.map fun a => [a]
    | _ => blocks 2 b (e - b)
  else (List.range' b (e - b)).map fun dy => [dy]

/-- 3×3-R1: the fused rows of one column and one group (R126, R127). -/
def fastR1 (K : Kernel) (w b e : Nat) : List Tile :=
  (K.fusedRows b e).flatMap fun rows =>
    (List.range K.dstW).flatMap fun dx =>
      (List.range (K.groupCount w)).map fun g => ⟨pixelsOf rows [dx], [g]⟩

/-- The tiles of the output rows [b, e), by variant, reorder type and path (R96, R123 to R127). -/
def Kernel.schedule (K : Kernel) (p : Params) (b e : Nat) : List Tile :=
  match K.var, K.reord with
  | .v0, _ =>
    (List.range' b (e - b)).flatMap fun dy =>
      if K.fast then directFastRow K p.w dy
      else (List.range K.dstW).flatMap fun dx => directTiles K p.w dy dx
  | _, .rowMajor => anyR0 K p.w p.accN b e
  | _, .channelMajor => if K.fast then fastR1 K p.w b e else anyR1 K p.w b e

end Sys2Proof.Machine
end

