-- ==== Sys2Proof/Safety.lean ====
section
/-!
DEFINITION. What counts as a good state and a safe run, in the terms the statements use: the invariants of the machine
(spec 10_state.md R21, R28 to R31, R46 to R51, 40_control.md R92, R95) and the host duty of 20_memory.md R74.
-/

namespace Sys2Proof.Machine

/-- The status invariants (R28, R29, R31, R46): while BUSY, ERR = 0 and DONE = 0; DONE = 1 means ERR = 0; ERRCODE is 0
exactly when ERR = 0, and ERRINFO is 0 then. -/
abbrev State.statusOk (s : State) : Prop :=
  (s.busy = true → s.err = false ∧ s.done = false) ∧ (s.done = true → s.err = false)
    ∧ (s.errCode = .none ↔ s.err = false) ∧ (s.err = false → s.errInfo = 0)

/-- The bits marked res of the registers that hold them are 0 (R21, R32, R33, R35, R37, R39). -/
abbrev State.reservedZero (s : State) : Prop :=
  s.irqEn &&& ~~~irqEnMask = 0 ∧ s.irqStatus &&& ~~~irqEnMask = 0
    ∧ s.shape.shapeC &&& ~~~shapeCMask = 0 ∧ s.shape.dil &&& ~~~dilMask = 0
    ∧ s.shape.mode &&& ~~~modeMask = 0

/-- The values of K that R92 and R95 derive are the derived ones, and the stores have their sizes (R47, R52, R53). -/
abbrev Kernel.derivedOk (p : Params) (K : Kernel) : Prop :=
  (K.extY = (K.ky - 1) * K.dily + 1 ∧ K.extX = (K.kx - 1) * K.dilx + 1)
    ∧ (K.ph = K.srcH + K.pt + K.pb ∧ K.pw = K.srcW + K.pl + K.pr)
    ∧ (K.dstH = (K.ph - K.extY) / K.sy + 1 ∧ K.dstW = (K.pw - K.extX) / K.sx + 1)
    ∧ K.cpad = cpadOf p.w K.c ∧ K.bufH = bufHOf K.var K.extY K.sy
    ∧ K.fast = (K.ky == 3 && K.kx == 3 && K.dily == 1 && K.dilx == 1 && !K.fpdis
        && (K.var == .v0 || K.reord == .channelMajor))
    ∧ (K.wt.length = K.ky * K.kx * K.c ∧ K.bias.length = K.c ∧ K.scale.length = K.c)
    ∧ K.store = K.repacked p.w

/-- The limits INIT's checks leave K within (R91 to R93). -/
abbrev Kernel.withinLimits (p : Params) (K : Kernel) : Prop :=
  (0 < K.srcH ∧ K.srcH ≤ 65535) ∧ (0 < K.srcW ∧ K.srcW ≤ 65535) ∧ (0 < K.c ∧ K.c ≤ p.cMax)
    ∧ (0 < K.ky ∧ K.ky ≤ 255) ∧ (0 < K.kx ∧ K.kx ≤ 255) ∧ (0 < K.sy ∧ K.sy ≤ 255) ∧ (0 < K.sx ∧ K.sx ≤ 255)
    ∧ (0 < K.dily ∧ K.dily ≤ 255) ∧ (0 < K.dilx ∧ K.dilx ≤ 255)
    ∧ (K.pt ≤ 255 ∧ K.pl ≤ 255 ∧ K.pb ≤ 255 ∧ K.pr ≤ 255)
    ∧ K.extY ≤ K.ph ∧ K.extX ≤ K.pw ∧ K.dstH ≤ 65535 ∧ K.dstW ≤ 65535
    ∧ K.ky * K.kx * K.c ≤ p.wsMax ∧ (K.var = .v2 → 2 ≤ K.ky)
    ∧ (K.var ≠ .v0 → K.bufH * K.pw * K.cpad * 4 ≤ p.rbBytes)

/-- A kernel object that INIT can have built. -/
abbrev Kernel.wf (p : Params) (K : Kernel) : Prop := K.derivedOk p ∧ K.withinLimits p

/-- Every kernel object there is, is one that INIT can have built (R47). -/
abbrev State.kernelOk (s : State) : Prop := ∀ K, s.kernel = some K → K.wf s.params

/-- The ring's tags (R49 to R51): K's ring has BUFH slots; a slot's tag is INVALID or a padded row that belongs in that
slot; without a ring context every tag is INVALID. -/
abbrev State.ringOk (s : State) : Prop :=
  (∀ K, s.kernel = some K → s.ring.length = K.bufH
      ∧ ∀ i by_, tagAt s.ring i = some by_ → K.slotOf by_ = i)
    ∧ ((s.kernel = none ∨ s.rctx = none) → ∀ i, tagAt s.ring i = none)

/-- The invocation context exists only while a command is BUSY (R48). -/
abbrev State.contextOk (s : State) : Prop := s.busy = false → s.call = none ∧ s.latched = none

/-- Everything above, and the canonical form of the data space. -/
abbrev State.inv (s : State) : Prop :=
  s.mem.wf = true ∧ s.statusOk ∧ s.reservedZero ∧ s.kernelOk ∧ s.ringOk ∧ s.contextOk

/-! ### What a command may rely on -/

/-- The host has kept its duty on a region since the running command was accepted: it wrote no byte of it (R74). -/
abbrev State.quietOn (s : State) (base n : Nat) : Prop := ∀ r ∈ s.races, inRegion base n r.address = false

/-- The data port answers every access to a byte of a region with data (R150, R152). -/
abbrev State.answersOn (s : State) (isWrite : Bool) (base n : Nat) : Prop :=
  ∀ f ∈ s.port, f.isWrite = isWrite → inRegion base n f.address = false

/-- The source region of an invocation is quiet and readable. -/
abbrev State.sourceReady (s : State) (K : Kernel) (I : CallRegs) : Prop :=
  s.quietOn I.srcBase.toNat K.srcBytes ∧ s.answersOn false I.srcBase.toNat K.srcBytes

/-- The destination region of an invocation is quiet and writable. -/
abbrev State.destReady (s : State) (K : Kernel) (I : CallRegs) : Prop :=
  s.quietOn I.dstBase.toNat K.dstBytes ∧ s.answersOn true I.dstBase.toNat K.dstBytes

/-- The values S that INIT accepts (R91 to R93, R64, R65). -/
abbrev ShapeRegs.legal (p : Params) (S : ShapeRegs) : Prop :=
  (S.srcH ≠ 0 ∧ S.srcW ≠ 0) ∧ S.c ≠ 0 ∧ (S.ky ≠ 0 ∧ S.kx ≠ 0 ∧ S.sy ≠ 0 ∧ S.sx ≠ 0) ∧ (S.dily ≠ 0 ∧ S.dilx ≠ 0)
    ∧ S.srcT = 0 ∧ S.dstT = 0 ∧ S.reord ≤ 1 ∧ (S.var ≠ 3 ∧ (S.var = 2 → 2 ≤ S.ky))
    ∧ ((S.ky - 1) * S.dily + 1 ≤ S.srcH + S.pt + S.pb ∧ (S.kx - 1) * S.dilx + 1 ≤ S.srcW + S.pl + S.pr)
    ∧ (S.srcH + S.pt + S.pb - ((S.ky - 1) * S.dily + 1)) / S.sy + 1 ≤ 65535
    ∧ (S.srcW + S.pl + S.pr - ((S.kx - 1) * S.dilx + 1)) / S.sx + 1 ≤ 65535
    ∧ S.c ≤ p.cMax ∧ S.ky * S.kx * S.c ≤ p.wsMax
    ∧ (S.var = 0 ∨ bufHOf S.variant ((S.ky - 1) * S.dily + 1) S.sy * (S.srcW + S.pl + S.pr) * cpadOf p.w S.c * 4
        ≤ p.rbBytes)
    ∧ (S.biasBase.toNat % 4 = 0 ∧ S.scaleBase.toNat % 4 = 0)
    ∧ (S.wgtBase.toNat + S.ky * S.kx * S.c ≤ 2 ^ p.addrW ∧ S.biasBase.toNat + 4 * S.c ≤ 2 ^ p.addrW
        ∧ S.scaleBase.toNat + 4 * S.c ≤ 2 ^ p.addrW)

/-- An invocation context PREPROCESS accepts for K (R102). -/
abbrev CallRegs.fillLegal (p : Params) (K : Kernel) (I : CallRegs) : Prop :=
  I.srcZp.toNat ≤ 255 ∧ (I.dyBeg ≤ I.dyEnd ∧ I.dyEnd ≤ K.dstH) ∧ I.srcBase.toNat + K.srcH * K.srcW * K.c ≤ 2 ^ p.addrW

/-- An invocation context COMPUTE and RUN accept for K, but for the ring (R116, R117). -/
abbrev CallRegs.convLegal (p : Params) (K : Kernel) (I : CallRegs) : Prop :=
  I.fillLegal p K ∧ I.dstZp.toNat ≤ 255 ∧ I.dstBase.toNat + K.dstH * K.dstW * K.c ≤ 2 ^ p.addrW
    ∧ (I.dstBase.toNat + K.dstH * K.dstW * K.c ≤ I.srcBase.toNat
        ∨ I.srcBase.toNat + K.srcH * K.srcW * K.c ≤ I.dstBase.toNat)

/-- Every padded row of the window of an invocation is resident under its context (R118). -/
abbrev State.windowResident (s : State) (K : Kernel) (I : CallRegs) : Prop :=
  s.rctx = some ⟨I.srcBase, I.srcZp.setWidth 8⟩
    ∧ ∀ by_, I.dyBeg * K.sy ≤ by_ → by_ < (I.dyEnd - 1) * K.sy + K.extY → tagAt s.ring (K.slotOf by_) = some by_

/-- The checks of a command pass and it has data to move: INIT (R91 to R93), PREPROCESS (R102) with rows to fill, COMPUTE
and RUN (R116 to R118) with rows to compute. The other commands move none. -/
def State.ready (s : State) : Instr → Prop
  | .init => s.initOperands.legal s.params
  | .preprocess => ∃ K, s.kernel = some K ∧ K.wf s.params ∧ s.invocation.fillLegal s.params K
      ∧ s.invocation.dyBeg < s.invocation.dyEnd ∧ K.var ≠ .v0
  | .compute => ∃ K, s.kernel = some K ∧ K.wf s.params ∧ s.invocation.convLegal s.params K
      ∧ s.invocation.dyBeg < s.invocation.dyEnd ∧ (K.var ≠ .v0 → s.windowResident K s.invocation)
  | .run => ∃ K, s.kernel = some K ∧ K.wf s.params ∧ s.invocation.convLegal s.params K
      ∧ s.invocation.dyBeg < s.invocation.dyEnd
  | .nop => False
  | .inval => False
  | .clrerr => False

/-! ### The accesses of a command -/

/-- An output in the rows of an invocation depends on the source byte at an address (R60, R99, R111). -/
abbrev CallRegs.dependsOn (I : CallRegs) (K : Kernel) (a : Nat) : Prop :=
  ∃ dy dx ky kx sy sx c, I.dyBeg ≤ dy ∧ dy < I.dyEnd ∧ dx < K.dstW ∧ ky < K.ky ∧ kx < K.kx ∧ sy < K.srcH
    ∧ sx < K.srcW ∧ c < K.c ∧ dy * K.sy + ky * K.dily = sy + K.pt ∧ dx * K.sx + kx * K.dilx = sx + K.pl
    ∧ a = I.srcBase.toNat + (sy * K.srcW + sx) * K.c + c

/-- The destination bytes of the rows of an invocation (R66). -/
abbrev CallRegs.writesTo (I : CallRegs) (K : Kernel) (a : Nat) : Prop :=
  I.dstBase.toNat + I.dyBeg * K.dstW * K.c ≤ a ∧ a < I.dstBase.toNat + I.dyEnd * K.dstW * K.c

/-- The bytes of INIT's tensors (R94). -/
abbrev ShapeRegs.tensorByte (S : ShapeRegs) (a : Nat) : Prop :=
  inRegion S.wgtBase.toNat (S.ky * S.kx * S.c) a = true ∨ inRegion S.biasBase.toNat (4 * S.c) a = true
    ∨ inRegion S.scaleBase.toNat (4 * S.c) a = true

/-- A command that is ready surely makes an access of the port's kind to the byte of `f` (R66, R67): a byte of INIT's
tensors, a source byte an output depends on where the command reads the source, a destination byte of its rows. -/
def State.surelyAccesses (s : State) (i : Instr) (f : PortFault) : Prop :=
  match i with
  | .init => f.isWrite = false ∧ s.initOperands.tensorByte f.address
  | .preprocess => ∃ K, s.kernel = some K ∧ f.isWrite = false ∧ s.invocation.dependsOn K f.address
  | .compute => ∃ K, s.kernel = some K
      ∧ ((f.isWrite = true ∧ s.invocation.writesTo K f.address)
        ∨ (f.isWrite = false ∧ K.var = .v0 ∧ s.invocation.dependsOn K f.address))
  | .run => ∃ K, s.kernel = some K
      ∧ ((f.isWrite = true ∧ s.invocation.writesTo K f.address)
        ∨ (f.isWrite = false ∧ s.invocation.dependsOn K f.address))
  | .nop => False
  | .inval => False
  | .clrerr => False

/-- The accesses R66 leaves PREPROCESS, COMPUTE and RUN: reads of the source region, but for COMPUTE from the ring, and
writes of the destination bytes of the rows, but for PREPROCESS. -/
abbrev State.mayAccess (s : State) (i : Instr) (K : Kernel) (f : PortFault) : Prop :=
  (f.isWrite = true ∧ i ≠ .preprocess ∧ s.invocation.writesTo K f.address)
    ∨ (f.isWrite = false ∧ ¬ (i = .compute ∧ K.var ≠ .v0)
      ∧ inRegion s.invocation.srcBase.toNat K.srcBytes f.address = true)

/-- The accesses a command makes or may make, and so may wait for (R66, R67): reads of INIT's tensors; those of
PREPROCESS on V1 and V2, and of COMPUTE and RUN, with a non-empty row range. The other commands make none. -/
def State.waitsFor (s : State) (i : Instr) (f : PortFault) : Prop :=
  match i with
  | .init => f.isWrite = false ∧ s.initOperands.tensorByte f.address
  | .preprocess => ∃ K, s.kernel = some K ∧ K.var ≠ .v0 ∧ s.invocation.dyBeg < s.invocation.dyEnd
      ∧ s.mayAccess .preprocess K f
  | .compute => ∃ K, s.kernel = some K ∧ s.invocation.dyBeg < s.invocation.dyEnd ∧ s.mayAccess .compute K f
  | .run => ∃ K, s.kernel = some K ∧ s.invocation.dyBeg < s.invocation.dyEnd ∧ s.mayAccess .run K f
  | .nop => False
  | .inval => False
  | .clrerr => False

/-! ### The checks, row by row

The conditions that make a command fail, in the words of the rules, in check order, each with its error and ERRINFO. -/

/-- INIT's: the rows of R91, R92's two, the rows of R93, R64's two and R65's three. -/
def ShapeRegs.failures (p : Params) (S : ShapeRegs) : List Check :=
  [ (S.srcH = 0 ∨ S.srcW = 0, .cfgShape, 0x28),
    (S.c = 0, .cfgShape, 0x2C),
    (S.ky = 0 ∨ S.kx = 0 ∨ S.sy = 0 ∨ S.sx = 0, .cfgShape, 0x30),
    (S.dily = 0 ∨ S.dilx = 0, .cfgShape, 0x34),
    (S.srcT ≠ 0, .cfgSrcType, 0x3C),
    (S.dstT ≠ 0, .cfgDstType, 0x3C),
    (1 < S.reord, .cfgReorder, 0x3C),
    (S.var = 3 ∨ (S.var = 2 ∧ S.ky < 2), .cfgVariant, 0x3C),
    (S.srcH + S.pt + S.pb < (S.ky - 1) * S.dily + 1 ∨ S.srcW + S.pl + S.pr < (S.kx - 1) * S.dilx + 1,
      .cfgShape, 0x60),
    (65535 < (S.srcH + S.pt + S.pb - ((S.ky - 1) * S.dily + 1)) / S.sy + 1
      ∨ 65535 < (S.srcW + S.pl + S.pr - ((S.kx - 1) * S.dilx + 1)) / S.sx + 1, .cfgShape, 0x60),
    (p.cMax < S.c, .cfgCapacity, 1),
    (p.wsMax < S.ky * S.kx * S.c, .cfgCapacity, 2),
    (S.var ≠ 0 ∧ p.rbBytes
      < bufHOf S.variant ((S.ky - 1) * S.dily + 1) S.sy * (S.srcW + S.pl + S.pr) * cpadOf p.w S.c * 4,
      .cfgCapacity, 3),
    (S.biasBase.toNat % 4 ≠ 0, .align, 0x44),
    (S.scaleBase.toNat % 4 ≠ 0, .align, 0x48),
    (S.ky * S.kx * S.c ≠ 0 ∧ 2 ^ p.addrW < S.wgtBase.toNat + S.ky * S.kx * S.c, .addr, 0x40),
    (4 * S.c ≠ 0 ∧ 2 ^ p.addrW < S.biasBase.toNat + 4 * S.c, .addr, 0x44),
    (4 * S.c ≠ 0 ∧ 2 ^ p.addrW < S.scaleBase.toNat + 4 * S.c, .addr, 0x48) ]

/-- PREPROCESS's: rows 2 to 4 of R102. -/
def CallRegs.fillFailures (p : Params) (K : Kernel) (I : CallRegs) : List Check :=
  [ (255 < I.srcZp.toNat, .zp, 0x54),
    (¬ (I.dyBeg ≤ I.dyEnd ∧ I.dyEnd ≤ K.dstH), .range, I.rows),
    (K.srcH * K.srcW * K.c ≠ 0 ∧ 2 ^ p.addrW < I.srcBase.toNat + K.srcH * K.srcW * K.c, .addr, 0x4C) ]

/-- COMPUTE's and RUN's: rows 2 to 7 of R116, with R117's condition in row 7. -/
def CallRegs.convFailures (p : Params) (K : Kernel) (I : CallRegs) : List Check :=
  [ (255 < I.srcZp.toNat, .zp, 0x54),
    (255 < I.dstZp.toNat, .zp, 0x58),
    (¬ (I.dyBeg ≤ I.dyEnd ∧ I.dyEnd ≤ K.dstH), .range, I.rows),
    (K.srcH * K.srcW * K.c ≠ 0 ∧ 2 ^ p.addrW < I.srcBase.toNat + K.srcH * K.srcW * K.c, .addr, 0x4C),
    (K.dstH * K.dstW * K.c ≠ 0 ∧ 2 ^ p.addrW < I.dstBase.toNat + K.dstH * K.dstW * K.c, .addr, 0x50),
    (I.srcBase.toNat < I.dstBase.toNat + K.dstH * K.dstW * K.c
      ∧ I.dstBase.toNat < I.srcBase.toNat + K.srcH * K.srcW * K.c, .overlap, 0x50) ]

/-! ### The reference -/

/-- SrcVal over the data space as it stands (R99). -/
def plainSource (m : Memory) (K : Kernel) (I : CallRegs) : Source := fun _ py px c => srcVal K I m.read py px c

/-- RefOut(dy, dx, c) over the data space as it stands (R111). -/
def State.refOut (s : State) (K : Kernel) (I : CallRegs) (dy dx c : Nat) : Byte :=
  requant s.params.req s.draws (K.outIndex dy dx c) (K.refSum (plainSource s.mem K I) dy dx c) (K.biasAt c)
    (K.scaleAt c) I.dstZpByte

/-- The address of destination element (dy, dx, c) (R61). -/
def CallRegs.dstAddr (I : CallRegs) (K : Kernel) (dy dx c : Nat) : Nat := I.dstBase.toNat + ((dy * K.dstW + dx) * K.c + c)

/-- The byte COMPUTE or RUN writes to destination element (dy, dx, c): COMPUTE on V1 and V2 from the ring (R113), and
else RefOut (R111, R120). -/
def State.newByte (s : State) (i : Instr) (K : Kernel) (I : CallRegs) (dy dx c : Nat) : Byte :=
  if i = .compute ∧ K.var ≠ .v0 then
    requant s.params.req s.draws (K.outIndex dy dx c) (K.ringSum s.params.w s.ring dy dx c) (K.biasAt c) (K.scaleAt c)
      I.dstZpByte
  else s.refOut K I dy dx c

/-- The slot of padded row `by` holds it as the data space gives it: its tag, and in every lane with c < C the widened
value (R105), or V2's pair (R106). -/
abbrev holdsRow (w : Nat) (m : Memory) (K : Kernel) (I : CallRegs) (ring : List Slot) (by_ : Nat) : Prop :=
  tagAt ring (K.slotOf by_) = some by_ ∧ ∀ px < K.pw, ∀ c < K.c,
    K.ringLane w ring by_ px c =
      if K.var = .v2 then
        (srcVal K I m.read (by_ + K.dily) px c).setWidth 16 ++ (srcVal K I m.read by_ px c).setWidth 16
      else (srcVal K I m.read by_ px c).setWidth 32

/-! ### Rounding -/

/-- `r` is the integer nearest to v / 2^k, the even one of two that are equally near (R141). -/
abbrev roundsTo (v : Int) (k : Nat) (r : Int) : Prop :=
  (2 * (v - r * 2 ^ k)).natAbs ≤ 2 ^ k ∧ ((2 * (v - r * 2 ^ k)).natAbs = 2 ^ k → r % 2 = 0)

/-- m * 2^e is `v` rounded to the 24 significant bits of binary32, to nearest, ties to even (R141). -/
abbrev roundsToFp (v : Int) (e : Nat) (m : Int) : Prop :=
  (v.natAbs < 2 ^ (24 + e) ∧ (e = 0 ∨ 2 ^ (23 + e) ≤ v.natAbs)) ∧ roundsTo v e m

/-- The biased exponent of a binary32 bit pattern. -/
def fpExponent (x : Word) : Nat := x.toNat / 2 ^ 23 % 2 ^ 8

/-- The signed significand of a normal binary32 number, whose value is `fpSignificand x * 2 ^ (fpExponent x - 150)`. -/
def fpSignificand (x : Word) : Int := (if x.toInt < 0 then -1 else 1) * (2 ^ 23 + x.toNat % 2 ^ 23 : Nat)

/-! ### Frames and outcomes -/

/-- What no command changes: the instance, DROP, LASTCMD, the host's registers (R56), and what is outside the block. -/
abbrev State.sameAround (s t : State) : Prop :=
  (t.params = s.params ∧ t.drop = s.drop ∧ t.lastCmd = s.lastCmd ∧ t.irqEn = s.irqEn ∧ t.shape = s.shape
    ∧ t.callRegs = s.callRegs)
    ∧ (t.rst = s.rst ∧ t.port = s.port ∧ t.events = s.events ∧ t.resp = s.resp)

/-- Successful completion (R147): BUSY 0, DONE 1, DONE_IS 1; the error fields are as they were. -/
abbrev State.succeedsTo (s t : State) : Prop :=
  (t.held = none ∧ t.done = true ∧ t.irqStatus = s.irqStatus ||| 1)
    ∧ (t.err = s.err ∧ t.errCode = s.errCode ∧ t.errInfo = s.errInfo)
    ∧ (t.call = none ∧ t.latched = none) ∧ s.sameAround t

/-- Error completion (R148): BUSY 0, DONE as it was, ERR 1 with its code and detail, ERR_IS 1, the ring empty. -/
abbrev State.failsTo (s t : State) (code : ErrorCode) (info : Word) : Prop :=
  (t.held = none ∧ t.done = s.done ∧ t.irqStatus = s.irqStatus ||| 2)
    ∧ (t.err = true ∧ t.errCode = code ∧ t.errInfo = info)
    ∧ (t.rctx = none ∧ ∀ i, tagAt t.ring i = none)
    ∧ (t.call = none ∧ t.latched = none) ∧ s.sameAround t

/-- A command that waits for the data port: BUSY as it was, no completion, and (log 15) no data byte changed. -/
abbrev State.waitsAs (s t : State) : Prop :=
  (t.held = s.held ∧ t.done = s.done ∧ t.err = s.err ∧ t.errCode = s.errCode ∧ t.errInfo = s.errInfo
    ∧ t.irqStatus = s.irqStatus) ∧ t.mem = s.mem ∧ s.sameAround t

/-- `k` steps without a fault or a refusal. -/
def runsSafely : Nat → State → Bool
  | 0, _ => true
  | k + 1, s =>
    match step s with
    | .next t => runsSafely k t
    | .fault _ => false
    | .refused _ => false

end Sys2Proof.Machine
end

