-- ==== Sys2Proof/Certificates/Slice0/Obligations.lean ====
section
/-!
DEFINITION. The statements about DWMAC. Each docstring names the rule of the spec it formalises, or says that it is
derived; OBLIGATIONS.json lists them.
-/

open Sys2Proof Sys2Proof.Machine

/-! ### Encoding -/

/-- R83: a command word is legal exactly when RSV = 0 and OP is one of the seven opcodes, and each opcode names its
command. -/
def Obligations.LegalWordsAreTheSevenOpcodes : Prop :=
  (∀ w : Word, (∃ i, decode w = .ok i) ↔ (w.toNat / 2 ^ 8 = 0 ∧ w.toNat % 2 ^ 8 ≤ 6))
    ∧ decode 0x00000000 = .ok .nop ∧ decode 0x00000001 = .ok .init ∧ decode 0x00000002 = .ok .preprocess
    ∧ decode 0x00000003 = .ok .compute ∧ decode 0x00000004 = .ok .run ∧ decode 0x00000005 = .ok .inval
    ∧ decode 0x00000006 = .ok .clrerr

/-- Derived from R81 and R83: decoding an encoded instruction gives it back, and a word that decodes is the encoding of
what it decodes to. -/
def Obligations.DecodeAndEncodeAgree : Prop :=
  (∀ i : Instr, decode (encode i) = .ok i) ∧ ∀ (w : Word) (i : Instr), decode w = .ok i → w = encode i

/-- Derived from R83 and R59: some words of the table, as the host numbers their bits and as bytes. -/
def Obligations.TableWordsDecode : Prop :=
  decodeTableWord 32 0 = some .nop ∧ decodeTableWord 32 3 = some .compute ∧ decodeTableWord 32 6 = some .clrerr
    ∧ decodeTableWord 32 7 = none ∧ decodeTableWord 32 0x100 = none
    ∧ decodeBytes [0x04, 0x00, 0x00, 0x00] = .ok .run ∧ decodeBytes [0x00, 0x00, 0x00, 0x04] = .error .reservedBits

/-! ### A step runs the held command -/

/-- Derived from R46, R72 and R159: when the engine has the turn and holds a legal word, a step is exec of what the
word decodes to; without a command the engine's turn changes nothing. The order of the agents is the model's choice
(log 3). -/
def Obligations.StepRunsTheHeldCommand : Prop :=
  (∀ (s : State) (w : Word) (i : Instr), s.rst = false → s.held = some w → decode w = .ok i →
    (s.events = [] → step s = exec i s)
      ∧ ∀ rest, s.events = .engine :: rest → step s = exec i { s with events := rest })
  ∧ ∀ s : State, s.held = none → s.events = [] → step s = .next s

/-- Derived from R83: the word of each row, held by the engine, is what the next step runs (log 2). -/
def Obligations.FetchWordRunsTheInstruction : Prop :=
  ∀ (s : State) (i : Instr),
    step (s.withFetchWord 32 (encode i).toNat) = exec i (s.withFetchWord 32 (encode i).toNat)

/-- Derived from R152: every accepted command completes, provided that the data port answers every access with data or a bus
error. -/
def Obligations.EveryCommandCompletes : Prop :=
  ∀ (s : State) (i : Instr), (∀ f ∈ s.port, f.silent = false) →
    ∃ t, exec i s = .next t ∧ t.held = none ∧ (t.done = true ∨ t.err = true)

/-- Derived from R152: a command whose checks pass, and one of whose accesses is never answered while none gets a bus
error, stays BUSY with no completion; and a command that waits makes or may make (R66, R67) an access that the port never
answers. That no data byte has changed while it waits is the model's choice (log 15). -/
def Obligations.WaitingCommandStaysBusy : Prop :=
  (∀ (s : State) (i : Instr) (f : PortFault), s.ready i → (∀ g ∈ s.port, g.silent = true) → f ∈ s.port →
    s.surelyAccesses i f → ∃ t, exec i s = .next t ∧ s.waitsAs t)
  ∧ ∀ (s : State) (i : Instr), ∃ t, exec i s = .next t
    ∧ (t.held = none ∨ (s.waitsAs t ∧ ∃ f ∈ s.port, f.silent = true ∧ s.waitsFor i f))

/-! ### The control commands -/

/-- Derived from R89 and R147: NOP completes, whatever the state, and changes nothing else. -/
def Obligations.NopCompletes : Prop :=
  ∀ s : State, ∃ t, exec .nop s = .next t ∧ s.succeedsTo t
    ∧ t.kernel = s.kernel ∧ t.ring = s.ring ∧ t.rctx = s.rctx ∧ t.acc = s.acc ∧ t.mem = s.mem

/-- Derived from R97 and R147: INVAL completes with every slot tag INVALID and RCTX NONE, and changes nothing else. -/
def Obligations.InvalEmptiesTheRing : Prop :=
  ∀ s : State, ∃ t, exec .inval s = .next t ∧ s.succeedsTo t
    ∧ t.rctx = none ∧ (∀ i, tagAt t.ring i = none) ∧ t.ring.length = s.ring.length
    ∧ t.kernel = s.kernel ∧ t.acc = s.acc ∧ t.mem = s.mem

/-- Derived from R98 and R147: CLRERR completes with ERR, ERRCODE and ERRINFO 0 and ERR_IS as it was, and changes
nothing else. -/
def Obligations.ClrerrClearsTheError : Prop :=
  ∀ s : State, ∃ t, exec .clrerr s = .next t
    ∧ (t.held = none ∧ t.done = true ∧ t.irqStatus = s.irqStatus ||| 1 ∧ t.call = none ∧ t.latched = none)
    ∧ (t.err = false ∧ t.errCode = .none ∧ t.errInfo = 0) ∧ s.sameAround t
    ∧ t.kernel = s.kernel ∧ t.ring = s.ring ∧ t.rctx = s.rctx ∧ t.acc = s.acc ∧ t.mem = s.mem

/-- Derived from R98, R145 and R149: a host that writes CLRERR in the ERROR condition and then lets the engine have the
turn finds the error gone, DONE_IS set and ERR_IS not cleared, KVALID and DROP as they were. -/
def Obligations.ClrerrLeavesTheErrorCondition : Prop :=
  ∀ s : State, s.rst = false → s.held = none → s.err = true →
    s.events = [.access ⟨0x18, 4, .write 0x00000006⟩] →
    ∃ t u, step s = .next t ∧ step t = .next u
      ∧ (t.statusWord.getLsbD 0 = true ∧ t.err = false ∧ t.errCode = .none ∧ t.errInfo = 0)
      ∧ (u.statusWord.getLsbD 0 = false ∧ u.done = true ∧ u.err = false ∧ u.errCode = .none ∧ u.errInfo = 0
        ∧ u.lastCmd = 0x06 ∧ u.drop = s.drop)
      ∧ u.irqStatus = s.irqStatus ||| 1 ∧ u.kernel = s.kernel ∧ u.mem = s.mem

/-- Derived from R90, R92, R94 and R147: for operands R91 to R93, R64 and R65 accept, with the three tensors readable
and undisturbed, INIT completes. K has the latched shape and mode, the values of R92, and the tensors' values; the ring
is K's, empty; nothing else changes. -/
def Obligations.InitBuildsTheKernelObject : Prop :=
  ∀ (s : State) (S : ShapeRegs), s.initOperands = S → S.legal s.params →
    s.quietOn S.wgtBase.toNat (S.ky * S.kx * S.c) → s.answersOn false S.wgtBase.toNat (S.ky * S.kx * S.c) →
    s.quietOn S.biasBase.toNat (4 * S.c) → s.answersOn false S.biasBase.toNat (4 * S.c) →
    s.quietOn S.scaleBase.toNat (4 * S.c) → s.answersOn false S.scaleBase.toNat (4 * S.c) →
    ∃ t K, exec .init s = .next t ∧ s.succeedsTo t ∧ t.kernel = some K
      ∧ (K.srcH = S.srcH ∧ K.srcW = S.srcW ∧ K.c = S.c ∧ K.ky = S.ky ∧ K.kx = S.kx ∧ K.sy = S.sy ∧ K.sx = S.sx
        ∧ K.dily = S.dily ∧ K.dilx = S.dilx ∧ K.pt = S.pt ∧ K.pl = S.pl ∧ K.pb = S.pb ∧ K.pr = S.pr)
      ∧ (K.var.bits.toNat = S.var ∧ K.reord.bits.toNat = S.reord ∧ K.fpdis = S.fpdis)
      ∧ K.derivedOk s.params
      ∧ (∀ ky kx c, ky < K.ky → kx < K.kx → c < K.c →
          K.weight ky kx c = s.mem.read (S.wgtBase.toNat + (ky * K.kx + kx) * K.c + c))
      ∧ (∀ c, c < K.c → K.biasAt c
          = wordOfBytes (s.mem.read (S.biasBase.toNat + 4 * c)) (s.mem.read (S.biasBase.toNat + 4 * c + 1))
              (s.mem.read (S.biasBase.toNat + 4 * c + 2)) (s.mem.read (S.biasBase.toNat + 4 * c + 3)))
      ∧ (∀ c, c < K.c → K.scaleAt c
          = wordOfBytes (s.mem.read (S.scaleBase.toNat + 4 * c)) (s.mem.read (S.scaleBase.toNat + 4 * c + 1))
              (s.mem.read (S.scaleBase.toNat + 4 * c + 2)) (s.mem.read (S.scaleBase.toNat + 4 * c + 3)))
      ∧ (t.rctx = none ∧ t.ring.length = K.bufH ∧ ∀ i, tagAt t.ring i = none)
      ∧ t.acc = s.acc ∧ t.mem = s.mem

/-- R91 and R93: INIT makes its checks in the order of R90 (R91, then those of R92, R93, R64 and R65), reports the first
that fails, and leaves no kernel object and the data space untouched. -/
def Obligations.InitReportsTheFirstFailingCheck : Prop :=
  ∀ (s : State) (S : ShapeRegs), s.initOperands = S →
    ∀ (pre post : List Check) (code : ErrorCode) (info : Word),
      S.failures s.params = pre ++ (true, code, info) :: post → (∀ r ∈ pre, r.1 = false) →
      ∃ t, exec .init s = .next t ∧ s.failsTo t code info ∧ t.kernel = none ∧ t.acc = s.acc ∧ t.mem = s.mem

/-- Derived from R90, R94 and R150: when a byte of one of INIT's tensors is answered with a bus error (and none never),
INIT ends with ERR_BUS and the lowest byte address of a failing access: the byte for a weight, the 4-byte entry for
bias and scale. No kernel object is left. -/
def Obligations.InitBusErrorLeavesNoKernel : Prop :=
  ∀ (s : State) (S : ShapeRegs) (f : PortFault), s.initOperands = S → S.legal s.params →
    (∀ g ∈ s.port, g.silent = false) → f ∈ s.port → f.isWrite = false →
    (inRegion S.wgtBase.toNat (S.ky * S.kx * S.c) f.address = true
      ∨ inRegion S.biasBase.toNat (4 * S.c) f.address = true
      ∨ inRegion S.scaleBase.toNat (4 * S.c) f.address = true) →
    ∃ t a g, exec .init s = .next t ∧ s.failsTo t .bus (BitVec.ofNat 32 a) ∧ t.kernel = none ∧ t.mem = s.mem
      ∧ g ∈ s.port ∧ g.isWrite = false
      ∧ ((inRegion S.wgtBase.toNat (S.ky * S.kx * S.c) g.address = true ∧ a = g.address)
        ∨ (∃ c < S.c, a = S.biasBase.toNat + 4 * c ∧ a ≤ g.address ∧ g.address < a + 4)
        ∨ (∃ c < S.c, a = S.scaleBase.toNat + 4 * c ∧ a ≤ g.address ∧ g.address < a + 4))

/-- Derived from R16, which defines next_pow2: it is a power of two, at least n, and the smallest such. -/
def Obligations.NextPow2IsTheSmallest : Prop :=
  ∀ n : Nat, (∃ k, nextPow2 n = 2 ^ k) ∧ n ≤ nextPow2 n ∧ ∀ j, n ≤ 2 ^ j → nextPow2 n ≤ 2 ^ j

/-- Derived from R95: the repacked store holds, at the index R95 gives for weight row r, column kx and channel c, the
entry R95 gives: the weight for V0, its sign extension for V1, the pair for V2, and 0 in a lane with c ≥ C. How V0's s8
stands in its entry is the model's choice (log 28). -/
def Obligations.RepackedStoreHoldsTheEntries : Prop :=
  ∀ (p : Params) (K : Kernel), p.legal = true → K.wf p →
    ∀ r kx c, r < (if K.var = .v2 then (K.ky + 1) / 2 else K.ky) → kx < K.kx → c < K.cpad →
      (K.repacked p.w).getD
        (if K.var = .v0 ∨ K.reord = .rowMajor then (r * K.kx + kx) * K.cpad + c
          else (c / p.w * (if K.var = .v2 then (K.ky + 1) / 2 else K.ky) * K.kx + r * K.kx + kx) * p.w + c % p.w) 0
      = if c < K.c then
          (match K.var with
            | .v0 => (K.weight r kx c).setWidth 32
            | .v1 => (K.weight r kx c).signExtend 32
            | .v2 => (if 2 * r + 1 < K.ky then (K.weight (2 * r + 1) kx c).signExtend 16 else 0#16)
                ++ (K.weight (2 * r) kx c).signExtend 16)
        else 0

/-! ### The ring -/

/-- Derived from R101, R103, R105, R106 and R108: PREPROCESS of a non-empty legal range on V1 or V2, with the source
readable and undisturbed, completes. RCTX is the invocation's; a slot some window row maps to is tagged with the largest
such row and holds it; every other slot keeps what it had, or is INVALID when the context differed; nothing else
changes. That a slot which is or becomes INVALID keeps its payload, which R50 leaves unspecified, is the model's choice
(log 24). -/
def Obligations.PreprocessFillsTheWindow : Prop :=
  ∀ (s : State) (K : Kernel) (I : CallRegs), s.kernel = some K → s.invocation = I →
    s.params.legal = true → K.wf s.params → s.ring.length = K.bufH → K.var ≠ .v0 →
    I.fillLegal s.params K → I.dyBeg < I.dyEnd → s.sourceReady K I →
    ∃ t, exec .preprocess s = .next t ∧ s.succeedsTo t
      ∧ t.rctx = some ⟨I.srcBase, I.srcZp.setWidth 8⟩ ∧ t.ring.length = K.bufH
      ∧ (∀ by_, I.dyBeg * K.sy ≤ by_ → by_ < (I.dyEnd - 1) * K.sy + K.extY →
          (∀ b', by_ < b' → b' < (I.dyEnd - 1) * K.sy + K.extY → K.slotOf b' ≠ K.slotOf by_) →
          holdsRow s.params.w s.mem K I t.ring by_)
      ∧ (∀ i, i < K.bufH →
          (∀ by_, I.dyBeg * K.sy ≤ by_ → by_ < (I.dyEnd - 1) * K.sy + K.extY → K.slotOf by_ ≠ i) →
          tagAt t.ring i = (if s.rctx = some ⟨I.srcBase, I.srcZp.setWidth 8⟩ then tagAt s.ring i else none)
            ∧ (t.ring[i]?).map Slot.lanes = (s.ring[i]?).map Slot.lanes)
      ∧ t.kernel = s.kernel ∧ t.acc = s.acc ∧ t.mem = s.mem

/-- Derived from R101, R102 and R115: with its checks passed, PREPROCESS of an empty range, or on V0, completes with no
other effect, whatever the data port does. -/
def Obligations.PreprocessWithNothingToFillCompletes : Prop :=
  ∀ (s : State) (K : Kernel) (I : CallRegs), s.kernel = some K → s.invocation = I → I.fillLegal s.params K →
    (I.dyBeg = I.dyEnd ∨ K.var = .v0) →
    ∃ t, exec .preprocess s = .next t ∧ s.succeedsTo t
      ∧ t.kernel = s.kernel ∧ t.ring = s.ring ∧ t.rctx = s.rctx ∧ t.acc = s.acc ∧ t.mem = s.mem

/-- R102: PREPROCESS makes its checks in the order of the table and reports the first that fails. -/
def Obligations.PreprocessReportsTheFirstFailingCheck : Prop :=
  (∀ s : State, s.kernel = none → ∃ t, exec .preprocess s = .next t ∧ s.failsTo t .notReady 0x00000002
    ∧ t.kernel = none ∧ t.mem = s.mem)
  ∧ ∀ (s : State) (K : Kernel) (I : CallRegs), s.kernel = some K → s.invocation = I →
    ∀ (pre post : List Check) (code : ErrorCode) (info : Word),
      I.fillFailures s.params K = pre ++ (true, code, info) :: post → (∀ r ∈ pre, r.1 = false) →
      ∃ t, exec .preprocess s = .next t ∧ s.failsTo t code info ∧ t.kernel = s.kernel ∧ t.mem = s.mem

/-- Derived from R114 and R139: for outputs whose window rows the ring holds as the data space gives them, RingSum of V1
and of V2 is RefSum. -/
def Obligations.RingSumEqualsRefSum : Prop :=
  ∀ (p : Params) (K : Kernel) (I : CallRegs) (m : Memory) (ring : List Slot) (dy dx c : Nat),
    K.wf p → K.var ≠ .v0 → dx < K.dstW → c < K.c →
    (∀ by_, dy * K.sy ≤ by_ → by_ < dy * K.sy + K.extY → holdsRow p.w m K I ring by_) →
    K.ringSum p.w ring dy dx c = K.refSum (plainSource m K I) dy dx c

/-! ### COMPUTE and RUN -/

/-- Derived from R111, R112, R119 and R120: on V0, COMPUTE and RUN of a non-empty legal range, with the source readable,
the destination writable and both undisturbed, complete and write RefOut to every destination byte of the rows, and to
no other byte; ring and kernel object stay. -/
def Obligations.DirectConvolutionWritesTheReference : Prop :=
  ∀ (s : State) (K : Kernel) (I : CallRegs) (i : Instr), i = .compute ∨ i = .run →
    s.kernel = some K → s.invocation = I → K.wf s.params → s.mem.wf = true → K.var = .v0 →
    I.convLegal s.params K → I.dyBeg < I.dyEnd → s.sourceReady K I → s.destReady K I →
    ∃ t, exec i s = .next t ∧ s.succeedsTo t
      ∧ (∀ dy dx c, I.dyBeg ≤ dy → dy < I.dyEnd → dx < K.dstW → c < K.c →
          t.mem.read (I.dstAddr K dy dx c) = s.refOut K I dy dx c)
      ∧ (∀ a, ¬ I.writesTo K a → t.mem.read a = s.mem.read a)
      ∧ t.kernel = s.kernel ∧ t.ring = s.ring ∧ t.rctx = s.rctx

/-- Derived from R112, R113, R118 and R119: on V1 and V2, COMPUTE of a non-empty legal range whose window is resident
under the invocation's context, with the destination writable and undisturbed, completes whatever the source region
answers; it writes REQ of RingSum to every destination byte of the rows and to no other byte, and the ring stays. -/
def Obligations.ComputeFromTheRing : Prop :=
  ∀ (s : State) (K : Kernel) (I : CallRegs), s.kernel = some K → s.invocation = I →
    K.wf s.params → s.mem.wf = true → K.var ≠ .v0 →
    I.convLegal s.params K → I.dyBeg < I.dyEnd → s.destReady K I →
    s.rctx = some ⟨I.srcBase, I.srcZp.setWidth 8⟩ →
    (∀ by_, I.dyBeg * K.sy ≤ by_ → by_ < (I.dyEnd - 1) * K.sy + K.extY → tagAt s.ring (K.slotOf by_) = some by_) →
    ∃ t, exec .compute s = .next t ∧ s.succeedsTo t
      ∧ (∀ dy dx c, I.dyBeg ≤ dy → dy < I.dyEnd → dx < K.dstW → c < K.c →
          t.mem.read (I.dstAddr K dy dx c)
            = requant s.params.req s.draws (K.outIndex dy dx c) (K.ringSum s.params.w s.ring dy dx c) (K.biasAt c)
                (K.scaleAt c) (I.dstZp.setWidth 8))
      ∧ (∀ a, ¬ I.writesTo K a → t.mem.read a = s.mem.read a)
      ∧ t.kernel = s.kernel ∧ t.ring = s.ring ∧ t.rctx = s.rctx

/-- Derived from R111, R112, R120 and R121: on V1 and V2, RUN of a non-empty legal range, with the source
readable, the destination writable and both undisturbed, completes; it writes RefOut to every destination byte of the
rows, though every value went through the ring, and to no other byte; RCTX is the invocation's, and each slot holds the
largest row of the window that maps to it, or is INVALID. -/
def Obligations.RunThroughTheRingWritesTheReference : Prop :=
  ∀ (s : State) (K : Kernel) (I : CallRegs), s.kernel = some K → s.invocation = I →
    s.params.legal = true → K.wf s.params → s.mem.wf = true → s.ring.length = K.bufH → K.var ≠ .v0 →
    I.convLegal s.params K → I.dyBeg < I.dyEnd → s.sourceReady K I → s.destReady K I →
    ∃ t, exec .run s = .next t ∧ s.succeedsTo t
      ∧ (∀ dy dx c, I.dyBeg ≤ dy → dy < I.dyEnd → dx < K.dstW → c < K.c →
          t.mem.read (I.dstAddr K dy dx c) = s.refOut K I dy dx c)
      ∧ (∀ a, ¬ I.writesTo K a → t.mem.read a = s.mem.read a)
      ∧ t.rctx = some ⟨I.srcBase, I.srcZp.setWidth 8⟩ ∧ t.ring.length = K.bufH
      ∧ (∀ by_, I.dyBeg * K.sy ≤ by_ → by_ < (I.dyEnd - 1) * K.sy + K.extY →
          (∀ b', by_ < b' → b' < (I.dyEnd - 1) * K.sy + K.extY → K.slotOf b' ≠ K.slotOf by_) →
          holdsRow s.params.w s.mem K I t.ring by_)
      ∧ (∀ i, (∀ by_, I.dyBeg * K.sy ≤ by_ → by_ < (I.dyEnd - 1) * K.sy + K.extY → K.slotOf by_ ≠ i) →
          tagAt t.ring i = none)
      ∧ t.kernel = s.kernel

/-- Derived from R115, R119 and R120: with its checks passed, COMPUTE or RUN of an empty range completes with no other
effect: no ring check, and no access to the data space, whatever the port does. -/
def Obligations.EmptyRangeCompletes : Prop :=
  ∀ (s : State) (K : Kernel) (I : CallRegs) (i : Instr), i = .compute ∨ i = .run →
    s.kernel = some K → s.invocation = I → I.convLegal s.params K → I.dyBeg = I.dyEnd →
    ∃ t, exec i s = .next t ∧ s.succeedsTo t
      ∧ t.kernel = s.kernel ∧ t.ring = s.ring ∧ t.rctx = s.rctx ∧ t.acc = s.acc ∧ t.mem = s.mem

/-- Derived from R116 and R117, checks 1 to 7: COMPUTE and RUN make them in the order of the table and report the first
that fails, before any access to the data space. -/
def Obligations.ConvolutionReportsTheFirstFailingCheck : Prop :=
  (∀ s : State, s.kernel = none →
    (∃ t, exec .compute s = .next t ∧ s.failsTo t .notReady 0x00000003 ∧ t.kernel = none ∧ t.mem = s.mem)
    ∧ ∃ t, exec .run s = .next t ∧ s.failsTo t .notReady 0x00000004 ∧ t.kernel = none ∧ t.mem = s.mem)
  ∧ ∀ (s : State) (K : Kernel) (I : CallRegs) (i : Instr), i = .compute ∨ i = .run →
    s.kernel = some K → s.invocation = I →
    ∀ (pre post : List Check) (code : ErrorCode) (info : Word),
      I.convFailures s.params K = pre ++ (true, code, info) :: post → (∀ r ∈ pre, r.1 = false) →
      ∃ t, exec i s = .next t ∧ s.failsTo t code info ∧ t.kernel = s.kernel ∧ t.acc = s.acc ∧ t.mem = s.mem

/-- Derived from R118: with checks 1 to 7 passed and a non-empty range on V1 or V2, COMPUTE ends with ERR_RING_MISS when
the context differs (all ones), and else when a window row is not resident (the first such row), before any access. -/
def Obligations.ComputeChecksResidency : Prop :=
  ∀ (s : State) (K : Kernel) (I : CallRegs), s.kernel = some K → s.invocation = I → K.var ≠ .v0 →
    I.convLegal s.params K → I.dyBeg < I.dyEnd →
    (s.rctx ≠ some ⟨I.srcBase, I.srcZp.setWidth 8⟩ →
      ∃ t, exec .compute s = .next t ∧ s.failsTo t .ringMiss 0xFFFFFFFF ∧ t.kernel = s.kernel ∧ t.mem = s.mem)
    ∧ (s.rctx = some ⟨I.srcBase, I.srcZp.setWidth 8⟩ →
      ∀ by_, I.dyBeg * K.sy ≤ by_ → by_ < (I.dyEnd - 1) * K.sy + K.extY → tagAt s.ring (K.slotOf by_) ≠ some by_ →
        (∀ b', I.dyBeg * K.sy ≤ b' → b' < by_ → tagAt s.ring (K.slotOf b') = some b') →
        ∃ t, exec .compute s = .next t ∧ s.failsTo t .ringMiss (BitVec.ofNat 32 by_) ∧ t.kernel = s.kernel
          ∧ t.mem = s.mem)

/-- Derived from R66, R112 and R122: however COMPUTE or RUN ends, no data byte outside the destination bytes of its rows
changes; and NOP, INIT, PREPROCESS, INVAL and CLRERR change no data byte at all. -/
def Obligations.CommandsWriteOnlyTheirRows : Prop :=
  ∀ (s t : State) (i : Instr), exec i s = .next t →
    ((i = .compute ∨ i = .run) → s.mem.wf = true →
      ∀ a, (∀ K, s.kernel = some K → ¬ s.invocation.writesTo K a) → t.mem.read a = s.mem.read a)
    ∧ ((i ≠ .compute ∧ i ≠ .run) → t.mem = s.mem)

/-- Derived from R122 and R150: when PREPROCESS, COMPUTE or RUN, its checks passed, surely makes an access that gets a
bus error (and none is never answered), it ends with ERR_BUS, the ring empty, and the address of an access it may make
that got one. PREPROCESS changes no data byte; after COMPUTE or RUN each destination byte of the rows is as before or
what the command writes, and no other byte changes. -/
def Obligations.BusErrorLeavesOldOrNewBytes : Prop :=
  ∀ (s : State) (i : Instr) (f : PortFault), (i = .preprocess ∨ i = .compute ∨ i = .run) → s.ready i →
    s.params.legal = true → (∀ K, s.kernel = some K → s.ring.length = K.bufH) → s.mem.wf = true → s.races = [] →
    (∀ g ∈ s.port, g.silent = false) → f ∈ s.port → s.surelyAccesses i f →
    ∃ t K g, s.kernel = some K ∧ exec i s = .next t ∧ g ∈ s.port ∧ s.mayAccess i K g
      ∧ s.failsTo t .bus (BitVec.ofNat 32 g.address) ∧ t.kernel = s.kernel
      ∧ (i = .preprocess → t.mem = s.mem)
      ∧ (∀ dy dx c, s.invocation.dyBeg ≤ dy → dy < s.invocation.dyEnd → dx < K.dstW → c < K.c →
          t.mem.read (s.invocation.dstAddr K dy dx c) = s.mem.read (s.invocation.dstAddr K dy dx c)
            ∨ t.mem.read (s.invocation.dstAddr K dy dx c) = s.newByte i K s.invocation dy dx c)
      ∧ (∀ a, ¬ s.invocation.writesTo K a → t.mem.read a = s.mem.read a)

/-! ### The datapath -/

/-- Derived from R138: every sum the block forms fits in i32: RefSum, read as a signed number, is the exact sum of the products, and
its magnitude is at most 2122416000. Partial sums, over any list of distinct taps in any order, are bounded the same
way. -/
def Obligations.SumsNeverWrap : Prop :=
  ∀ (K : Kernel) (src : Source) (dy dx c : Nat), K.ky ≤ 255 → K.kx ≤ 255 →
    let product : Nat × Nat → Int := fun t =>
      ((src (K.tapRead (K.outIndex dy dx c) t.1 t.2) (dy * K.sy + t.1 * K.dily) (dx * K.sx + t.2 * K.dilx) c).toNat : Int)
        * (K.weight t.1 t.2 c).toInt
    (K.refSum src dy dx c).toInt = ((taps K.ky K.kx).map product).sum
      ∧ ∀ part : List (Nat × Nat), part.Nodup → (∀ t ∈ part, t.1 < K.ky ∧ t.2 < K.kx) →
        (part.map product).sum.natAbs ≤ 2122416000

/-- R133: PMADD of a source pair of bytes and a weight pair of s8 values is the exact sum of the two products, each at
most 32640 in magnitude and the sum at most 65280; the accumulator adds it. -/
def Obligations.PmaddIsExact : Prop :=
  (∀ acc x y : Word, pmac acc x y = acc + pmadd x y)
  ∧ (∀ v w : Byte, ((v.toNat : Int) * w.toInt).natAbs ≤ 32640)
  ∧ ∀ hi lo wh wl : Byte,
    (pmadd (hi.setWidth 16 ++ lo.setWidth 16) (wh.signExtend 16 ++ wl.signExtend 16)).toInt
        = hi.toNat * wh.toInt + lo.toNat * wl.toInt
      ∧ ((hi.toNat : Int) * wh.toInt + lo.toNat * wl.toInt).natAbs ≤ 65280

/-- Derived from R141: with scale 1.0 and bias 0, REQ_REF(s, 0, 1.0, zp) is clamp(s + zp, 0, 255) for every |s| ≤ 2^24.
For every total t = sum +32 bias and every normal scale, REQ_REF is clamp(r + zp, 0, 255), where t is rounded to binary32
(f), f times the scale is rounded to binary32 (p), and p is rounded to an integer (r), each to nearest with ties to even.
A scale below the normal ones gives a product that rounds to 0. -/
def Obligations.RequantizerRoundsToNearestEven : Prop :=
  (∀ (nan : Byte) (s : Word) (zp : Byte), s.toInt.natAbs ≤ 2 ^ 24 →
    ((reqRef nan s 0 0x3F800000 zp).toNat : Int) = min (max (s.toInt + zp.toNat) 0) 255)
  ∧ (∀ (nan : Byte) (sum bias scale : Word) (zp : Byte), 0 < fpExponent scale → fpExponent scale < 255 →
    ∃ (e j : Nat) (f p r : Int), roundsToFp (sum + bias).toInt e f ∧ roundsToFp (f * fpSignificand scale) j p
      ∧ (fpExponent scale + e + j ≤ 150 → roundsTo p (150 - (fpExponent scale + e + j)) r)
      ∧ (150 < fpExponent scale + e + j → r = p * 2 ^ (fpExponent scale + e + j - 150))
      ∧ ((reqRef nan sum bias scale zp).toNat : Int) = min (max (r + zp.toNat) 0) 255)
  ∧ ∀ (nan : Byte) (sum bias scale : Word) (zp : Byte), fpExponent scale = 0 → reqRef nan sum bias scale zp = zp

/-- Derived from R141: a NaN scale, and an infinite scale on a zero total, give the free byte, whatever it is; an
infinite scale on any other total saturates by the sign of the product. -/
def Obligations.RequantizerSpecialScales : Prop :=
  ∀ (nan : Byte) (sum bias scale : Word) (zp : Byte), scale.toNat / 2 ^ 23 % 2 ^ 8 = 255 →
    reqRef nan sum bias scale zp
      = if scale.toNat % 2 ^ 23 ≠ 0 ∨ sum + bias = 0 then nan
        else if (sum + bias).toInt < 0 ↔ scale.toInt < 0 then 255 else 0

/-- Derived from R135, R136, R137 and R139: a tile that fits the accumulator file, over any pixels and groups of the
output, with any prior contents of the file, stores for each pixel, group and valid lane the same byte as the one-pixel
reference: RefOut's sum for V0, RingSum for V1 and V2. -/
def Obligations.TileEqualsTheScalarPath : Prop :=
  ∀ (s : State) (K : Kernel) (I : CallRegs) (ring : List Slot) (file : List (List Word)) (t : Tile),
    s.params.legal = true → K.wf s.params →
    (∀ p ∈ t.pixels, p.1 < K.dstH ∧ p.2 < K.dstW) → (∀ g ∈ t.groups, g < K.groupCount s.params.w) →
    t.pairs.length ≤ file.length →
    (runTile s K I ring file t).2 = t.pairs.flatMap fun p =>
      (List.range s.params.w).filterMap fun i =>
        if p.2 * s.params.w + i < K.c then
          some (K.outIndex p.1.1 p.1.2 (p.2 * s.params.w + i),
            s.outByte K I
              (if K.var = .v0 then K.refSum (s.source K I) else K.ringSum s.params.w ring)
              p.1.1 p.1.2 (p.2 * s.params.w + i))
        else none

/-- Derived from R125, R126, R127 and R136: every variant's schedule of the rows [b, e) computes each (pixel, group)
pair of those rows exactly once. Which of the allowed tilings it takes is the model's choice (log 25). -/
def Obligations.SchedulesCoverEveryOutputOnce : Prop :=
  ∀ (p : Params) (K : Kernel) (b e : Nat), p.legal = true → K.wf p → b ≤ e →
    ((K.schedule p b e).flatMap Tile.pairs).Perm
      ((pixelsOf (List.range' b (e - b)) (List.range K.dstW)).flatMap fun px =>
        (List.range (K.groupCount p.w)).map fun g => (px, g))

/-- Derived from R136: every tile of every schedule fits the accumulator file. -/
def Obligations.TilesFitTheAccumulatorFile : Prop :=
  ∀ (p : Params) (K : Kernel) (b e : Nat), p.legal = true → K.wf p →
    ∀ t ∈ K.schedule p b e, t.pairs.length ≤ p.accN

/-! ### Errors -/

/-- Derived from R148: whenever a command raises an error, BUSY is 0, the code is one of R143's, ERR_IS is set, the ring
is empty, DONE is as it was, and KVALID is unchanged except that INIT leaves it 0. -/
def Obligations.ErrorCompletionEffects : Prop :=
  ∀ (s t : State) (i : Instr), exec i s = .next t → s.err = false → t.err = true →
    s.failsTo t t.errCode t.errInfo ∧ t.errCode ≠ .none ∧ t.irqStatus.getLsbD 1 = true
      ∧ (i ≠ .init → t.kernel = s.kernel) ∧ (i = .init → t.kernel = none)

/-- Derived from R144: a command that is executed raises only the errors of its row; NOP, INVAL and CLRERR raise none. -/
def Obligations.EachCommandRaisesOnlyItsErrors : Prop :=
  ∀ (s t : State) (i : Instr), exec i s = .next t → s.err = false → t.err = true →
    t.errCode ∈ (match i with
      | .init => [.cfgShape, .cfgSrcType, .cfgDstType, .cfgReorder, .cfgVariant, .cfgCapacity, .align, .addr, .bus]
      | .preprocess => [.notReady, .zp, .range, .addr, .bus]
      | .compute => [.notReady, .zp, .range, .addr, .overlap, .ringMiss, .bus]
      | .run => [.notReady, .zp, .range, .addr, .overlap, .bus]
      | .nop => []
      | .inval => []
      | .clrerr => [] : List ErrorCode)

/-- Derived from R145 and R146: a CMD write while BUSY, or while ERR = 1 unless it is CLRERR, sets DROP and has no other
effect; and DROP, once 1, is cleared only by a write of 1 to STATUS bit 5, by a soft reset or by `rst`. -/
def Obligations.DroppedCommandOnlySetsDrop : Prop :=
  (∀ (s : State) (w : Word) (rest : List Event), s.rst = false →
    s.events = .access ⟨0x18, 4, .write w⟩ :: rest →
    (s.held ≠ none ∨ (s.err = true ∧ w ≠ 0x00000006)) →
    step s = .next { s with events := rest, drop := true, resp := .written })
  ∧ ∀ s t : State, s.drop = true → step s = .next t → t.drop = false →
    (∃ a v rest, (s.events = .access a :: rest ∨ s.events = .accessAtCompletion a :: rest) ∧ a.op = .write v
      ∧ ((a.offset = 0x14 ∧ v.getLsbD 5 = true) ∨ (a.offset = 0x10 ∧ v.getLsbD 0 = true)))
    ∨ ∃ b rest, s.events = .rst b :: rest

/-- Derived from R145: a legal word written while IDLE, or CLRERR written while ERROR, is accepted: BUSY <- 1, DONE <- 0,
LASTCMD <- w[7:0]; INIT discards the kernel object and the ring and latches S, CLRERR clears the error, the three
invocations latch I. No register of the host's, no pending interrupt and no data byte changes. -/
def Obligations.AcceptanceLatchesTheOperands : Prop :=
  ∀ (s : State) (i : Instr) (rest : List Event), s.rst = false → s.held = none →
    (s.err = false ∨ i = .clrerr) → s.events = .access ⟨0x18, 4, .write (encode i)⟩ :: rest →
    ∃ t, step s = .next t
      ∧ (t.held = some (encode i) ∧ t.statusWord.getLsbD 0 = true ∧ t.done = false ∧ t.lastCmd = opcode i)
      ∧ (i = .init → t.latched = some s.shape ∧ t.kernel = none ∧ t.rctx = none ∧ ∀ k, tagAt t.ring k = none)
      ∧ (i ≠ .init → t.kernel = s.kernel ∧ t.rctx = s.rctx ∧ t.ring = s.ring)
      ∧ ((i = .preprocess ∨ i = .compute ∨ i = .run) → t.call = some s.callRegs)
      ∧ (i = .clrerr → t.err = false ∧ t.errCode = .none ∧ t.errInfo = 0)
      ∧ (i ≠ .clrerr → t.err = s.err ∧ t.errCode = s.errCode ∧ t.errInfo = s.errInfo)
      ∧ (t.params = s.params ∧ t.drop = s.drop ∧ t.irqEn = s.irqEn ∧ t.irqStatus = s.irqStatus ∧ t.shape = s.shape
        ∧ t.callRegs = s.callRegs ∧ t.acc = s.acc ∧ t.mem = s.mem ∧ t.events = rest)

/-- Derived from R84, R85 and R145: an illegal word written while IDLE ends with ERR_CMD_ILLEGAL and the word as ERRINFO,
LASTCMD being its bits 7:0; it starts no command and changes no kernel object and no data byte. That it ends in the step
of the write is the model's choice (log 21). -/
def Obligations.IllegalWordEndsWithAnError : Prop :=
  ∀ (s : State) (w : Word) (rest : List Event), s.rst = false → s.held = none → s.err = false →
    6 < w.toNat → s.events = .access ⟨0x18, 4, .write w⟩ :: rest →
    ∃ t, step s = .next t
      ∧ (t.held = none ∧ t.done = false ∧ t.err = true ∧ t.errCode = .cmdIllegal ∧ t.errInfo = w
        ∧ t.lastCmd.toNat = w.toNat % 2 ^ 8 ∧ t.irqStatus = s.irqStatus ||| 2)
      ∧ (t.rctx = none ∧ ∀ k, tagAt t.ring k = none)
      ∧ t.kernel = s.kernel ∧ t.mem = s.mem ∧ t.shape = s.shape ∧ t.callRegs = s.callRegs ∧ t.irqEn = s.irqEn
      ∧ t.drop = s.drop

/-! ### Registers -/

/-- R21: an access that is not an aligned 32-bit access gets a slave error and no other effect; a read changes no state;
offsets 0x6C to 0xFC read 0 and ignore writes; a write to a read-only register is ignored; a res bit reads 0 and ignores
writes. -/
def Obligations.RegisterAccessRules : Prop :=
  (∀ (s : State) (a : PortAccess), s.rst = false → (a.bytes ≠ 4 ∨ a.offset.toNat % 4 ≠ 0) →
    portAccess a 0 s = { s with resp := .slaveError })
  ∧ (∀ (s : State) (o : Byte), ∃ r, portAccess ⟨o, 4, .read⟩ 0 s = { s with resp := r })
  ∧ (∀ (s : State) (o : Byte) (v : Word), s.rst = false → o.toNat % 4 = 0 → 0x6C ≤ o.toNat →
    portAccess ⟨o, 4, .read⟩ 0 s = { s with resp := .data 0 }
      ∧ portAccess ⟨o, 4, .write v⟩ 0 s = { s with resp := .written })
  ∧ (∀ (s : State) (o : Byte) (v : Word), s.rst = false →
    o ∈ ([0x00, 0x04, 0x08, 0x0C, 0x1C, 0x60, 0x64, 0x68] : List Byte) →
    portAccess ⟨o, 4, .write v⟩ 0 s = { s with resp := .written })
  ∧ (∀ (s : State) (r : Reg) (res : Word), s.reservedZero →
    (r, res) ∈ ([(.status, 0xFF0000C0), (.ctrl, 0xFFFFFFFE), (.params1, 0xFFE00000), (.irqEn, 0xFFFFFFFC),
      (.irqStatus, 0xFFFFFFFC), (.shapeC, 0xFFFF0000), (.dil, 0xFFFF0000), (.mode, 0xFFFFF0E0),
      (.layout, 0xFFFFE0E0), (.bufw, 0xFFFC0000)] : List (Reg × Word)) →
    readReg s r &&& res = 0 ∧ ∀ v : Word, readReg (writeReg s v 0 r) r &&& res = 0)

/-- Derived from R32 and R34 to R42: a register the host may write reads back what was written, but for its res bits,
and the write changes no other register and nothing else. -/
def Obligations.WritableRegistersReadBack : Prop :=
  ∀ (s : State) (r : Reg) (mask v : Word),
    (r, mask) ∈ ([(.irqEn, 0x00000003), (.shapeSrc, 0xFFFFFFFF), (.shapeC, 0x0000FFFF), (.kernel, 0xFFFFFFFF),
      (.dil, 0x0000FFFF), (.pad, 0xFFFFFFFF), (.mode, 0x00000F1F), (.wgtBase, 0xFFFFFFFF), (.biasBase, 0xFFFFFFFF),
      (.scaleBase, 0xFFFFFFFF), (.srcBase, 0xFFFFFFFF), (.dstBase, 0xFFFFFFFF), (.srcZp, 0xFFFFFFFF),
      (.dstZp, 0xFFFFFFFF), (.rows, 0xFFFFFFFF)] : List (Reg × Word)) →
    readReg (writeReg s v 0 r) r = v &&& mask
      ∧ (∀ r', r' ≠ r → readReg (writeReg s v 0 r) r' = readReg s r')
      ∧ { writeReg s v 0 r with irqEn := s.irqEn, shape := s.shape, callRegs := s.callRegs } = s

/-- Derived from R22 and R21: each register stands at its offset: an aligned 32-bit read there answers its value, and an
aligned 32-bit write there writes it. -/
def Obligations.RegisterMapOffsets : Prop :=
  ∀ (o : Byte) (r : Reg),
    (o, r) ∈ ([(0x00, .id), (0x04, .version), (0x08, .params0), (0x0C, .params1), (0x10, .ctrl), (0x14, .status),
      (0x18, .cmd), (0x1C, .errinfo), (0x20, .irqEn), (0x24, .irqStatus), (0x28, .shapeSrc), (0x2C, .shapeC),
      (0x30, .kernel), (0x34, .dil), (0x38, .pad), (0x3C, .mode), (0x40, .wgtBase), (0x44, .biasBase),
      (0x48, .scaleBase), (0x4C, .srcBase), (0x50, .dstBase), (0x54, .srcZp), (0x58, .dstZp), (0x5C, .rows),
      (0x60, .dstShape), (0x64, .layout), (0x68, .bufw)] : List (Byte × Reg)) →
    ∀ s : State, s.rst = false → portAccess ⟨o, 4, .read⟩ 0 s = { s with resp := .data (readReg s r) }
      ∧ ∀ v : Word, portAccess ⟨o, 4, .write v⟩ 0 s = { writeReg s v 0 r with resp := .written }

/-- Derived from R28 and R143: the fields of STATUS, ERRCODE with the code R143 gives each error; its reset value; and that a
write clears DROP where bit 5 is 1 and changes nothing else. -/
def Obligations.StatusFields : Prop :=
  (∀ s : State,
    s.statusWord.getLsbD 0 = s.held.isSome ∧ s.statusWord.getLsbD 1 = s.done ∧ s.statusWord.getLsbD 2 = s.err
      ∧ s.statusWord.getLsbD 3 = s.kernel.isSome ∧ s.statusWord.getLsbD 4 = s.rctx.isSome
      ∧ s.statusWord.getLsbD 5 = s.drop ∧ s.statusWord.extractLsb' 6 2 = 0
      ∧ s.statusWord.extractLsb' 16 8 = s.lastCmd ∧ s.statusWord.extractLsb' 24 8 = 0
      ∧ ∀ (e : ErrorCode) (n : Byte),
        (e, n) ∈ ([(.none, 0x00), (.cmdIllegal, 0x01), (.notReady, 0x02), (.cfgShape, 0x03), (.cfgSrcType, 0x04),
          (.cfgDstType, 0x05), (.cfgReorder, 0x06), (.cfgVariant, 0x07), (.cfgCapacity, 0x08), (.zp, 0x09),
          (.range, 0x0A), (.addr, 0x0B), (.align, 0x0C), (.overlap, 0x0D), (.ringMiss, 0x0E),
          (.bus, 0x0F)] : List (ErrorCode × Byte)) →
        s.errCode = e → s.statusWord.extractLsb' 8 8 = n)
  ∧ readReg State.reset .status = 0x00000000
  ∧ ∀ (s : State) (v : Word), writeReg s v 0 .status = { s with drop := s.drop && !v.getLsbD 5 }

/-- R23, R24, R25 and R26: the constants ID and VERSION, and the instance's parameters in PARAMS0 and PARAMS1, in every
state of an instance whose ACC_N fits its field (log 27); a write to any of them is ignored, and no step changes them. -/
def Obligations.IdentificationAndParameterRegisters : Prop :=
  ∀ s : State, s.params.legal = true → s.params.accN ≤ 255 →
    readReg s .id = 0x444D5743 ∧ readReg s .version = 0x00010000
      ∧ (readReg s .params0).toNat
          = s.params.rbLog2 * 2 ^ 24 + s.params.addrW * 2 ^ 16 + s.params.accN * 2 ^ 8 + s.params.w
      ∧ (readReg s .params1).toNat = s.params.wsLog2 * 2 ^ 16 + s.params.cMax
      ∧ (∀ (v e : Word), writeReg s v e .id = s ∧ writeReg s v e .version = s ∧ writeReg s v e .params0 = s
          ∧ writeReg s v e .params1 = s)
      ∧ ∀ t, step s = .next t → readReg t .params0 = readReg s .params0 ∧ readReg t .params1 = readReg s .params1

/-- R43, R44 and R45: the derived registers read 0 after reset and whenever KVALID = 0, and else show K's values. -/
def Obligations.DerivedRegisters : Prop :=
  (readReg State.reset .dstShape = 0 ∧ readReg State.reset .layout = 0 ∧ readReg State.reset .bufw = 0)
  ∧ (∀ s : State, s.kernel = none → readReg s .dstShape = 0 ∧ readReg s .layout = 0 ∧ readReg s .bufw = 0)
  ∧ ∀ (s : State) (K : Kernel), s.kernel = some K → K.wf s.params →
    (bits (readReg s .dstShape) 15 0 = K.dstH ∧ bits (readReg s .dstShape) 31 16 = K.dstW)
      ∧ (bits (readReg s .layout) 7 5 = 0 ∧ bits (readReg s .layout) 31 13 = 0
        ∧ bits (readReg s .layout) 9 8 = K.var.bits.toNat
        ∧ (readReg s .layout).getLsbD 10 = K.fast ∧ bits (readReg s .layout) 12 11 = K.reord.bits.toNat)
      ∧ (K.var = .v0 → bits (readReg s .layout) 4 0 = 0)
      ∧ (K.var ≠ .v0 → 2 ^ bits (readReg s .layout) 4 0 = K.bufH)
      ∧ bits (readReg s .bufw) 17 0 = K.srcW + K.pl + K.pr ∧ bits (readReg s .bufw) 31 18 = 0

/-! ### Interrupts -/

/-- Derived from R33, R145 and R151: a write of 1 to a bit of IRQ_STATUS clears it and a write of 0 leaves it; but a host write
in the cycle in which the engine completes a command leaves the bit of that completion 1. Any other access of that cycle acts as it does
after the completion: a CMD write is accepted, unless the completion was an error and the word is not CLRERR (R145). -/
def Obligations.CompletionEventWinsOverClear : Prop :=
  (∀ (s : State) (v : Word) (k : Nat), k < 32 →
    (writeReg s v 0 .irqStatus).irqStatus.getLsbD k = (s.irqStatus.getLsbD k && !v.getLsbD k))
  ∧ (∀ (s t : State) (w v : Word) (i : Instr) (rest : List Event), s.rst = false → s.err = false →
    s.held = some w → decode w = .ok i →
    s.events = .accessAtCompletion ⟨0x24, 4, .write v⟩ :: rest →
    exec i { s with events := rest } = .next t → t.held = none →
    ∃ u, step s = .next u ∧ u.irqStatus.getLsbD (if t.err then 1 else 0) = true ∧ u.held = none)
  ∧ (∀ (s t : State) (w : Word) (i : Instr) (a : PortAccess) (rest : List Event), s.rst = false → s.held = some w →
    decode w = .ok i → s.events = .accessAtCompletion a :: rest → a.offset ≠ 0x24 →
    exec i { s with events := rest } = .next t → t.held = none → step s = step { t with events := .access a :: rest })
  ∧ ∀ (s t : State) (w v : Word) (i : Instr) (rest : List Event), s.rst = false → s.err = false → s.held = some w →
    decode w = .ok i → s.events = .accessAtCompletion ⟨0x18, 4, .write v⟩ :: rest →
    exec i { s with events := rest } = .next t → t.held = none →
    ∃ u, step s = .next u ∧ u.irqStatus.getLsbD (if t.err then 1 else 0) = true
      ∧ (∀ j, v = encode j → t.err = false ∨ j = .clrerr →
        u.held = some v ∧ u.done = false ∧ u.err = false ∧ u.lastCmd = opcode j ∧ u.drop = s.drop)
      ∧ (t.err = true → v ≠ 0x00000006 → u = { t with drop := true, resp := .written })

/-- Derived from R153: the interrupt output is the OR of the pending bits ANDed with their enables, and it follows the registers: it
rises when a pending event is enabled and falls when the event is cleared. -/
def Obligations.InterruptLineFollowsTheRegisters : Prop :=
  (∀ s : State, s.irq = decide ((s.irqStatus &&& s.irqEn) &&& 0x00000003 ≠ 0))
  ∧ ∀ s : State, (s.irqStatus.getLsbD 0 = true → (writeReg s 0x00000001 0 .irqEn).irq = true)
    ∧ (s.irqStatus.getLsbD 1 = true → (writeReg s 0x00000002 0 .irqEn).irq = true)
    ∧ (writeReg s 0x00000003 0 .irqStatus).irq = false ∧ (writeReg s 0x00000000 0 .irqEn).irq = false

/-! ### Reset -/

/-- Derived from R161: what the spec states of the state after reset. -/
def Obligations.ResetState : Prop :=
  (readReg State.reset .id = 0x444D5743 ∧ readReg State.reset .version = 0x00010000)
    ∧ (∀ r ∈ ([.ctrl, .status, .cmd, .errinfo, .irqEn, .irqStatus, .shapeSrc, .shapeC, .kernel, .dil, .pad, .mode,
        .wgtBase, .biasBase, .scaleBase, .srcBase, .dstBase, .srcZp, .dstZp, .rows, .dstShape, .layout, .bufw] : List Reg),
        readReg State.reset r = 0)
    ∧ (State.reset.held = none ∧ State.reset.call = none ∧ State.reset.kernel = none)
    ∧ (State.reset.rctx = none ∧ ∀ i, tagAt State.reset.ring i = none) ∧ State.reset.irq = false

/-- Derived from R161 and R163: a write to CTRL with bit 0 = 1 puts every register, the engine, the kernel object, the
ring and the interrupt at their reset values, in any engine condition, and with no command running changes no data byte;
with bit 0 = 0 it has no effect. -/
def Obligations.SoftReset : Prop :=
  ∀ (s : State) (v : Word) (rest : List Event), s.rst = false → s.events = .access ⟨0x10, 4, .write v⟩ :: rest →
    (v.getLsbD 0 = true →
      ∃ t, step s = .next t ∧ t.params = s.params ∧ t.events = rest ∧ t.resp = .written
        ∧ (∀ r, r ≠ .params0 → r ≠ .params1 → readReg t r = readReg State.reset r)
        ∧ (t.held = none ∧ t.call = none ∧ t.latched = none ∧ t.kernel = none)
        ∧ (t.rctx = none ∧ ∀ i, tagAt t.ring i = none) ∧ t.irq = false
        ∧ (s.held = none → t.mem = s.mem))
    ∧ (v.getLsbD 0 = false → step s = .next { s with events := rest, resp := .written })

/-- Derived from R162, R163 and R164: a soft reset, by any word with bit 0 = 1, or the assertion of `rst`, while any command is BUSY abandons it: no
completion, no interrupt, no error. Every data byte is as before, but that a COMPUTE or RUN whose checks pass may leave
in a destination byte of its rows what it writes there. That at `rst` this holds from its assertion on, and not only from
its release, is the model's choice (log 18). -/
def Obligations.ResetWhileBusyLeavesOldOrNewBytes : Prop :=
  ∀ (s : State) (w : Word) (i : Instr) (rest : List Event), s.rst = false → s.held = some w → decode w = .ok i →
    s.kernelOk → s.params.legal = true → (∀ K, s.kernel = some K → s.ring.length = K.bufH) → s.mem.wf = true →
    s.races = [] →
    ((∃ v : Word, v.getLsbD 0 = true ∧ s.events = .access ⟨0x10, 4, .write v⟩ :: rest) ∨ s.events = .rst true :: rest) →
    ∃ t, step s = .next t ∧ (t.held = none ∧ t.done = false ∧ t.err = false ∧ t.irqStatus = 0 ∧ t.irq = false)
      ∧ ((¬ s.ready i ∨ (i ≠ .compute ∧ i ≠ .run)) → t.mem = s.mem)
      ∧ ∀ a, t.mem.read a = s.mem.read a
        ∨ ((i = .compute ∨ i = .run) ∧ s.ready i ∧ ∃ K dy dx c, s.kernel = some K ∧ s.invocation.dyBeg ≤ dy
          ∧ dy < s.invocation.dyEnd ∧ dx < K.dstW ∧ c < K.c ∧ a = s.invocation.dstAddr K dy dx c
          ∧ t.mem.read a = s.newByte i K s.invocation dy dx c)

/-- Derived from R162: while `rst` is asserted a register access is not answered and the engine does nothing; when it is
released, the state is that of reset. That the state is that of reset from the assertion on already, and that driving the
level `rst` has changes nothing, is the model's choice (log 18). -/
def Obligations.PowerOnReset : Prop :=
  (∀ (s : State) (a : PortAccess) (rest : List Event), s.rst = true → s.events = .access a :: rest →
    step s = .next { s with events := rest, resp := .unanswered })
  ∧ (∀ s : State, s.rst = true → s.events = [] → step s = .next s)
  ∧ (∀ (s : State) (b : Bool) (rest : List Event), s.rst = !b → s.events = .rst b :: rest →
    ∃ t, step s = .next t ∧ t.rst = b ∧ t.params = s.params ∧ t.events = rest ∧ (s.held = none → t.mem = s.mem)
      ∧ (t.held = none ∧ t.call = none ∧ t.latched = none ∧ t.kernel = none)
      ∧ (t.rctx = none ∧ ∀ i, tagAt t.ring i = none) ∧ t.irq = false
      ∧ ∀ r, r ≠ .params0 → r ≠ .params1 → readReg t r = readReg State.reset r)
  ∧ ∀ (s : State) (rest : List Event), s.events = .rst s.rst :: rest → step s = .next { s with events := rest }

/-! ### The host beside the engine -/

/-- Derived from R56, R75 and R77: a direct host write changes that byte of the data space, no copy the block has taken,
no register and no running command. What a race gives: a byte written during a command reads, for the engine, as a value
it has had since acceptance; a host read of a destination byte returns its value at acceptance or the value the command
writes, which no later host write changes then; and a byte both wrote ends with either value. -/
def Obligations.HostStoresLeaveTheBlockAlone : Prop :=
  (∀ (s : State) (a : Nat) (v : Byte) (rest : List Event), s.mem.wf = true → a < 2 ^ s.params.addrW →
    s.events = .memWrite a v :: rest →
    ∃ t, step s = .next t ∧ t.mem.read a = v ∧ (∀ b, b ≠ a → t.mem.read b = s.mem.read b)
      ∧ (t.kernel = s.kernel ∧ t.ring = s.ring ∧ t.rctx = s.rctx ∧ t.held = s.held ∧ t.call = s.call
        ∧ t.latched = s.latched) ∧ (∀ r, readReg t r = readReg s r)
      ∧ ∀ b, t.busy = true → t.acceptedByte b = s.acceptedByte b)
  ∧ (∀ (s : State) (k a : Nat),
    ((∀ r ∈ s.races, r.address ≠ a) → s.engineByte k a = s.mem.read a)
      ∧ ((∃ r ∈ s.races, r.address = a) →
        s.engineByte k a = s.acceptedByte a ∨ ∃ r ∈ s.races, r.address = a ∧ s.engineByte k a = r.wrote))
  ∧ (∀ (s : State) (a : Nat) (rest : List Event), a < 2 ^ s.params.addrW → s.events = .memRead a :: rest →
    ∃ t v, step s = .next t ∧ t.resp = .byte v ∧ t.mem = s.mem ∧ t.held = s.held ∧ t.races = s.races
      ∧ (s.pendingByte a = none → v = s.mem.read a)
      ∧ ∀ u, s.pendingByte a = some u →
        v = s.acceptedByte a ∨ (v = u ∧ t.pendingByte a = some u ∧ t.shown.lookup a = some u))
  ∧ (∀ (s : State) (a b : Nat) (u w : Byte), s.mem.wf = true → s.pendingByte a = some u →
    s.shown.lookup a = some u → (hostStore b w s).pendingByte a = some u)
  ∧ ∀ (s t : State) (w : Word) (i : Instr) (a : Nat) (u : Byte), s.mem.wf = true → s.held = some w →
    decode w = .ok i → s.err = false → exec i s = .next t → t.held = none → t.err = false →
    s.pendingByte a = some u →
    t.mem.read a = u ∨ ((∃ r ∈ s.races, r.address = a) ∧ t.mem.read a = s.mem.read a)

/-! ### Invariants of every step -/

/-- Derived from R29, whose invariants they are, with R28 and R31: BUSY = 1 means ERR = 0 and DONE = 0, DONE = 1 means
ERR = 0, and ERRCODE and ERRINFO are 0 when ERR = 0. -/
def Obligations.StatusInvariantIsKept : Prop :=
  ∀ s t : State, s.statusOk → step s = .next t → t.statusOk

/-- Derived from R20 and R58: the data space keeps its canonical form. -/
def Obligations.MemoryFormIsKept : Prop :=
  ∀ s t : State, s.mem.wf = true → step s = .next t → t.mem.wf = true

/-- Derived from R47, R91, R92, R93 and R95: every kernel object there is has the values R92 and R95 derive and keeps
within INIT's limits; the instance's parameters never change (R10). -/
def Obligations.KernelObjectIsKept : Prop :=
  ∀ s t : State, s.kernelOk → step s = .next t → t.kernelOk ∧ t.params = s.params

/-- Derived from R49, R50 and R51: the ring has K's BUFH slots, every valid tag names a row that belongs in its slot, and
every tag is INVALID while RCTX is NONE or there is no kernel object. -/
def Obligations.RingTagsAreKept : Prop :=
  ∀ s t : State, s.ringOk → step s = .next t → t.ringOk

/-- Derived from R21: the res bits of the stored registers stay 0. -/
def Obligations.ReservedBitsStayZero : Prop :=
  ∀ s t : State, s.reservedZero → step s = .next t → t.reservedZero

/-- Derived from R48: the latched operands exist only while a command is BUSY. -/
def Obligations.ContextOnlyWhileBusy : Prop :=
  ∀ s t : State, s.contextOk → step s = .next t → t.contextOk

/-- Derived from R161: the reset state meets every invariant, and the default parameters are legal. -/
def Obligations.ResetMeetsTheInvariants : Prop :=
  State.reset.inv ∧ State.reset.params.legal = true
end

