-- ==== Sys2Proof/Laws/Memory.lean ====
section
/-!
SUPPORT. The laws of the data space: every operation keeps the canonical form, a read after a write gives the value
written and every other byte is as before, and memories that read the same are the same data.
-/

namespace Sys2Proof.Machine

theorem Memory.wfAbove_mono {lo lo' : Nat} {m : Memory} (h : lo' ≤ lo) (hm : Memory.wfAbove lo m = true) :
    Memory.wfAbove lo' m = true := by
  cases m with
  | nil => rfl
  | cons x rest =>
    simp only [Memory.wfAbove, Bool.and_eq_true, decide_eq_true_eq] at hm ⊢
    exact ⟨⟨by omega, hm.1.2⟩, hm.2⟩

theorem Memory.wfAbove_entry {lo a : Nat} {v : Byte} {rest : Memory} (h : lo ≤ a)
    (hr : Memory.wfAbove (a + 1) rest = true) : Memory.wfAbove lo (Memory.entry a v rest) = true := by
  unfold Memory.entry
  split
  · exact Memory.wfAbove_mono (by omega) hr
  · rename_i hv
    simp [Memory.wfAbove, h, hv, hr]

/-- A write keeps the canonical form. -/
theorem Memory.wfAbove_write {lo a : Nat} {v : Byte} {m : Memory} (h : lo ≤ a) (hm : Memory.wfAbove lo m = true) :
    Memory.wfAbove lo (m.write a v) = true := by
  induction m generalizing lo with
  | nil => exact Memory.wfAbove_entry h rfl
  | cons x rest ih =>
    obtain ⟨b, u⟩ := x
    simp only [Memory.wfAbove, Bool.and_eq_true, decide_eq_true_eq] at hm
    obtain ⟨⟨hb, hu⟩, hr⟩ := hm
    unfold Memory.write
    split
    · refine Memory.wfAbove_entry h ?_
      simp only [Memory.wfAbove, Bool.and_eq_true, decide_eq_true_eq]
      exact ⟨⟨by omega, hu⟩, hr⟩
    · split
      · rename_i hab
        subst hab
        exact Memory.wfAbove_entry h hr
      · simp only [Memory.wfAbove, Bool.and_eq_true, decide_eq_true_eq]
        exact ⟨⟨hb, hu⟩, ih (by omega) hr⟩

@[simp] theorem Memory.wf_write {a : Nat} {v : Byte} {m : Memory} (hm : m.wf = true) : (m.write a v).wf = true :=
  Memory.wfAbove_write (Nat.zero_le a) hm

@[simp] theorem Memory.wf_writeBytes {a : Nat} {vs : List Byte} {m : Memory} (hm : m.wf = true) :
    (m.writeBytes a vs).wf = true := by
  induction vs generalizing a m with
  | nil => exact hm
  | cons v vs ih => exact ih (Memory.wf_write hm)

theorem Memory.read_below {lo a : Nat} {m : Memory} (hm : Memory.wfAbove lo m = true) (h : a < lo) :
    m.read a = Memory.unlisted := by
  cases m with
  | nil => rfl
  | cons x rest =>
    obtain ⟨b, u⟩ := x
    simp only [Memory.wfAbove, Bool.and_eq_true, decide_eq_true_eq] at hm
    unfold Memory.read
    rw [if_neg (by omega), if_pos (by omega)]

theorem Memory.read_entry {a x : Nat} {v : Byte} {rest : Memory} (hr : Memory.wfAbove (a + 1) rest = true) :
    (Memory.entry a v rest).read x = if x = a then v else rest.read x := by
  unfold Memory.entry
  split
  · rename_i hv
    by_cases hx : x = a
    · rw [if_pos hx, hv, Memory.read_below hr (by omega)]
    · rw [if_neg hx]
  · by_cases hx : x = a
    · simp [Memory.read, hx]
    · by_cases hlt : x < a
      · simp [Memory.read, hx, hlt, Memory.read_below hr (show x < a + 1 by omega)]
      · simp [Memory.read, hx, hlt]

/-- A read after a write: the value written there, every other byte as before. -/
theorem Memory.read_write {a x : Nat} {v : Byte} {m : Memory} (hm : m.wf = true) :
    (m.write a v).read x = if x = a then v else m.read x := by
  have gen : ∀ lo, Memory.wfAbove lo m = true → (m.write a v).read x = if x = a then v else m.read x := by
    intro lo hm
    induction m generalizing lo with
    | nil => exact Memory.read_entry rfl
    | cons y rest ih =>
      obtain ⟨b, u⟩ := y
      have hall := hm
      simp only [Memory.wfAbove, Bool.and_eq_true, decide_eq_true_eq] at hm
      obtain ⟨⟨hb, hu⟩, hr⟩ := hm
      unfold Memory.write
      split
      · rename_i hab
        refine Memory.read_entry ?_
        simp only [Memory.wfAbove, Bool.and_eq_true, decide_eq_true_eq]
        exact ⟨⟨by omega, hu⟩, hr⟩
      · split
        · rename_i hab
          subst hab
          rw [Memory.read_entry hr]
          by_cases hx : x = a
          · simp [hx]
          · by_cases hlt : x < a
            · simp [Memory.read, hx, hlt, Memory.read_below hr (show x < a + 1 by omega)]
            · simp [Memory.read, hx, hlt]
        · rename_i h1 h2
          by_cases hx : x = b
          · have : x ≠ a := by omega
            simp [Memory.read, hx, show ¬ b = a by omega]
          · by_cases hlt : x < b
            · simp [Memory.read, hx, hlt, show ¬ x = a by omega]
            · simp only [Memory.read, hx, hlt, if_false]
              have hw : Memory.wf rest = true := Memory.wfAbove_mono (Nat.zero_le _) hr
              exact ih hw (b + 1) hr
  exact gen 0 hm

/-- A read after a run of writes. -/
theorem Memory.read_writeBytes {a x : Nat} {vs : List Byte} {m : Memory} (hm : m.wf = true) :
    (m.writeBytes a vs).read x = if a ≤ x then (vs[x - a]?).getD (m.read x) else m.read x := by
  induction vs generalizing a m with
  | nil => simp [Memory.writeBytes]
  | cons v vs ih =>
    rw [Memory.writeBytes, ih (Memory.wf_write hm), Memory.read_write hm]
    by_cases h1 : a + 1 ≤ x
    · obtain ⟨k, rfl⟩ : ∃ k, x = a + 1 + k := ⟨x - (a + 1), by omega⟩
      have h3 : a + 1 + k - a = k + 1 := by omega
      rw [if_pos h1, if_neg (by omega), if_pos (by omega), h3]
      simp
    · by_cases h2 : x = a
      · subst h2
        simp
      · rw [if_neg h1, if_neg h2, if_neg (by omega)]

/-- Outside the run, a byte is as before. -/
theorem Memory.read_writeBytes_outside {a x : Nat} {vs : List Byte} {m : Memory} (hm : m.wf = true)
    (h : x < a ∨ a + vs.length ≤ x) : (m.writeBytes a vs).read x = m.read x := by
  rw [Memory.read_writeBytes hm]
  split
  · rw [List.getElem?_eq_none (by omega)]
    rfl
  · rfl

/-- Inside the run, a byte is the one written. -/
theorem Memory.read_writeBytes_inside {a i : Nat} {vs : List Byte} {m : Memory} (hm : m.wf = true)
    (h : i < vs.length) : (m.writeBytes a vs).read (a + i) = vs[i] := by
  rw [Memory.read_writeBytes hm, if_pos (Nat.le_add_right a i), Nat.add_sub_cancel_left, List.getElem?_eq_getElem h]
  rfl

/-- The bytes of the engine's stores, by index (State.storedBytes). -/
theorem Memory.read_mapIdx_inside {a i : Nat} {vs : List Byte} {m : Memory} (hm : m.wf = true)
    (f : Nat → Byte → Byte) (h : i < vs.length) :
    (m.writeBytes a (vs.mapIdx fun k v => f (a + k) v)).read (a + i) = f (a + i) vs[i] := by
  rw [Memory.read_writeBytes_inside hm (by simpa using h)]
  simp

/-- Two canonical memories that read the same everywhere are the same data. -/
theorem Memory.eq_of_read_eq {m n : Memory} {lo : Nat} (hm : Memory.wfAbove lo m = true)
    (hn : Memory.wfAbove lo n = true) (h : ∀ x, m.read x = n.read x) : m = n := by
  induction m generalizing n lo with
  | nil =>
    cases n with
    | nil => rfl
    | cons y rest =>
      obtain ⟨b, u⟩ := y
      simp only [Memory.wfAbove, Bool.and_eq_true, decide_eq_true_eq] at hn
      have := h b
      simp [Memory.read] at this
      exact absurd this.symm hn.1.2
  | cons y rest ih =>
    obtain ⟨b, u⟩ := y
    simp only [Memory.wfAbove, Bool.and_eq_true, decide_eq_true_eq] at hm
    cases n with
    | nil =>
      have := h b
      simp [Memory.read] at this
      exact absurd this hm.1.2
    | cons z rest' =>
      obtain ⟨c, v⟩ := z
      simp only [Memory.wfAbove, Bool.and_eq_true, decide_eq_true_eq] at hn
      have hbc : b = c := by
        rcases Nat.lt_trichotomy b c with hlt | heq | hgt
        · have := h b
          simp [Memory.read, Nat.ne_of_lt hlt, hlt] at this
          exact absurd this hm.1.2
        · exact heq
        · have := h c
          simp [Memory.read, Nat.ne_of_lt hgt, hgt] at this
          exact absurd this.symm hn.1.2
      subst hbc
      have huv : u = v := by
        have := h b
        simpa [Memory.read] using this
      subst huv
      rw [ih hm.2 hn.2 ?_]
      intro x
      by_cases hx : x = b
      · rw [Memory.read_below hm.2 (by omega), Memory.read_below hn.2 (by omega)]
      · by_cases hlt : x < b
        · rw [Memory.read_below hm.2 (by omega), Memory.read_below hn.2 (by omega)]
        · have := h x
          simpa [Memory.read, hx, hlt] using this

end Sys2Proof.Machine
end

