-- ==== Sys2Proof/Laws/State.lean ====
section
/-!
SUPPORT. The fields of State after each named update: one lemma a field, true by definition, so that no proof unfolds a
record update.
-/

namespace Sys2Proof.Machine

/-! ### release -/

@[simp] theorem release_params (s : State) : (release s).params = s.params := rfl
@[simp] theorem release_held (s : State) : (release s).held = none := rfl
@[simp] theorem release_done (s : State) : (release s).done = s.done := rfl
@[simp] theorem release_err (s : State) : (release s).err = s.err := rfl
@[simp] theorem release_drop (s : State) : (release s).drop = s.drop := rfl
@[simp] theorem release_errCode (s : State) : (release s).errCode = s.errCode := rfl
@[simp] theorem release_lastCmd (s : State) : (release s).lastCmd = s.lastCmd := rfl
@[simp] theorem release_errInfo (s : State) : (release s).errInfo = s.errInfo := rfl
@[simp] theorem release_irqEn (s : State) : (release s).irqEn = s.irqEn := rfl
@[simp] theorem release_irqStatus (s : State) : (release s).irqStatus = s.irqStatus := rfl
@[simp] theorem release_shape (s : State) : (release s).shape = s.shape := rfl
@[simp] theorem release_callRegs (s : State) : (release s).callRegs = s.callRegs := rfl
@[simp] theorem release_latched (s : State) : (release s).latched = none := rfl
@[simp] theorem release_call (s : State) : (release s).call = none := rfl
@[simp] theorem release_kernel (s : State) : (release s).kernel = s.kernel := rfl
@[simp] theorem release_ring (s : State) : (release s).ring = s.ring := rfl
@[simp] theorem release_rctx (s : State) : (release s).rctx = s.rctx := rfl
@[simp] theorem release_acc (s : State) : (release s).acc = s.acc := rfl
@[simp] theorem release_mem (s : State) : (release s).mem = s.mem := rfl
@[simp] theorem release_rst (s : State) : (release s).rst = s.rst := rfl
@[simp] theorem release_port (s : State) : (release s).port = s.port := rfl
@[simp] theorem release_races (s : State) : (release s).races = [] := rfl
@[simp] theorem release_shown (s : State) : (release s).shown = [] := rfl
@[simp] theorem release_events (s : State) : (release s).events = s.events := rfl
@[simp] theorem release_resp (s : State) : (release s).resp = s.resp := rfl
@[simp] theorem release_draws (s : State) : (release s).draws = s.draws + 1 := rfl
@[simp] theorem release_peeks (s : State) : (release s).peeks = s.peeks := rfl

/-! ### emptyRing -/

@[simp] theorem emptyRing_params (s : State) : (emptyRing s).params = s.params := rfl
@[simp] theorem emptyRing_held (s : State) : (emptyRing s).held = s.held := rfl
@[simp] theorem emptyRing_done (s : State) : (emptyRing s).done = s.done := rfl
@[simp] theorem emptyRing_err (s : State) : (emptyRing s).err = s.err := rfl
@[simp] theorem emptyRing_drop (s : State) : (emptyRing s).drop = s.drop := rfl
@[simp] theorem emptyRing_errCode (s : State) : (emptyRing s).errCode = s.errCode := rfl
@[simp] theorem emptyRing_lastCmd (s : State) : (emptyRing s).lastCmd = s.lastCmd := rfl
@[simp] theorem emptyRing_errInfo (s : State) : (emptyRing s).errInfo = s.errInfo := rfl
@[simp] theorem emptyRing_irqEn (s : State) : (emptyRing s).irqEn = s.irqEn := rfl
@[simp] theorem emptyRing_irqStatus (s : State) : (emptyRing s).irqStatus = s.irqStatus := rfl
@[simp] theorem emptyRing_shape (s : State) : (emptyRing s).shape = s.shape := rfl
@[simp] theorem emptyRing_callRegs (s : State) : (emptyRing s).callRegs = s.callRegs := rfl
@[simp] theorem emptyRing_latched (s : State) : (emptyRing s).latched = s.latched := rfl
@[simp] theorem emptyRing_call (s : State) : (emptyRing s).call = s.call := rfl
@[simp] theorem emptyRing_kernel (s : State) : (emptyRing s).kernel = s.kernel := rfl
@[simp] theorem emptyRing_ring (s : State) : (emptyRing s).ring = invalidateTags s.ring := rfl
@[simp] theorem emptyRing_rctx (s : State) : (emptyRing s).rctx = none := rfl
@[simp] theorem emptyRing_acc (s : State) : (emptyRing s).acc = s.acc := rfl
@[simp] theorem emptyRing_mem (s : State) : (emptyRing s).mem = s.mem := rfl
@[simp] theorem emptyRing_rst (s : State) : (emptyRing s).rst = s.rst := rfl
@[simp] theorem emptyRing_port (s : State) : (emptyRing s).port = s.port := rfl
@[simp] theorem emptyRing_races (s : State) : (emptyRing s).races = s.races := rfl
@[simp] theorem emptyRing_shown (s : State) : (emptyRing s).shown = s.shown := rfl
@[simp] theorem emptyRing_events (s : State) : (emptyRing s).events = s.events := rfl
@[simp] theorem emptyRing_resp (s : State) : (emptyRing s).resp = s.resp := rfl
@[simp] theorem emptyRing_draws (s : State) : (emptyRing s).draws = s.draws := rfl
@[simp] theorem emptyRing_peeks (s : State) : (emptyRing s).peeks = s.peeks := rfl

/-! ### complete -/

@[simp] theorem complete_params (s : State) : (complete s).params = s.params := rfl
@[simp] theorem complete_held (s : State) : (complete s).held = none := rfl
@[simp] theorem complete_done (s : State) : (complete s).done = true := rfl
@[simp] theorem complete_err (s : State) : (complete s).err = s.err := rfl
@[simp] theorem complete_drop (s : State) : (complete s).drop = s.drop := rfl
@[simp] theorem complete_errCode (s : State) : (complete s).errCode = s.errCode := rfl
@[simp] theorem complete_lastCmd (s : State) : (complete s).lastCmd = s.lastCmd := rfl
@[simp] theorem complete_errInfo (s : State) : (complete s).errInfo = s.errInfo := rfl
@[simp] theorem complete_irqEn (s : State) : (complete s).irqEn = s.irqEn := rfl
@[simp] theorem complete_irqStatus (s : State) : (complete s).irqStatus = s.irqStatus ||| irqDone := rfl
@[simp] theorem complete_shape (s : State) : (complete s).shape = s.shape := rfl
@[simp] theorem complete_callRegs (s : State) : (complete s).callRegs = s.callRegs := rfl
@[simp] theorem complete_latched (s : State) : (complete s).latched = none := rfl
@[simp] theorem complete_call (s : State) : (complete s).call = none := rfl
@[simp] theorem complete_kernel (s : State) : (complete s).kernel = s.kernel := rfl
@[simp] theorem complete_ring (s : State) : (complete s).ring = s.ring := rfl
@[simp] theorem complete_rctx (s : State) : (complete s).rctx = s.rctx := rfl
@[simp] theorem complete_acc (s : State) : (complete s).acc = s.acc := rfl
@[simp] theorem complete_mem (s : State) : (complete s).mem = s.mem := rfl
@[simp] theorem complete_rst (s : State) : (complete s).rst = s.rst := rfl
@[simp] theorem complete_port (s : State) : (complete s).port = s.port := rfl
@[simp] theorem complete_races (s : State) : (complete s).races = [] := rfl
@[simp] theorem complete_shown (s : State) : (complete s).shown = [] := rfl
@[simp] theorem complete_events (s : State) : (complete s).events = s.events := rfl
@[simp] theorem complete_resp (s : State) : (complete s).resp = s.resp := rfl
@[simp] theorem complete_draws (s : State) : (complete s).draws = s.draws + 1 := rfl
@[simp] theorem complete_peeks (s : State) : (complete s).peeks = s.peeks := rfl

/-! ### raiseError -/

@[simp] theorem raiseError_params (code : ErrorCode) (info : Word) (s : State) : (raiseError code info s).params = s.params := rfl
@[simp] theorem raiseError_held (code : ErrorCode) (info : Word) (s : State) : (raiseError code info s).held = none := rfl
@[simp] theorem raiseError_done (code : ErrorCode) (info : Word) (s : State) : (raiseError code info s).done = s.done := rfl
@[simp] theorem raiseError_err (code : ErrorCode) (info : Word) (s : State) : (raiseError code info s).err = true := rfl
@[simp] theorem raiseError_drop (code : ErrorCode) (info : Word) (s : State) : (raiseError code info s).drop = s.drop := rfl
@[simp] theorem raiseError_errCode (code : ErrorCode) (info : Word) (s : State) : (raiseError code info s).errCode = code := rfl
@[simp] theorem raiseError_lastCmd (code : ErrorCode) (info : Word) (s : State) : (raiseError code info s).lastCmd = s.lastCmd := rfl
@[simp] theorem raiseError_errInfo (code : ErrorCode) (info : Word) (s : State) : (raiseError code info s).errInfo = info := rfl
@[simp] theorem raiseError_irqEn (code : ErrorCode) (info : Word) (s : State) : (raiseError code info s).irqEn = s.irqEn := rfl
@[simp] theorem raiseError_irqStatus (code : ErrorCode) (info : Word) (s : State) : (raiseError code info s).irqStatus = s.irqStatus ||| irqErr := rfl
@[simp] theorem raiseError_shape (code : ErrorCode) (info : Word) (s : State) : (raiseError code info s).shape = s.shape := rfl
@[simp] theorem raiseError_callRegs (code : ErrorCode) (info : Word) (s : State) : (raiseError code info s).callRegs = s.callRegs := rfl
@[simp] theorem raiseError_latched (code : ErrorCode) (info : Word) (s : State) : (raiseError code info s).latched = none := rfl
@[simp] theorem raiseError_call (code : ErrorCode) (info : Word) (s : State) : (raiseError code info s).call = none := rfl
@[simp] theorem raiseError_kernel (code : ErrorCode) (info : Word) (s : State) : (raiseError code info s).kernel = s.kernel := rfl
@[simp] theorem raiseError_ring (code : ErrorCode) (info : Word) (s : State) : (raiseError code info s).ring = invalidateTags s.ring := rfl
@[simp] theorem raiseError_rctx (code : ErrorCode) (info : Word) (s : State) : (raiseError code info s).rctx = none := rfl
@[simp] theorem raiseError_acc (code : ErrorCode) (info : Word) (s : State) : (raiseError code info s).acc = s.acc := rfl
@[simp] theorem raiseError_mem (code : ErrorCode) (info : Word) (s : State) : (raiseError code info s).mem = s.mem := rfl
@[simp] theorem raiseError_rst (code : ErrorCode) (info : Word) (s : State) : (raiseError code info s).rst = s.rst := rfl
@[simp] theorem raiseError_port (code : ErrorCode) (info : Word) (s : State) : (raiseError code info s).port = s.port := rfl
@[simp] theorem raiseError_races (code : ErrorCode) (info : Word) (s : State) : (raiseError code info s).races = [] := rfl
@[simp] theorem raiseError_shown (code : ErrorCode) (info : Word) (s : State) : (raiseError code info s).shown = [] := rfl
@[simp] theorem raiseError_events (code : ErrorCode) (info : Word) (s : State) : (raiseError code info s).events = s.events := rfl
@[simp] theorem raiseError_resp (code : ErrorCode) (info : Word) (s : State) : (raiseError code info s).resp = s.resp := rfl
@[simp] theorem raiseError_draws (code : ErrorCode) (info : Word) (s : State) : (raiseError code info s).draws = s.draws + 1 := rfl
@[simp] theorem raiseError_peeks (code : ErrorCode) (info : Word) (s : State) : (raiseError code info s).peeks = s.peeks := rfl

/-! ### clearError -/

@[simp] theorem clearError_params (s : State) : (clearError s).params = s.params := rfl
@[simp] theorem clearError_held (s : State) : (clearError s).held = s.held := rfl
@[simp] theorem clearError_done (s : State) : (clearError s).done = s.done := rfl
@[simp] theorem clearError_err (s : State) : (clearError s).err = false := rfl
@[simp] theorem clearError_drop (s : State) : (clearError s).drop = s.drop := rfl
@[simp] theorem clearError_errCode (s : State) : (clearError s).errCode = .none := rfl
@[simp] theorem clearError_lastCmd (s : State) : (clearError s).lastCmd = s.lastCmd := rfl
@[simp] theorem clearError_errInfo (s : State) : (clearError s).errInfo = 0 := rfl
@[simp] theorem clearError_irqEn (s : State) : (clearError s).irqEn = s.irqEn := rfl
@[simp] theorem clearError_irqStatus (s : State) : (clearError s).irqStatus = s.irqStatus := rfl
@[simp] theorem clearError_shape (s : State) : (clearError s).shape = s.shape := rfl
@[simp] theorem clearError_callRegs (s : State) : (clearError s).callRegs = s.callRegs := rfl
@[simp] theorem clearError_latched (s : State) : (clearError s).latched = s.latched := rfl
@[simp] theorem clearError_call (s : State) : (clearError s).call = s.call := rfl
@[simp] theorem clearError_kernel (s : State) : (clearError s).kernel = s.kernel := rfl
@[simp] theorem clearError_ring (s : State) : (clearError s).ring = s.ring := rfl
@[simp] theorem clearError_rctx (s : State) : (clearError s).rctx = s.rctx := rfl
@[simp] theorem clearError_acc (s : State) : (clearError s).acc = s.acc := rfl
@[simp] theorem clearError_mem (s : State) : (clearError s).mem = s.mem := rfl
@[simp] theorem clearError_rst (s : State) : (clearError s).rst = s.rst := rfl
@[simp] theorem clearError_port (s : State) : (clearError s).port = s.port := rfl
@[simp] theorem clearError_races (s : State) : (clearError s).races = s.races := rfl
@[simp] theorem clearError_shown (s : State) : (clearError s).shown = s.shown := rfl
@[simp] theorem clearError_events (s : State) : (clearError s).events = s.events := rfl
@[simp] theorem clearError_resp (s : State) : (clearError s).resp = s.resp := rfl
@[simp] theorem clearError_draws (s : State) : (clearError s).draws = s.draws := rfl
@[simp] theorem clearError_peeks (s : State) : (clearError s).peeks = s.peeks := rfl

/-! ### discardKernel -/

@[simp] theorem discardKernel_params (s : State) : (discardKernel s).params = s.params := rfl
@[simp] theorem discardKernel_held (s : State) : (discardKernel s).held = s.held := rfl
@[simp] theorem discardKernel_done (s : State) : (discardKernel s).done = s.done := rfl
@[simp] theorem discardKernel_err (s : State) : (discardKernel s).err = s.err := rfl
@[simp] theorem discardKernel_drop (s : State) : (discardKernel s).drop = s.drop := rfl
@[simp] theorem discardKernel_errCode (s : State) : (discardKernel s).errCode = s.errCode := rfl
@[simp] theorem discardKernel_lastCmd (s : State) : (discardKernel s).lastCmd = s.lastCmd := rfl
@[simp] theorem discardKernel_errInfo (s : State) : (discardKernel s).errInfo = s.errInfo := rfl
@[simp] theorem discardKernel_irqEn (s : State) : (discardKernel s).irqEn = s.irqEn := rfl
@[simp] theorem discardKernel_irqStatus (s : State) : (discardKernel s).irqStatus = s.irqStatus := rfl
@[simp] theorem discardKernel_shape (s : State) : (discardKernel s).shape = s.shape := rfl
@[simp] theorem discardKernel_callRegs (s : State) : (discardKernel s).callRegs = s.callRegs := rfl
@[simp] theorem discardKernel_latched (s : State) : (discardKernel s).latched = s.latched := rfl
@[simp] theorem discardKernel_call (s : State) : (discardKernel s).call = s.call := rfl
@[simp] theorem discardKernel_kernel (s : State) : (discardKernel s).kernel = none := rfl
@[simp] theorem discardKernel_ring (s : State) : (discardKernel s).ring = invalidateTags s.ring := rfl
@[simp] theorem discardKernel_rctx (s : State) : (discardKernel s).rctx = none := rfl
@[simp] theorem discardKernel_acc (s : State) : (discardKernel s).acc = s.acc := rfl
@[simp] theorem discardKernel_mem (s : State) : (discardKernel s).mem = s.mem := rfl
@[simp] theorem discardKernel_rst (s : State) : (discardKernel s).rst = s.rst := rfl
@[simp] theorem discardKernel_port (s : State) : (discardKernel s).port = s.port := rfl
@[simp] theorem discardKernel_races (s : State) : (discardKernel s).races = s.races := rfl
@[simp] theorem discardKernel_shown (s : State) : (discardKernel s).shown = s.shown := rfl
@[simp] theorem discardKernel_events (s : State) : (discardKernel s).events = s.events := rfl
@[simp] theorem discardKernel_resp (s : State) : (discardKernel s).resp = s.resp := rfl
@[simp] theorem discardKernel_draws (s : State) : (discardKernel s).draws = s.draws := rfl
@[simp] theorem discardKernel_peeks (s : State) : (discardKernel s).peeks = s.peeks := rfl

/-! ### takeCommand -/

@[simp] theorem takeCommand_params (w : Word) (s : State) : (takeCommand w s).params = s.params := rfl
@[simp] theorem takeCommand_held (w : Word) (s : State) : (takeCommand w s).held = some w := rfl
@[simp] theorem takeCommand_done (w : Word) (s : State) : (takeCommand w s).done = false := rfl
@[simp] theorem takeCommand_err (w : Word) (s : State) : (takeCommand w s).err = s.err := rfl
@[simp] theorem takeCommand_drop (w : Word) (s : State) : (takeCommand w s).drop = s.drop := rfl
@[simp] theorem takeCommand_errCode (w : Word) (s : State) : (takeCommand w s).errCode = s.errCode := rfl
@[simp] theorem takeCommand_lastCmd (w : Word) (s : State) : (takeCommand w s).lastCmd = opField w := rfl
@[simp] theorem takeCommand_errInfo (w : Word) (s : State) : (takeCommand w s).errInfo = s.errInfo := rfl
@[simp] theorem takeCommand_irqEn (w : Word) (s : State) : (takeCommand w s).irqEn = s.irqEn := rfl
@[simp] theorem takeCommand_irqStatus (w : Word) (s : State) : (takeCommand w s).irqStatus = s.irqStatus := rfl
@[simp] theorem takeCommand_shape (w : Word) (s : State) : (takeCommand w s).shape = s.shape := rfl
@[simp] theorem takeCommand_callRegs (w : Word) (s : State) : (takeCommand w s).callRegs = s.callRegs := rfl
@[simp] theorem takeCommand_latched (w : Word) (s : State) : (takeCommand w s).latched = none := rfl
@[simp] theorem takeCommand_call (w : Word) (s : State) : (takeCommand w s).call = none := rfl
@[simp] theorem takeCommand_kernel (w : Word) (s : State) : (takeCommand w s).kernel = s.kernel := rfl
@[simp] theorem takeCommand_ring (w : Word) (s : State) : (takeCommand w s).ring = s.ring := rfl
@[simp] theorem takeCommand_rctx (w : Word) (s : State) : (takeCommand w s).rctx = s.rctx := rfl
@[simp] theorem takeCommand_acc (w : Word) (s : State) : (takeCommand w s).acc = s.acc := rfl
@[simp] theorem takeCommand_mem (w : Word) (s : State) : (takeCommand w s).mem = s.mem := rfl
@[simp] theorem takeCommand_rst (w : Word) (s : State) : (takeCommand w s).rst = s.rst := rfl
@[simp] theorem takeCommand_port (w : Word) (s : State) : (takeCommand w s).port = s.port := rfl
@[simp] theorem takeCommand_races (w : Word) (s : State) : (takeCommand w s).races = [] := rfl
@[simp] theorem takeCommand_shown (w : Word) (s : State) : (takeCommand w s).shown = [] := rfl
@[simp] theorem takeCommand_events (w : Word) (s : State) : (takeCommand w s).events = s.events := rfl
@[simp] theorem takeCommand_resp (w : Word) (s : State) : (takeCommand w s).resp = s.resp := rfl
@[simp] theorem takeCommand_draws (w : Word) (s : State) : (takeCommand w s).draws = s.draws := rfl
@[simp] theorem takeCommand_peeks (w : Word) (s : State) : (takeCommand w s).peeks = s.peeks := rfl

/-! ### installKernel -/

@[simp] theorem installKernel_params (K : Kernel) (s : State) : (installKernel K s).params = s.params := rfl
@[simp] theorem installKernel_held (K : Kernel) (s : State) : (installKernel K s).held = s.held := rfl
@[simp] theorem installKernel_done (K : Kernel) (s : State) : (installKernel K s).done = s.done := rfl
@[simp] theorem installKernel_err (K : Kernel) (s : State) : (installKernel K s).err = s.err := rfl
@[simp] theorem installKernel_drop (K : Kernel) (s : State) : (installKernel K s).drop = s.drop := rfl
@[simp] theorem installKernel_errCode (K : Kernel) (s : State) : (installKernel K s).errCode = s.errCode := rfl
@[simp] theorem installKernel_lastCmd (K : Kernel) (s : State) : (installKernel K s).lastCmd = s.lastCmd := rfl
@[simp] theorem installKernel_errInfo (K : Kernel) (s : State) : (installKernel K s).errInfo = s.errInfo := rfl
@[simp] theorem installKernel_irqEn (K : Kernel) (s : State) : (installKernel K s).irqEn = s.irqEn := rfl
@[simp] theorem installKernel_irqStatus (K : Kernel) (s : State) : (installKernel K s).irqStatus = s.irqStatus := rfl
@[simp] theorem installKernel_shape (K : Kernel) (s : State) : (installKernel K s).shape = s.shape := rfl
@[simp] theorem installKernel_callRegs (K : Kernel) (s : State) : (installKernel K s).callRegs = s.callRegs := rfl
@[simp] theorem installKernel_latched (K : Kernel) (s : State) : (installKernel K s).latched = s.latched := rfl
@[simp] theorem installKernel_call (K : Kernel) (s : State) : (installKernel K s).call = s.call := rfl
@[simp] theorem installKernel_kernel (K : Kernel) (s : State) : (installKernel K s).kernel = some K := rfl
@[simp] theorem installKernel_ring (K : Kernel) (s : State) : (installKernel K s).ring = K.emptySlots := rfl
@[simp] theorem installKernel_rctx (K : Kernel) (s : State) : (installKernel K s).rctx = s.rctx := rfl
@[simp] theorem installKernel_acc (K : Kernel) (s : State) : (installKernel K s).acc = s.acc := rfl
@[simp] theorem installKernel_mem (K : Kernel) (s : State) : (installKernel K s).mem = s.mem := rfl
@[simp] theorem installKernel_rst (K : Kernel) (s : State) : (installKernel K s).rst = s.rst := rfl
@[simp] theorem installKernel_port (K : Kernel) (s : State) : (installKernel K s).port = s.port := rfl
@[simp] theorem installKernel_races (K : Kernel) (s : State) : (installKernel K s).races = s.races := rfl
@[simp] theorem installKernel_shown (K : Kernel) (s : State) : (installKernel K s).shown = s.shown := rfl
@[simp] theorem installKernel_events (K : Kernel) (s : State) : (installKernel K s).events = s.events := rfl
@[simp] theorem installKernel_resp (K : Kernel) (s : State) : (installKernel K s).resp = s.resp := rfl
@[simp] theorem installKernel_draws (K : Kernel) (s : State) : (installKernel K s).draws = s.draws := rfl
@[simp] theorem installKernel_peeks (K : Kernel) (s : State) : (installKernel K s).peeks = s.peeks := rfl

/-! ### enterContext -/

@[simp] theorem enterContext_params (s : State) (I : CallRegs) : (enterContext s I).params = s.params := rfl
@[simp] theorem enterContext_held (s : State) (I : CallRegs) : (enterContext s I).held = s.held := rfl
@[simp] theorem enterContext_done (s : State) (I : CallRegs) : (enterContext s I).done = s.done := rfl
@[simp] theorem enterContext_err (s : State) (I : CallRegs) : (enterContext s I).err = s.err := rfl
@[simp] theorem enterContext_drop (s : State) (I : CallRegs) : (enterContext s I).drop = s.drop := rfl
@[simp] theorem enterContext_errCode (s : State) (I : CallRegs) : (enterContext s I).errCode = s.errCode := rfl
@[simp] theorem enterContext_lastCmd (s : State) (I : CallRegs) : (enterContext s I).lastCmd = s.lastCmd := rfl
@[simp] theorem enterContext_errInfo (s : State) (I : CallRegs) : (enterContext s I).errInfo = s.errInfo := rfl
@[simp] theorem enterContext_irqEn (s : State) (I : CallRegs) : (enterContext s I).irqEn = s.irqEn := rfl
@[simp] theorem enterContext_irqStatus (s : State) (I : CallRegs) : (enterContext s I).irqStatus = s.irqStatus := rfl
@[simp] theorem enterContext_shape (s : State) (I : CallRegs) : (enterContext s I).shape = s.shape := rfl
@[simp] theorem enterContext_callRegs (s : State) (I : CallRegs) : (enterContext s I).callRegs = s.callRegs := rfl
@[simp] theorem enterContext_latched (s : State) (I : CallRegs) : (enterContext s I).latched = s.latched := rfl
@[simp] theorem enterContext_call (s : State) (I : CallRegs) : (enterContext s I).call = s.call := rfl
@[simp] theorem enterContext_kernel (s : State) (I : CallRegs) : (enterContext s I).kernel = s.kernel := rfl
@[simp] theorem enterContext_ring (s : State) (I : CallRegs) : (enterContext s I).ring = ringFor s I := rfl
@[simp] theorem enterContext_rctx (s : State) (I : CallRegs) : (enterContext s I).rctx = some I.ringCtx := rfl
@[simp] theorem enterContext_acc (s : State) (I : CallRegs) : (enterContext s I).acc = s.acc := rfl
@[simp] theorem enterContext_mem (s : State) (I : CallRegs) : (enterContext s I).mem = s.mem := rfl
@[simp] theorem enterContext_rst (s : State) (I : CallRegs) : (enterContext s I).rst = s.rst := rfl
@[simp] theorem enterContext_port (s : State) (I : CallRegs) : (enterContext s I).port = s.port := rfl
@[simp] theorem enterContext_races (s : State) (I : CallRegs) : (enterContext s I).races = s.races := rfl
@[simp] theorem enterContext_shown (s : State) (I : CallRegs) : (enterContext s I).shown = s.shown := rfl
@[simp] theorem enterContext_events (s : State) (I : CallRegs) : (enterContext s I).events = s.events := rfl
@[simp] theorem enterContext_resp (s : State) (I : CallRegs) : (enterContext s I).resp = s.resp := rfl
@[simp] theorem enterContext_draws (s : State) (I : CallRegs) : (enterContext s I).draws = s.draws := rfl
@[simp] theorem enterContext_peeks (s : State) (I : CallRegs) : (enterContext s I).peeks = s.peeks := rfl

/-! ### resetMachine -/

@[simp] theorem resetMachine_params (s : State) : (resetMachine s).params = s.params := rfl
@[simp] theorem resetMachine_held (s : State) : (resetMachine s).held = State.reset.held := rfl
@[simp] theorem resetMachine_done (s : State) : (resetMachine s).done = State.reset.done := rfl
@[simp] theorem resetMachine_err (s : State) : (resetMachine s).err = State.reset.err := rfl
@[simp] theorem resetMachine_drop (s : State) : (resetMachine s).drop = State.reset.drop := rfl
@[simp] theorem resetMachine_errCode (s : State) : (resetMachine s).errCode = State.reset.errCode := rfl
@[simp] theorem resetMachine_lastCmd (s : State) : (resetMachine s).lastCmd = State.reset.lastCmd := rfl
@[simp] theorem resetMachine_errInfo (s : State) : (resetMachine s).errInfo = State.reset.errInfo := rfl
@[simp] theorem resetMachine_irqEn (s : State) : (resetMachine s).irqEn = State.reset.irqEn := rfl
@[simp] theorem resetMachine_irqStatus (s : State) : (resetMachine s).irqStatus = State.reset.irqStatus := rfl
@[simp] theorem resetMachine_shape (s : State) : (resetMachine s).shape = State.reset.shape := rfl
@[simp] theorem resetMachine_callRegs (s : State) : (resetMachine s).callRegs = State.reset.callRegs := rfl
@[simp] theorem resetMachine_latched (s : State) : (resetMachine s).latched = State.reset.latched := rfl
@[simp] theorem resetMachine_call (s : State) : (resetMachine s).call = State.reset.call := rfl
@[simp] theorem resetMachine_kernel (s : State) : (resetMachine s).kernel = State.reset.kernel := rfl
@[simp] theorem resetMachine_ring (s : State) : (resetMachine s).ring = State.reset.ring := rfl
@[simp] theorem resetMachine_rctx (s : State) : (resetMachine s).rctx = State.reset.rctx := rfl
@[simp] theorem resetMachine_acc (s : State) : (resetMachine s).acc = List.replicate s.params.accN (List.replicate s.params.w 0) := rfl
@[simp] theorem resetMachine_mem (s : State) : (resetMachine s).mem = s.abandonedMem := rfl
@[simp] theorem resetMachine_rst (s : State) : (resetMachine s).rst = s.rst := rfl
@[simp] theorem resetMachine_port (s : State) : (resetMachine s).port = s.port := rfl
@[simp] theorem resetMachine_races (s : State) : (resetMachine s).races = State.reset.races := rfl
@[simp] theorem resetMachine_shown (s : State) : (resetMachine s).shown = State.reset.shown := rfl
@[simp] theorem resetMachine_events (s : State) : (resetMachine s).events = s.events := rfl
@[simp] theorem resetMachine_resp (s : State) : (resetMachine s).resp = s.resp := rfl
@[simp] theorem resetMachine_draws (s : State) : (resetMachine s).draws = s.draws + 1 := rfl
@[simp] theorem resetMachine_peeks (s : State) : (resetMachine s).peeks = s.peeks := rfl

/-! ### hostStore -/

@[simp] theorem hostStore_params (a : Nat) (v : Byte) (s : State) : (hostStore a v s).params = s.params := rfl
@[simp] theorem hostStore_held (a : Nat) (v : Byte) (s : State) : (hostStore a v s).held = s.held := rfl
@[simp] theorem hostStore_done (a : Nat) (v : Byte) (s : State) : (hostStore a v s).done = s.done := rfl
@[simp] theorem hostStore_err (a : Nat) (v : Byte) (s : State) : (hostStore a v s).err = s.err := rfl
@[simp] theorem hostStore_drop (a : Nat) (v : Byte) (s : State) : (hostStore a v s).drop = s.drop := rfl
@[simp] theorem hostStore_errCode (a : Nat) (v : Byte) (s : State) : (hostStore a v s).errCode = s.errCode := rfl
@[simp] theorem hostStore_lastCmd (a : Nat) (v : Byte) (s : State) : (hostStore a v s).lastCmd = s.lastCmd := rfl
@[simp] theorem hostStore_errInfo (a : Nat) (v : Byte) (s : State) : (hostStore a v s).errInfo = s.errInfo := rfl
@[simp] theorem hostStore_irqEn (a : Nat) (v : Byte) (s : State) : (hostStore a v s).irqEn = s.irqEn := rfl
@[simp] theorem hostStore_irqStatus (a : Nat) (v : Byte) (s : State) : (hostStore a v s).irqStatus = s.irqStatus := rfl
@[simp] theorem hostStore_shape (a : Nat) (v : Byte) (s : State) : (hostStore a v s).shape = s.shape := rfl
@[simp] theorem hostStore_callRegs (a : Nat) (v : Byte) (s : State) : (hostStore a v s).callRegs = s.callRegs := rfl
@[simp] theorem hostStore_latched (a : Nat) (v : Byte) (s : State) : (hostStore a v s).latched = s.latched := rfl
@[simp] theorem hostStore_call (a : Nat) (v : Byte) (s : State) : (hostStore a v s).call = s.call := rfl
@[simp] theorem hostStore_kernel (a : Nat) (v : Byte) (s : State) : (hostStore a v s).kernel = s.kernel := rfl
@[simp] theorem hostStore_ring (a : Nat) (v : Byte) (s : State) : (hostStore a v s).ring = s.ring := rfl
@[simp] theorem hostStore_rctx (a : Nat) (v : Byte) (s : State) : (hostStore a v s).rctx = s.rctx := rfl
@[simp] theorem hostStore_acc (a : Nat) (v : Byte) (s : State) : (hostStore a v s).acc = s.acc := rfl
@[simp] theorem hostStore_mem (a : Nat) (v : Byte) (s : State) : (hostStore a v s).mem = s.mem.write a v := rfl
@[simp] theorem hostStore_rst (a : Nat) (v : Byte) (s : State) : (hostStore a v s).rst = s.rst := rfl
@[simp] theorem hostStore_port (a : Nat) (v : Byte) (s : State) : (hostStore a v s).port = s.port := rfl
@[simp] theorem hostStore_races (a : Nat) (v : Byte) (s : State) : (hostStore a v s).races = if s.busy then s.races ++ [⟨a, s.mem.read a, v⟩] else s.races := rfl
@[simp] theorem hostStore_shown (a : Nat) (v : Byte) (s : State) : (hostStore a v s).shown = s.shown := rfl
@[simp] theorem hostStore_events (a : Nat) (v : Byte) (s : State) : (hostStore a v s).events = s.events := rfl
@[simp] theorem hostStore_resp (a : Nat) (v : Byte) (s : State) : (hostStore a v s).resp = s.resp := rfl
@[simp] theorem hostStore_draws (a : Nat) (v : Byte) (s : State) : (hostStore a v s).draws = s.draws := rfl
@[simp] theorem hostStore_peeks (a : Nat) (v : Byte) (s : State) : (hostStore a v s).peeks = s.peeks := rfl

end Sys2Proof.Machine
end

