-- ==== Sys2Proof/Laws/Ops.lean ====
section
/-!
SUPPORT. What the shared operations can do, said once: the checks in order, the ring's tags, the port's answer, the
engine's reads, acceptance, the register port and the engine's turn.
-/

namespace Sys2Proof.Machine

/-! ### Checks in order -/

/-- No check fails: no error. -/
theorem firstError_none {l : List Check} : firstError l = none ↔ ∀ c ∈ l, c.1 = false := by
  induction l with
  | nil => simp [firstError]
  | cons c rest ih =>
    obtain ⟨b, code, info⟩ := c
    cases b <;> simp [firstError, ih]

/-- The error is that of the first check that fails. -/
theorem firstError_some {l : List Check} {code : ErrorCode} {info : Word} :
    firstError l = some (code, info) ↔
      ∃ pre post, l = pre ++ (true, code, info) :: post ∧ ∀ c ∈ pre, c.1 = false := by
  induction l with
  | nil => simp [firstError]
  | cons c rest ih =>
    obtain ⟨b, code', info'⟩ := c
    cases b with
    | true =>
      constructor
      · intro h
        simp only [firstError, if_true, Option.some.injEq, Prod.mk.injEq] at h
        exact ⟨[], rest, by simp [h.1, h.2], by simp⟩
      · rintro ⟨pre, post, h, hp⟩
        cases pre with
        | nil => simp at h; simp [firstError, h]
        | cons x xs =>
          simp only [List.cons_append, List.cons.injEq] at h
          have := hp x (by simp)
          rw [← h.1] at this
          simp at this
    | false =>
      simp only [firstError, Bool.false_eq_true, if_false, ih]
      constructor
      · rintro ⟨pre, post, h, hp⟩
        exact ⟨_ :: pre, post, by rw [h]; rfl, by simpa using hp⟩
      · rintro ⟨pre, post, h, hp⟩
        cases pre with
        | nil => simp at h
        | cons x xs =>
          simp only [List.cons_append, List.cons.injEq] at h
          exact ⟨xs, post, h.2, fun c hc => hp c (by simp [hc])⟩

/-- An error that is raised is one of the list's. -/
theorem firstError_mem {l : List Check} {code : ErrorCode} {info : Word} (h : firstError l = some (code, info)) :
    (true, code, info) ∈ l := by
  obtain ⟨pre, post, h, -⟩ := firstError_some.1 h
  simp [h]

/-! ### The ring's tags -/

@[simp] theorem invalidateTags_length (ring : List Slot) : (invalidateTags ring).length = ring.length := by
  simp [invalidateTags]

/-- No slot of an emptied ring holds a row. -/
@[simp] theorem tagAt_invalidateTags (ring : List Slot) (i : Nat) : tagAt (invalidateTags ring) i = none := by
  unfold tagAt invalidateTags
  rw [List.getElem?_map]
  cases ring[i]? <;> rfl

/-- Emptying a ring keeps every payload. -/
theorem lanes_invalidateTags (ring : List Slot) (i : Nat) :
    ((invalidateTags ring)[i]?).map Slot.lanes = (ring[i]?).map Slot.lanes := by
  unfold invalidateTags
  rw [List.getElem?_map]
  cases ring[i]? <;> rfl

@[simp] theorem emptySlots_length (K : Kernel) : K.emptySlots.length = K.bufH := by simp [Kernel.emptySlots]

/-- No slot of a new kernel object's ring holds a row. -/
@[simp] theorem tagAt_emptySlots (K : Kernel) (i : Nat) : tagAt K.emptySlots i = none := by
  unfold tagAt Kernel.emptySlots
  rw [List.getElem?_replicate]
  split <;> rfl

@[simp] theorem tagAt_nil (i : Nat) : tagAt [] i = none := by simp [tagAt]

/-- A slot after its fill, and every other slot. -/
theorem tagAt_set (ring : List Slot) (i j : Nat) (x : Slot) :
    tagAt (ring.set i x) j = if i = j ∧ j < ring.length then x.tag else tagAt ring j := by
  unfold tagAt
  rw [List.getElem?_set]
  by_cases h : i = j
  · subst h
    by_cases hl : i < ring.length
    · simp [hl]
    · simp [hl]
  · simp [h]

@[simp] theorem fillSlot_length (K : Kernel) (w : Nat) (zp : Byte) (src : Source) (ring : List Slot) (by_ : Nat) :
    (K.fillSlot w zp src ring by_).length = ring.length := by simp [Kernel.fillSlot]

@[simp] theorem fillRows_length (K : Kernel) (w : Nat) (zp : Byte) (src : Source) (ring : List Slot)
    (rows : List Nat) : (K.fillRows w zp src ring rows).length = ring.length := by
  unfold Kernel.fillRows
  induction rows generalizing ring with
  | nil => rfl
  | cons r rest ih => simpa using ih (K.fillSlot w zp src ring r)

/-! ### The data port -/

/-- Undisturbed, a byte reads as the data space holds it (R75). -/
theorem engineByte_quiet {s : State} {a : Nat} (h : ∀ r ∈ s.races, r.address ≠ a) (k : Nat) :
    s.engineByte k a = s.mem.read a := by
  unfold State.engineByte
  rw [List.filter_eq_nil_iff.2 (by simpa using h)]

/-- Undisturbed, a byte the engine writes holds what it wrote. -/
theorem settled_quiet {s : State} {a : Nat} (h : ∀ r ∈ s.races, r.address ≠ a) (v : Byte) : s.settled a v = v := by
  unfold State.settled
  rw [if_neg (by simpa using h)]

/-- A byte the host did not write during the command is as it was at acceptance. -/
theorem acceptedByte_quiet {s : State} {a : Nat} (h : ∀ r ∈ s.races, r.address ≠ a) : s.acceptedByte a = s.mem.read a := by
  unfold State.acceptedByte
  rw [List.filter_eq_nil_iff.mpr (by simpa using h)]

/-- A command whose source the host leaves alone writes what it computes, whatever was shown of it. -/
theorem keepShown_quiet {s : State} {base n : Nat} (h : s.races.any (fun r => inRegion base n r.address) = false)
    (a : Nat) (vs : List Byte) : s.keepShown base n a vs = vs := by simp [State.keepShown, h]

@[simp] theorem keepShown_length (s : State) (base n a : Nat) (vs : List Byte) :
    (s.keepShown base n a vs).length = vs.length := by
  unfold State.keepShown
  split <;> simp

/-- Every access answered with data: no bus error and no wait. -/
theorem portAnswer_data {s : State} {hits : PortFault → List Nat} (h : ∀ f ∈ s.port, hits f = []) :
    s.portAnswer hits = .data := by
  have h1 : ∀ p : PortFault → Bool, (s.port.filter p).flatMap hits = [] := fun p =>
    List.flatMap_eq_nil_iff.2 fun f hf => h f (List.mem_filter.1 hf).1
  unfold State.portAnswer
  rw [h1, h1]

theorem reported_mem (draw first : Nat) (others : List Nat) : reported draw first others ∈ first :: others := by
  unfold reported
  split
  · simp
  · rw [List.getD_eq_getElem?_getD, List.getElem?_eq_getElem (by simpa using Nat.mod_lt _ (Nat.succ_pos _))]
    exact List.getElem_mem _

/-- A reported address is that of an access that failed (R150). -/
theorem portAnswer_error {s : State} {hits : PortFault → List Nat} {a : Nat} (h : s.portAnswer hits = .error a) :
    ∃ f ∈ s.port, f.silent = false ∧ a ∈ hits f := by
  unfold State.portAnswer at h
  split at h
  · cases h
  · cases h
  · rename_i b bs he _
    injection h with h
    have hm := reported_mem s.draws b bs
    rw [h, ← he] at hm
    obtain ⟨f, hf, ha⟩ := List.mem_flatMap.1 hm
    obtain ⟨h1, h2⟩ := List.mem_filter.1 hf
    exact ⟨f, h1, by simpa using h2, ha⟩
  · rename_i b bs _ _ he _
    split at h
    · cases h
    · injection h with h
      have hm := reported_mem s.draws b bs
      rw [h, ← he] at hm
      obtain ⟨f, hf, ha⟩ := List.mem_flatMap.1 hm
      obtain ⟨h1, h2⟩ := List.mem_filter.1 hf
      exact ⟨f, h1, by simpa using h2, ha⟩

/-- The engine waits only for an access that is never answered (R152). -/
theorem portAnswer_waiting {s : State} {hits : PortFault → List Nat} (h : s.portAnswer hits = .waiting) :
    ∃ f ∈ s.port, f.silent = true ∧ hits f ≠ [] := by
  have key : ∀ b bs, (s.port.filter fun f => f.silent).flatMap hits = b :: bs →
      ∃ f ∈ s.port, f.silent = true ∧ hits f ≠ [] := by
    intro b bs he
    have hm : b ∈ (s.port.filter fun f => f.silent).flatMap hits := by rw [he]; simp
    obtain ⟨f, hf, ha⟩ := List.mem_flatMap.1 hm
    obtain ⟨h1, h2⟩ := List.mem_filter.1 hf
    exact ⟨f, h1, h2, List.ne_nil_of_mem ha⟩
  unfold State.portAnswer at h
  split at h
  · cases h
  · rename_i b bs _ he
    exact key b bs he
  · cases h
  · rename_i _ _ b bs _ he
    exact key b bs he

/-- With every access answered, one of which fails, the answer is a bus error (R150, R152). -/
theorem portAnswer_fails {s : State} {hits : PortFault → List Nat} (hs : ∀ f ∈ s.port, f.silent = false)
    {f : PortFault} (hf : f ∈ s.port) (hh : hits f ≠ []) : ∃ a, s.portAnswer hits = .error a := by
  have h1 : (s.port.filter fun f => f.silent) = [] := List.filter_eq_nil_iff.2 (by simpa using hs)
  unfold State.portAnswer
  rw [h1]
  split
  · rename_i he _
    have := List.flatMap_eq_nil_iff.1 he f (List.mem_filter.2 ⟨hf, by simp [hs f hf]⟩)
    exact absurd this hh
  · rename_i he
    simp at he
  · exact ⟨_, rfl⟩
  · rename_i he
    simp at he

/-- A command that makes no access is answered. -/
@[simp] theorem portAnswer_noAccess (s : State) : s.portAnswer noAccess = .data := portAnswer_data fun _ _ => rfl

/-! ### Acceptance -/

/-- All a write of CMD can do (R145, R146). -/
theorem submitCommand_cases (w : Word) (s : State) :
    ((s.busy = true ∨ (s.err = true ∧ w ≠ encode .clrerr)) ∧ submitCommand w s = { s with drop := true })
      ∨ (s.busy = false ∧ (s.err = false ∨ w = encode .clrerr) ∧ submitCommand w s = acceptCommand w s) := by
  unfold submitCommand
  by_cases hb : s.busy = true
  · exact .inl ⟨.inl hb, if_pos hb⟩
  · rw [if_neg hb]
    by_cases he : (s.err && w != encode .clrerr) = true
    · exact .inl ⟨.inr (by simpa using he), if_pos he⟩
    · refine .inr ⟨by simpa using hb, ?_, if_neg he⟩
      cases h : s.err
      · exact .inl rfl
      · exact .inr (by simpa [h] using he)

/-- Acceptance of a legal word (R145). -/
theorem acceptCommand_legal {w : Word} {i : Instr} (h : decode w = .ok i) (s : State) :
    acceptCommand w s = latchCommand w s := by
  unfold acceptCommand
  rw [h]

/-- Acceptance of an illegal word (R84). -/
theorem acceptCommand_illegal {w : Word} {r : Reject} (h : decode w = .error r) (s : State) :
    acceptCommand w s = raiseError .cmdIllegal w (takeCommand w s) := by
  unfold acceptCommand latchCommand
  rw [h]

/-! ### The register port -/

/-- All an access of the register window can do (R21, R162). -/
theorem portAccess_cases (a : PortAccess) (e : Word) (s : State) :
    (s.rst = true ∧ portAccess a e s = { s with resp := .unanswered })
      ∨ (s.rst = false ∧ accessLegal a.offset a.bytes = false ∧ portAccess a e s = { s with resp := .slaveError })
      ∨ (s.rst = false ∧ accessLegal a.offset a.bytes = true ∧
          ((∃ v r, a.op = .write v ∧ regAt a.offset = some r
              ∧ portAccess a e s = { writeReg s v e r with resp := .written })
            ∨ ∃ x, portAccess a e s = { s with resp := x })) := by
  unfold portAccess
  cases hr : s.rst
  · cases hl : accessLegal a.offset a.bytes
    · exact .inr (.inl ⟨rfl, rfl, by simp⟩)
    · refine .inr (.inr ⟨rfl, rfl, ?_⟩)
      cases ho : a.op <;> cases hg : regAt a.offset
      · exact .inr ⟨_, by simp; rfl⟩
      · exact .inr ⟨_, by simp; rfl⟩
      · exact .inr ⟨_, by simp; rfl⟩
      · exact .inl ⟨_, _, rfl, rfl, by simp⟩
  · exact .inl ⟨rfl, by simp⟩

/-- All a register write can do: nothing, a soft reset, a clear of DROP, a command, or a change of host registers. -/
theorem writeReg_cases (s : State) (v e : Word) (r : Reg) :
    writeReg s v e r = s
      ∨ (r = .ctrl ∧ v.getLsbD 0 = true ∧ writeReg s v e r = resetMachine s)
      ∨ (r = .status ∧ writeReg s v e r = { s with drop := false })
      ∨ (r = .cmd ∧ writeReg s v e r = submitCommand v s)
      ∨ ∃ en is sh cr, writeReg s v e r = { s with irqEn := en, irqStatus := is, shape := sh, callRegs := cr } := by
  cases r with
  | ctrl =>
    by_cases h : v.getLsbD 0 = true
    · exact .inr (.inl ⟨rfl, h, if_pos h⟩)
    · exact .inl (if_neg h)
  | status =>
    by_cases h : v.getLsbD 5 = true
    · exact .inr (.inr (.inl ⟨rfl, if_pos h⟩))
    · exact .inl (if_neg h)
  | cmd => exact .inr (.inr (.inr (.inl ⟨rfl, rfl⟩)))
  | id => exact .inl rfl
  | version => exact .inl rfl
  | params0 => exact .inl rfl
  | params1 => exact .inl rfl
  | errinfo => exact .inl rfl
  | dstShape => exact .inl rfl
  | layout => exact .inl rfl
  | bufw => exact .inl rfl
  | irqEn => exact .inr (.inr (.inr (.inr ⟨_, _, _, _, rfl⟩)))
  | irqStatus => exact .inr (.inr (.inr (.inr ⟨_, _, _, _, rfl⟩)))
  | shapeSrc => exact .inr (.inr (.inr (.inr ⟨_, _, _, _, rfl⟩)))
  | shapeC => exact .inr (.inr (.inr (.inr ⟨_, _, _, _, rfl⟩)))
  | kernel => exact .inr (.inr (.inr (.inr ⟨_, _, _, _, rfl⟩)))
  | dil => exact .inr (.inr (.inr (.inr ⟨_, _, _, _, rfl⟩)))
  | pad => exact .inr (.inr (.inr (.inr ⟨_, _, _, _, rfl⟩)))
  | mode => exact .inr (.inr (.inr (.inr ⟨_, _, _, _, rfl⟩)))
  | wgtBase => exact .inr (.inr (.inr (.inr ⟨_, _, _, _, rfl⟩)))
  | biasBase => exact .inr (.inr (.inr (.inr ⟨_, _, _, _, rfl⟩)))
  | scaleBase => exact .inr (.inr (.inr (.inr ⟨_, _, _, _, rfl⟩)))
  | srcBase => exact .inr (.inr (.inr (.inr ⟨_, _, _, _, rfl⟩)))
  | dstBase => exact .inr (.inr (.inr (.inr ⟨_, _, _, _, rfl⟩)))
  | srcZp => exact .inr (.inr (.inr (.inr ⟨_, _, _, _, rfl⟩)))
  | dstZp => exact .inr (.inr (.inr (.inr ⟨_, _, _, _, rfl⟩)))
  | rows => exact .inr (.inr (.inr (.inr ⟨_, _, _, _, rfl⟩)))

/-! ### The host's direct reads, and `rst` -/

/-- A direct read of a byte the running command does not write (R57). -/
theorem hostLoad_plain {a : Nat} {s : State} (h : s.pendingByte a = none) :
    hostLoad a s = { s with resp := .byte (s.mem.read a) } := by simp [hostLoad, h]

/-- A direct read of a byte the running command writes shows the byte as it was, or shows what is written (R75). -/
theorem hostLoad_raced {a : Nat} {s : State} {u : Byte} (h : s.pendingByte a = some u) :
    hostLoad a s = { s with resp := .byte (s.acceptedByte a), peeks := s.peeks + 1 }
      ∨ hostLoad a s = { s with resp := .byte u, shown := (a, u) :: s.shown, peeks := s.peeks + 1 } := by
  cases hn : Config.racedSeen s.draws s.peeks
  · exact .inl (by simp [hostLoad, h, hn])
  · exact .inr (by simp [hostLoad, h, hn])

/-- All a direct read changes. -/
theorem hostLoad_changes (a : Nat) (s : State) :
    ∃ x l n, hostLoad a s = { s with resp := x, shown := l, peeks := n } := by
  cases h : s.pendingByte a with
  | none => exact ⟨_, s.shown, s.peeks, hostLoad_plain h⟩
  | some u =>
    rcases hostLoad_raced h with e | e
    · exact ⟨_, s.shown, _, e⟩
    · exact ⟨_, _, _, e⟩

/-- All the platform's drive of `rst` does: nothing at the level it has, else a reset (R162). -/
theorem driveReset_cases (b : Bool) (s : State) :
    (b = s.rst ∧ driveReset b s = s) ∨ (b ≠ s.rst ∧ driveReset b s = { resetMachine s with rst := b }) := by
  by_cases h : b = s.rst
  · exact .inl ⟨h, if_pos h⟩
  · exact .inr ⟨h, if_neg h⟩

/-! ### The engine's turn -/

/-- Idle, or held in reset, the engine does nothing. -/
theorem engineTurn_idle {s : State} (h : s.rst = true ∨ s.held = none) : engineTurn s = .next s := by
  unfold engineTurn
  rcases h with h | h
  · simp [h]
  · simp [h]

/-- The engine runs the command it holds. -/
theorem engineTurn_runs {s : State} {w : Word} {i : Instr} (hr : s.rst = false) (hh : s.held = some w)
    (hd : decode w = .ok i) : engineTurn s = exec i s := by
  unfold engineTurn
  simp [hr, hh, hd]

/-- All the engine's turn can do. -/
theorem engineTurn_cases (s : State) :
    ((s.rst = true ∨ s.held = none) ∧ engineTurn s = .next s)
      ∨ (∃ w i, s.rst = false ∧ s.held = some w ∧ decode w = .ok i ∧ engineTurn s = exec i s)
      ∨ ∃ w r, s.rst = false ∧ s.held = some w ∧ decode w = .error r
          ∧ engineTurn s = .next (raiseError .cmdIllegal w s) := by
  cases hr : s.rst
  · cases hh : s.held with
    | none => exact .inl ⟨.inr rfl, engineTurn_idle (.inr hh)⟩
    | some w =>
      cases hd : decode w with
      | ok i => exact .inr (.inl ⟨w, i, rfl, rfl, hd, engineTurn_runs hr hh hd⟩)
      | error r => exact .inr (.inr ⟨w, r, rfl, rfl, hd, by unfold engineTurn; simp [hr, hh, hd]⟩)
  · exact .inl ⟨.inl rfl, engineTurn_idle (.inl hr)⟩

end Sys2Proof.Machine
end

