-- ==== Sys2Proof/Laws/Ring.lean ====
section
/-!
SUPPORT. What filling the ring can do, said once: the slots after a run of fills, and the lanes of a filled slot.
-/

namespace Sys2Proof.Machine

/-! ### Mixed-radix arithmetic -/

theorem radix_div {a b c : Nat} (h : c < b) : (a * b + c) / b = a := by
  rw [Nat.mul_comm, Nat.mul_add_div (by omega), Nat.div_eq_of_lt h, Nat.add_zero]

theorem radix_mod {a b c : Nat} (h : c < b) : (a * b + c) % b = c := by
  rw [Nat.mul_comm, Nat.mul_add_mod, Nat.mod_eq_of_lt h]

theorem radix_lt {a n b c : Nat} (h : c < b) (ha : a < n) : a * b + c < n * b := by
  have := Nat.mul_le_mul_right b (show a + 1 ≤ n from ha)
  rw [Nat.add_mul] at this
  omega

/-! ### Slots -/

/-- A padded row's slot is one of the ring's. -/
theorem slotOf_lt {K : Kernel} (h : 0 < K.bufH) (by_ : Nat) : K.slotOf by_ < K.bufH := by
  have : K.slotOf by_ ≤ K.bufH - 1 := Nat.and_le_right
  omega

/-- The ring after filling the n rows from b on: a slot that some row maps to holds the largest such row, every other
slot is as before (R101, R104). -/
theorem fillRows_range {K : Kernel} {w : Nat} {zp : Byte} {src : Source} {ring : List Slot} {b n : Nat}
    (h0 : 0 < K.bufH) (hl : ring.length = K.bufH) :
    (∀ by_, b ≤ by_ → by_ < b + n → (∀ b', by_ < b' → b' < b + n → K.slotOf b' ≠ K.slotOf by_) →
        (K.fillRows w zp src ring (List.range' b n))[K.slotOf by_]? = some ⟨some by_, K.payload w zp src by_⟩)
      ∧ ∀ i, (∀ by_, b ≤ by_ → by_ < b + n → K.slotOf by_ ≠ i) →
        (K.fillRows w zp src ring (List.range' b n))[i]? = ring[i]? := by
  induction n with
  | zero => exact ⟨fun by_ h1 h2 => by omega, fun i _ => rfl⟩
  | succ n ih =>
    have hs : K.fillRows w zp src ring (List.range' b (n + 1))
        = K.fillSlot w zp src (K.fillRows w zp src ring (List.range' b n)) (b + n) := by
      simp [Kernel.fillRows, List.range'_concat]
    have hlen : (K.fillRows w zp src ring (List.range' b n)).length = K.bufH := by simp [hl]
    rw [hs]
    unfold Kernel.fillSlot
    constructor
    · intro by_ h1 h2 h3
      by_cases hb : by_ = b + n
      · subst hb
        simp [hlen, slotOf_lt h0]
      · rw [List.getElem?_set_ne (h3 (b + n) (by omega) (by omega))]
        exact ih.1 by_ h1 (by omega) fun b' h4 h5 => h3 b' h4 (by omega)
    · intro i hi
      rw [List.getElem?_set_ne (hi (b + n) (by omega) (by omega))]
      exact ih.2 i fun by_ h1 h2 => hi by_ h1 (by omega)

/-- Within a window no longer than the ring, different rows have different slots. -/
theorem slotOf_inj {K : Kernel} {k : Nat} (hk : K.bufH = 2 ^ k) {a b : Nat} (h : K.slotOf a = K.slotOf b)
    (hab : a < b) : a + K.bufH ≤ b := by
  unfold Kernel.slotOf at h
  rw [hk, Nat.and_two_pow_sub_one_eq_mod, Nat.and_two_pow_sub_one_eq_mod] at h
  rw [hk]
  have h1 := Nat.div_add_mod a (2 ^ k)
  have h2 := Nat.div_add_mod b (2 ^ k)
  have h3 : a / 2 ^ k < b / 2 ^ k := by
    by_contra hc
    have := Nat.mul_le_mul_left (2 ^ k) (Nat.le_of_not_lt hc)
    omega
  have := Nat.mul_le_mul_left (2 ^ k) (show a / 2 ^ k + 1 ≤ b / 2 ^ k from h3)
  rw [Nat.mul_add] at this
  omega

/-! ### Lanes -/

/-- The place of a lane within a slot's payload, and back (R107). -/
theorem laneIndex_spec {K : Kernel} {w px c : Nat} (hw : 0 < w) (hd : K.cpad = ceilDiv K.c w * w) (hp : px < K.pw)
    (hc : c < K.cpad) : K.laneIndex w px c < K.pw * K.cpad ∧ K.laneCoord w (K.laneIndex w px c) = (px, c) := by
  have hm := Nat.mod_lt c hw
  unfold Kernel.laneIndex Kernel.laneCoord
  cases K.reord with
  | rowMajor =>
    simp only []
    rw [radix_div hc, radix_mod hc]
    exact ⟨radix_lt hc hp, rfl⟩
  | channelMajor =>
    simp only []
    have hg : c / w < ceilDiv K.c w := by rw [Nat.div_lt_iff_lt_mul hw, ← hd]; exact hc
    have e : c / w * K.pw * w + px * w + c % w = (c / w * K.pw + px) * w + c % w := by ring
    rw [e, radix_div hm, radix_mod hm, radix_div hp, radix_mod hp, Nat.div_add_mod']
    refine ⟨?_, rfl⟩
    calc _ < (ceilDiv K.c w * K.pw) * w := radix_lt hm (radix_lt hp hg)
      _ = K.pw * K.cpad := by rw [hd]; ring

/-- A lane of a filled slot reads back the value of the fill (R104, R107). -/
theorem ringLane_filled {K : Kernel} {w px c by_ : Nat} {zp : Byte} {src : Source} {ring : List Slot}
    (hw : 0 < w) (hd : K.cpad = ceilDiv K.c w * w) (hp : px < K.pw) (hc : c < K.cpad)
    (h : ring[K.slotOf by_]? = some ⟨some by_, K.payload w zp src by_⟩) :
    K.ringLane w ring by_ px c = K.laneValue zp src by_ px c := by
  obtain ⟨h1, h2⟩ := laneIndex_spec hw hd hp hc
  unfold Kernel.ringLane
  rw [h]
  simp only [Kernel.payload, List.getD_eq_getElem?_getD, List.getElem?_map, List.getElem?_range h1, Option.map_some,
    Option.getD_some, h2]

end Sys2Proof.Machine
end

