-- ==== Sys2Proof/Laws/Convolution.lean ====
section
/-!
SUPPORT. What the sums, the output bytes and RUN's loop are, said once.
-/

namespace Sys2Proof.Machine

/-! ### Sums -/

/-- A chain of additions is a sum. -/
theorem foldl_add_eq_sum {α : Type} (l : List α) (f : α → Word) (a : Word) :
    l.foldl (fun acc t => acc + f t) a = a + (l.map f).sum := by
  induction l generalizing a with
  | nil => simp
  | cons x xs ih => simp [ih, add_assoc]

/-- The taps are the pairs below the two bounds. -/
theorem mem_taps {m n : Nat} {t : Nat × Nat} : t ∈ taps m n ↔ t.1 < m ∧ t.2 < n := by
  unfold taps
  simp only [List.mem_flatMap, List.mem_range, List.mem_map]
  constructor
  · rintro ⟨a, ha, b, hb, rfl⟩
    exact ⟨ha, hb⟩
  · rintro ⟨h1, h2⟩
    exact ⟨t.1, h1, t.2, h2, rfl⟩

theorem taps_length (m n : Nat) : (taps m n).length = m * n := by simp [taps, List.length_flatMap]

/-- RefSum as the sum of its products (R111, R132). -/
theorem refSum_eq_sum (K : Kernel) (src : Source) (dy dx c : Nat) :
    K.refSum src dy dx c = ((taps K.ky K.kx).map fun t =>
      widenSource
          (src (K.tapRead (K.outIndex dy dx c) t.1 t.2) (dy * K.sy + t.1 * K.dily) (dx * K.sx + t.2 * K.dilx) c)
        * widenWeight (K.weight t.1 t.2 c)).sum := by
  unfold Kernel.refSum mac
  rw [foldl_add_eq_sum]
  simp

/-- The halves of a pair (R133). -/
theorem hiHalf_append (a b : BitVec 16) : hiHalf (a ++ b) = a.signExtend 32 := by
  unfold hiHalf
  congr 1
  apply BitVec.eq_of_getLsbD_eq
  intro i hi
  rw [BitVec.getLsbD_extractLsb']
  simp only [hi, decide_true, Bool.true_and]
  exact (BitVec.getLsbD_append (x := a) (y := b)).trans (by simp)

theorem loHalf_append (a b : BitVec 16) : loHalf (a ++ b) = b.signExtend 32 := by
  unfold loHalf
  congr 1
  apply BitVec.eq_of_getLsbD_eq
  intro i hi
  rw [BitVec.getLsbD_extractLsb']
  simp only [hi, decide_true, Bool.true_and]
  exact (BitVec.getLsbD_append (x := a) (y := b)).trans (by simp; omega)

/-! ### Output bytes -/

/-- An output's coordinates, from its linear index (R61). -/
theorem outCoord_outIndex {K : Kernel} {dy dx c : Nat} (h1 : dx < K.dstW) (h2 : c < K.c) :
    K.outCoord (K.outIndex dy dx c) = (dy, dx, c) := by
  unfold Kernel.outCoord Kernel.outIndex
  rw [radix_div h2, radix_mod h2, radix_div h1, radix_mod h1]

@[simp] theorem outBytes_length (s : State) (K : Kernel) (I : CallRegs) (sum : Nat → Nat → Nat → Word) (n k : Nat) :
    (s.outBytes K I sum n k).length = k := by simp [State.outBytes]

/-- The byte of output index n + i (R112). -/
theorem outBytes_getElem? (s : State) (K : Kernel) (I : CallRegs) (sum : Nat → Nat → Nat → Word) {n k i : Nat}
    (h : i < k) : (s.outBytes K I sum n k)[i]?
      = some (s.outByte K I sum (K.outCoord (n + i)).1 (K.outCoord (n + i)).2.1 (K.outCoord (n + i)).2.2) := by
  unfold State.outBytes
  rw [List.getElem?_map, List.getElem?_range' h]
  simp

/-- An output of the rows [b, e) stands within their run of bytes (R61, R112). -/
theorem outIndex_in_rows {K : Kernel} {b e dy dx c : Nat} (hb : b ≤ dy) (he : dy < e) (h1 : dx < K.dstW)
    (h2 : c < K.c) : ∃ i, K.outIndex dy dx c = K.rowsFirst b + i ∧ i < K.rowsCount b e := by
  refine ⟨((dy - b) * K.dstW + dx) * K.c + c, ?_, radix_lt h2 (radix_lt h1 (by omega))⟩
  obtain ⟨d, rfl⟩ : ∃ d, dy = b + d := ⟨dy - b, by omega⟩
  simp only [Kernel.outIndex, Kernel.rowsFirst, Nat.add_sub_cancel_left]
  ring

/-! ### RUN's loop -/

/-- The ring after RUN has filled the padded rows from `lo` up to `hi`. -/
abbrev State.filledTo (s : State) (K : Kernel) (I : CallRegs) (ring : List Slot) (lo hi : Nat) : List Slot :=
  K.fillRows s.params.w I.srcZpByte (s.source K I) ring (List.range' lo (hi - lo))

/-- Filling goes on where it stopped. -/
theorem filledTo_append (s : State) (K : Kernel) (I : CallRegs) (ring : List Slot) {lo mid hi : Nat} (h1 : lo ≤ mid)
    (h2 : mid ≤ hi) :
    K.fillRows s.params.w I.srcZpByte (s.source K I) (s.filledTo K I ring lo mid) (List.range' mid (hi - mid))
      = s.filledTo K I ring lo hi := by
  unfold State.filledTo Kernel.fillRows
  rw [← List.foldl_append]
  congr 1
  have := List.range'_append (s := lo) (m := mid - lo) (n := hi - mid) (step := 1)
  rw [show lo + 1 * (mid - lo) = mid by omega, show mid - lo + (hi - mid) = hi - lo by omega] at this
  exact this

/-- All RUN's loop does (R120): k output rows from b on, with the rows below `next` filled before. Each output row is
computed from the ring filled up to the end of its own window. -/
theorem runRows_spec (s : State) (K : Kernel) (I : CallRegs) (ring : List Slot) (lo k b next : Nat) (h1 : lo ≤ next)
    (h2 : next ≤ b * K.sy + K.extY) :
    (runRows s K I (List.range' b k) (s.filledTo K I ring lo next) next).1
        = s.filledTo K I ring lo (if k = 0 then next else (b + k - 1) * K.sy + K.extY)
      ∧ (runRows s K I (List.range' b k) (s.filledTo K I ring lo next) next).2.length = k * (K.dstW * K.c)
      ∧ ∀ j i, j < k → i < K.dstW * K.c →
        (runRows s K I (List.range' b k) (s.filledTo K I ring lo next) next).2[j * (K.dstW * K.c) + i]?
          = (s.outBytes K I (K.ringSum s.params.w (s.filledTo K I ring lo ((b + j) * K.sy + K.extY)))
              (K.rowsFirst (b + j)) (K.dstW * K.c))[i]? := by
  induction k generalizing b next with
  | zero => simp [runRows]
  | succ k ih =>
    rw [List.range'_succ]
    simp only [runRows]
    rw [filledTo_append s K I ring h1 h2, Nat.max_eq_right h2]
    have h3 : b * K.sy + K.extY ≤ (b + 1) * K.sy + K.extY := by
      have := Nat.mul_le_mul_right K.sy (show b ≤ b + 1 by omega)
      omega
    obtain ⟨r1, r2, r3⟩ := ih (b + 1) (b * K.sy + K.extY) (by omega) h3
    refine ⟨?_, ?_, ?_⟩
    · rw [r1]
      rcases k with _ | k
      · simp
      · have : b + 1 + (k + 1) - 1 = b + (k + 1 + 1) - 1 := by omega
        simp [this]
    · rw [List.length_append, outBytes_length, r2]
      ring
    · intro j i hj hi
      rcases j with _ | j
      · rw [Nat.zero_mul, Nat.zero_add, List.getElem?_append_left (by rw [outBytes_length]; exact hi)]
        rfl
      · have e : (j + 1) * (K.dstW * K.c) + i = K.dstW * K.c + (j * (K.dstW * K.c) + i) := by ring
        rw [e, List.getElem?_append_right (by rw [outBytes_length]; omega), outBytes_length, Nat.add_sub_cancel_left,
          r3 j i (by omega) hi, show b + 1 + j = b + (j + 1) by omega]

end Sys2Proof.Machine
end

