-- ==== Sys2Proof/Laws/Exec.lean ====
section
/-!
SUPPORT. What each command can do, said once: the outcomes of every meaning, with the checks that lead to each.
-/

namespace Sys2Proof.Machine

/-! ### INIT -/

/-- All INIT can do (R90). -/
theorem execInit_cases (s : State) :
    (∃ code info, firstError (initChecks s.params s.initOperands) = some (code, info)
        ∧ execInit s = .next (raiseError code info (discardKernel s)))
      ∨ (firstError (initChecks s.params s.initOperands) = none
        ∧ ((s.portAnswer (initHits s.initOperands) = .data
            ∧ execInit s = .next (complete (installKernel (s.loadKernel s.initOperands) (discardKernel s))))
          ∨ (∃ a, s.portAnswer (initHits s.initOperands) = .error a
            ∧ execInit s = .next (raiseError .bus (BitVec.ofNat 32 a) (discardKernel s)))
          ∨ (s.portAnswer (initHits s.initOperands) = .waiting ∧ execInit s = .next (discardKernel s)))) := by
  unfold execInit
  cases hc : firstError (initChecks s.params s.initOperands) with
  | some e => exact .inl ⟨e.1, e.2, rfl, by simp [hc]⟩
  | none =>
    refine .inr ⟨rfl, ?_⟩
    have hp : (discardKernel s).portAnswer (initHits s.initOperands) = s.portAnswer (initHits s.initOperands) := rfl
    simp only [hc, hp]
    cases s.portAnswer (initHits s.initOperands) with
    | data => exact .inl ⟨rfl, rfl⟩
    | error a => exact .inr (.inl ⟨a, rfl, rfl⟩)
    | waiting => exact .inr (.inr ⟨rfl, rfl⟩)

/-! ### PREPROCESS -/

/-- The ring once PREPROCESS has filled the window (R103, R108). -/
abbrev State.filledRing (s : State) (K : Kernel) (I : CallRegs) : List Slot :=
  K.fillRows s.params.w I.srcZpByte (s.source K I) (ringFor s I) (K.window I.dyBeg I.dyEnd)

/-- All PREPROCESS can do (R101). -/
theorem execPreprocess_cases (s : State) :
    (s.kernel = none ∧ execPreprocess s = .next (raiseError .notReady (encode .preprocess) s))
      ∨ ∃ K, s.kernel = some K ∧
        ((∃ code info, firstError (preprocessChecks s.params K s.invocation) = some (code, info)
            ∧ execPreprocess s = .next (raiseError code info s))
          ∨ (firstError (preprocessChecks s.params K s.invocation) = none
            ∧ (((s.invocation.dyBeg = s.invocation.dyEnd ∨ K.var = .v0) ∧ execPreprocess s = .next (complete s))
              ∨ (s.invocation.dyBeg ≠ s.invocation.dyEnd ∧ K.var ≠ .v0
                ∧ ((s.portAnswer (fillHits s.draws K s.invocation s.invocation.dyBeg s.invocation.dyEnd) = .data
                    ∧ execPreprocess s
                      = .next (complete { enterContext s s.invocation with ring := s.filledRing K s.invocation }))
                  ∨ (∃ a, s.portAnswer (fillHits s.draws K s.invocation s.invocation.dyBeg s.invocation.dyEnd) = .error a
                    ∧ execPreprocess s
                      = .next (raiseError .bus (BitVec.ofNat 32 a) (enterContext s s.invocation)))
                  ∨ (s.portAnswer (fillHits s.draws K s.invocation s.invocation.dyBeg s.invocation.dyEnd) = .waiting
                    ∧ execPreprocess s = .next (enterContext s s.invocation))))))) := by
  unfold execPreprocess
  cases hk : s.kernel with
  | none => exact .inl ⟨rfl, rfl⟩
  | some K =>
    refine .inr ⟨K, rfl, ?_⟩
    cases hc : firstError (preprocessChecks s.params K s.invocation) with
    | some e => exact .inl ⟨e.1, e.2, rfl, by simp [hc]⟩
    | none =>
      refine .inr ⟨rfl, ?_⟩
      by_cases he : s.invocation.dyBeg = s.invocation.dyEnd ∨ K.var = .v0
      · exact .inl ⟨he, by simp [hc, he]⟩
      · have he' := not_or.1 he
        refine .inr ⟨he'.1, he'.2, ?_⟩
        simp only [hc, if_neg he]
        cases s.portAnswer (fillHits s.draws K s.invocation s.invocation.dyBeg s.invocation.dyEnd) with
        | data => exact .inl ⟨rfl, rfl⟩
        | error a => exact .inr (.inl ⟨a, rfl, rfl⟩)
        | waiting => exact .inr (.inr ⟨rfl, rfl⟩)

/-! ### COMPUTE and RUN -/

/-- All a plan can come to (R112, R122). -/
theorem finishPlan_cases (s : State) (P : Plan) :
    (s.portAnswer P.hits = .data
        ∧ finishPlan s P = .next (complete { s with
            mem := s.storedBytes s.settled P.first P.values, ring := P.ring, rctx := P.rctx, acc := s.accAfter P }))
      ∨ (∃ a, s.portAnswer P.hits = .error a
        ∧ finishPlan s P = .next (raiseError .bus (BitVec.ofNat 32 a) { s with mem := s.partialMem P, acc := s.accAfter P }))
      ∨ (s.portAnswer P.hits = .waiting ∧ finishPlan s P = .next { s with
            ring := P.started, rctx := P.rctx, acc := s.accAfter P }) := by
  unfold finishPlan
  cases s.portAnswer P.hits with
  | data => exact .inl ⟨rfl, rfl⟩
  | error a => exact .inr (.inl ⟨a, rfl, rfl⟩)
  | waiting => exact .inr (.inr ⟨rfl, rfl⟩)

/-- The plans of COMPUTE (R116, R118, R119). -/
theorem computePlan_cases (s : State) :
    (s.kernel = none ∧ computePlan s = .error (.notReady, encode .compute))
      ∨ ∃ K, s.kernel = some K ∧
        ((∃ e, firstError (convChecks s.params K s.invocation) = some e ∧ computePlan s = .error e)
          ∨ (firstError (convChecks s.params K s.invocation) = none
            ∧ ((s.invocation.dyBeg = s.invocation.dyEnd ∧ computePlan s = .ok (emptyPlan s s.invocation))
              ∨ (s.invocation.dyBeg ≠ s.invocation.dyEnd
                ∧ ((K.var = .v0 ∧ computePlan s = .ok (directPlan s K s.invocation))
                  ∨ (K.var ≠ .v0
                    ∧ ((∃ info, ringMiss s K s.invocation = some info ∧ computePlan s = .error (.ringMiss, info))
                      ∨ (ringMiss s K s.invocation = none
                        ∧ computePlan s = .ok (ringPlan s K s.invocation))))))))) := by
  unfold computePlan
  cases hk : s.kernel with
  | none => exact .inl ⟨rfl, rfl⟩
  | some K =>
    refine .inr ⟨K, rfl, ?_⟩
    cases hc : firstError (convChecks s.params K s.invocation) with
    | some e => exact .inl ⟨e, rfl, by simp [hc]⟩
    | none =>
      refine .inr ⟨rfl, ?_⟩
      by_cases he : s.invocation.dyBeg = s.invocation.dyEnd
      · exact .inl ⟨he, by simp [hc, he]⟩
      · refine .inr ⟨he, ?_⟩
        by_cases hv : K.var = .v0
        · exact .inl ⟨hv, by simp [hc, he, hv]⟩
        · refine .inr ⟨hv, ?_⟩
          cases hm : ringMiss s K s.invocation with
          | some info => exact .inl ⟨info, rfl, by simp [hc, he, hv, hm]⟩
          | none => exact .inr ⟨rfl, by simp [hc, he, hv, hm]⟩

/-- The plans of RUN (R116, R120). -/
theorem runPlan_cases (s : State) :
    (s.kernel = none ∧ runPlan s = .error (.notReady, encode .run))
      ∨ ∃ K, s.kernel = some K ∧
        ((∃ e, firstError (convChecks s.params K s.invocation) = some e ∧ runPlan s = .error e)
          ∨ (firstError (convChecks s.params K s.invocation) = none
            ∧ ((s.invocation.dyBeg = s.invocation.dyEnd ∧ runPlan s = .ok (emptyPlan s s.invocation))
              ∨ (s.invocation.dyBeg ≠ s.invocation.dyEnd
                ∧ ((K.var = .v0 ∧ runPlan s = .ok (directPlan s K s.invocation))
                  ∨ (K.var ≠ .v0 ∧ runPlan s = .ok (fusedPlan s K s.invocation))))))) := by
  unfold runPlan
  cases hk : s.kernel with
  | none => exact .inl ⟨rfl, rfl⟩
  | some K =>
    refine .inr ⟨K, rfl, ?_⟩
    cases hc : firstError (convChecks s.params K s.invocation) with
    | some e => exact .inl ⟨e, rfl, by simp [hc]⟩
    | none =>
      refine .inr ⟨rfl, ?_⟩
      by_cases he : s.invocation.dyBeg = s.invocation.dyEnd
      · exact .inl ⟨he, by simp [hc, he]⟩
      · refine .inr ⟨he, ?_⟩
        by_cases hv : K.var = .v0
        · exact .inl ⟨hv, by simp [hc, he, hv]⟩
        · exact .inr ⟨hv, by simp [hc, he, hv]⟩

/-- COMPUTE raises the error its checks gave, or carries out its plan. -/
theorem execCompute_cases (s : State) :
    (∃ code info, computePlan s = .error (code, info) ∧ execCompute s = .next (raiseError code info s))
      ∨ ∃ P, computePlan s = .ok P ∧ execCompute s = finishPlan s P := by
  unfold execCompute
  cases h : computePlan s with
  | error e => exact .inl ⟨e.1, e.2, rfl, rfl⟩
  | ok P => exact .inr ⟨P, rfl, rfl⟩

/-- RUN raises the error its checks gave, or carries out its plan. -/
theorem execRun_cases (s : State) :
    (∃ code info, runPlan s = .error (code, info) ∧ execRun s = .next (raiseError code info s))
      ∨ ∃ P, runPlan s = .ok P ∧ execRun s = finishPlan s P := by
  unfold execRun
  cases h : runPlan s with
  | error e => exact .inl ⟨e.1, e.2, rfl, rfl⟩
  | ok P => exact .inr ⟨P, rfl, rfl⟩

/-! ### The accesses of a command -/

/-- INIT's accesses are reads of its tensors (R66, R94). -/
theorem initHits_reads {S : ShapeRegs} {f : PortFault} (h : initHits S f ≠ []) :
    f.isWrite = false ∧ (inRegion S.wgtBase.toNat S.weightBytes f.address = true
      ∨ inRegion S.biasBase.toNat S.vectorBytes f.address = true
      ∨ inRegion S.scaleBase.toNat S.vectorBytes f.address = true) := by
  unfold initHits at h
  refine ⟨by by_contra hw; simp [hw] at h, ?_⟩
  by_contra hn
  simp only [not_or] at hn
  simp [hn] at h

/-- A source access is a read of the byte, in the source region (R66). -/
theorem sourceHits_mem {draw : Nat} {K : Kernel} {I : CallRegs} {sure : Nat → Nat → Bool} {f : PortFault} {a : Nat}
    (h : a ∈ sourceHits draw K I sure f) :
    a = f.address ∧ f.isWrite = false ∧ inRegion I.srcBase.toNat K.srcBytes f.address = true := by
  unfold sourceHits at h
  simp only [] at h
  split at h
  · simp at h
  · rename_i hw
    split at h
    · rename_i hin
      refine ⟨?_, by simpa using hw, hin⟩
      split at h
      · simpa using h
      · split at h <;> simp at h
        exact h
    · simp at h

/-- A destination access is a write of the byte, in the rows (R66). -/
theorem writeHits_mem {K : Kernel} {I : CallRegs} {b e : Nat} {f : PortFault} {a : Nat} (h : a ∈ writeHits K I b e f) :
    a = f.address ∧ f.isWrite = true
      ∧ inRegion (I.dstBase.toNat + K.rowsFirst b) (K.rowsCount b e) f.address = true := by
  unfold writeHits at h
  split at h
  · rename_i hc
    rw [Bool.and_eq_true] at hc
    exact ⟨by simpa using h, hc⟩
  · simp at h

/-! ### Every command -/

/-- The codes INIT's checks raise (R91 to R93, R64, R65). -/
theorem initChecks_code {p : Params} {S : ShapeRegs} {c : Check} (h : c ∈ initChecks p S) :
    c.2.1 ∈ ([.cfgShape, .cfgSrcType, .cfgDstType, .cfgReorder, .cfgVariant, .cfgCapacity, .align, .addr] :
      List ErrorCode) := by
  simp only [initChecks, fieldChecks, derivedChecks, capacityChecks, alignChecks, regionChecks, List.mem_append,
    List.mem_cons, List.not_mem_nil, or_false] at h
  rcases h with (((((h | h | h | h | h | h | h | h) | h | h) | h | h | h) | h | h) | h | h | h) <;>
    (subst h; simp)

/-- The codes PREPROCESS's checks raise (R102). -/
theorem preprocessChecks_code {p : Params} {K : Kernel} {I : CallRegs} {c : Check}
    (h : c ∈ preprocessChecks p K I) : c.2.1 ∈ ([.zp, .range, .addr] : List ErrorCode) := by
  simp only [preprocessChecks, List.mem_cons, List.not_mem_nil, or_false] at h
  rcases h with h | h | h <;> (subst h; simp)

/-- The codes COMPUTE's and RUN's checks raise (R116). -/
theorem convChecks_code {p : Params} {K : Kernel} {I : CallRegs} {c : Check} (h : c ∈ convChecks p K I) :
    c.2.1 ∈ ([.zp, .range, .addr, .overlap] : List ErrorCode) := by
  simp only [convChecks, List.mem_cons, List.not_mem_nil, or_false] at h
  rcases h with h | h | h | h | h | h <;> (subst h; simp)

/-- What the plans of COMPUTE and RUN are refused with (R116, R118). -/
theorem computePlan_code {s : State} {code : ErrorCode} {info : Word} (h : computePlan s = .error (code, info)) :
    code ∈ ([.notReady, .zp, .range, .addr, .overlap, .ringMiss] : List ErrorCode) := by
  rcases computePlan_cases s with ⟨-, h'⟩ | ⟨K, -, ⟨e, hc, h'⟩ | ⟨-, ⟨-, h'⟩ | ⟨-, ⟨-, h'⟩ | ⟨-, ⟨_, -, h'⟩ | ⟨-, h'⟩⟩⟩⟩⟩ <;>
    rw [h'] at h <;> simp at h
  · simp [← h.1]
  · have := convChecks_code (firstError_mem (code := code) (info := info) (by rw [hc, h]))
    simp only [List.mem_cons, List.not_mem_nil, or_false] at this ⊢
    tauto
  · simp [← h.1]

theorem runPlan_code {s : State} {code : ErrorCode} {info : Word} (h : runPlan s = .error (code, info)) :
    code ∈ ([.notReady, .zp, .range, .addr, .overlap] : List ErrorCode) := by
  rcases runPlan_cases s with ⟨-, h'⟩ | ⟨K, -, ⟨e, hc, h'⟩ | ⟨-, ⟨-, h'⟩ | ⟨-, ⟨-, h'⟩ | ⟨-, h'⟩⟩⟩⟩ <;>
    rw [h'] at h <;> simp at h
  · simp [← h.1]
  · have := convChecks_code (firstError_mem (code := code) (info := info) (by rw [hc, h]))
    simp only [List.mem_cons, List.not_mem_nil, or_false] at this ⊢
    tauto

/-- The state a command works on: what it may change before its completion step. -/
abbrev State.worked (s : State) (k : Option Kernel) (r : List Slot) (x : Option RingCtx) (a : List (List Word))
    (m : Memory) : State := { s with kernel := k, ring := r, rctx := x, acc := a, mem := m }

/-- Every command comes to `complete`, to `raiseError` with a code, or waits for the data port with the data space as
it was; before that it changes at most the kernel object, the ring and its context, the accumulators and the data space
(CLRERR the error fields only). -/
theorem exec_outcome (i : Instr) (s : State) :
    (i = .clrerr ∧ exec i s = .next (complete (clearError s)))
      ∨ (i ≠ .clrerr ∧ ∃ k r x a m,
          exec i s = .next (complete (s.worked k r x a m))
            ∨ (∃ code info, code ≠ .none ∧ exec i s = .next (raiseError code info (s.worked k r x a m)))
            ∨ (exec i s = .next (s.worked k r x a m) ∧ m = s.mem ∧ ∃ f ∈ s.port, f.silent = true)) := by
  have plan : ∀ P, ∃ k r x a m,
      finishPlan s P = .next (complete (s.worked k r x a m))
        ∨ (∃ code info, code ≠ .none ∧ finishPlan s P = .next (raiseError code info (s.worked k r x a m)))
        ∨ (finishPlan s P = .next (s.worked k r x a m) ∧ m = s.mem ∧ ∃ f ∈ s.port, f.silent = true) := by
    intro P
    rcases finishPlan_cases s P with ⟨-, h⟩ | ⟨a, -, h⟩ | ⟨hw, h⟩
    · exact ⟨s.kernel, _, _, _, _, .inl h⟩
    · exact ⟨s.kernel, s.ring, s.rctx, _, _, .inr (.inl ⟨.bus, _, by decide, h⟩)⟩
    · obtain ⟨f, hf, hs, -⟩ := portAnswer_waiting hw
      exact ⟨s.kernel, _, _, _, s.mem, .inr (.inr ⟨h, rfl, f, hf, hs⟩)⟩
  cases i with
  | clrerr => exact .inl ⟨rfl, rfl⟩
  | nop => exact .inr ⟨by decide, s.kernel, s.ring, s.rctx, s.acc, s.mem, .inl rfl⟩
  | inval => exact .inr ⟨by decide, s.kernel, _, none, s.acc, s.mem, .inl rfl⟩
  | init =>
    refine .inr ⟨by decide, ?_⟩
    rcases execInit_cases s with ⟨code, info, hc, h⟩ | ⟨-, ⟨-, h⟩ | ⟨a, -, h⟩ | ⟨hw, h⟩⟩
    · refine ⟨none, invalidateTags s.ring, none, s.acc, s.mem, .inr (.inl ⟨code, info, ?_, h⟩)⟩
      rintro rfl
      simpa using initChecks_code (firstError_mem hc)
    · exact ⟨_, _, none, s.acc, s.mem, .inl h⟩
    · exact ⟨none, invalidateTags s.ring, none, s.acc, s.mem, .inr (.inl ⟨.bus, _, by decide, h⟩)⟩
    · obtain ⟨f, hf, hs, -⟩ := portAnswer_waiting hw
      exact ⟨none, invalidateTags s.ring, none, s.acc, s.mem, .inr (.inr ⟨h, rfl, f, hf, hs⟩)⟩
  | preprocess =>
    refine .inr ⟨by decide, ?_⟩
    rcases execPreprocess_cases s with
      ⟨-, h⟩ | ⟨K, -, ⟨code, info, hc, h⟩ | ⟨-, ⟨-, h⟩ | ⟨-, -, ⟨-, h⟩ | ⟨a, -, h⟩ | ⟨hw, h⟩⟩⟩⟩
    · exact ⟨s.kernel, s.ring, s.rctx, s.acc, s.mem, .inr (.inl ⟨.notReady, _, by decide, h⟩)⟩
    · refine ⟨s.kernel, s.ring, s.rctx, s.acc, s.mem, .inr (.inl ⟨code, info, ?_, h⟩)⟩
      rintro rfl
      simpa using preprocessChecks_code (firstError_mem hc)
    · exact ⟨s.kernel, s.ring, s.rctx, s.acc, s.mem, .inl h⟩
    · exact ⟨s.kernel, _, _, s.acc, s.mem, .inl h⟩
    · exact ⟨s.kernel, _, _, s.acc, s.mem, .inr (.inl ⟨.bus, _, by decide, h⟩)⟩
    · obtain ⟨f, hf, hs, -⟩ := portAnswer_waiting hw
      exact ⟨s.kernel, _, _, s.acc, s.mem, .inr (.inr ⟨h, rfl, f, hf, hs⟩)⟩
  | compute =>
    refine .inr ⟨by decide, ?_⟩
    rcases execCompute_cases s with ⟨code, info, hc, h⟩ | ⟨P, -, h⟩
    · refine ⟨s.kernel, s.ring, s.rctx, s.acc, s.mem, .inr (.inl ⟨code, info, ?_, h⟩)⟩
      rintro rfl
      simpa using computePlan_code hc
    · rw [show exec .compute s = finishPlan s P from h]
      exact plan P
  | run =>
    refine .inr ⟨by decide, ?_⟩
    rcases execRun_cases s with ⟨code, info, hc, h⟩ | ⟨P, -, h⟩
    · refine ⟨s.kernel, s.ring, s.rctx, s.acc, s.mem, .inr (.inl ⟨code, info, ?_, h⟩)⟩
      rintro rfl
      simpa using runPlan_code hc
    · rw [show exec .run s = finishPlan s P from h]
      exact plan P

end Sys2Proof.Machine
end

