-- ==== Sys2Proof/Laws/PerInstr.lean ====
section
/-!
SUPPORT. The family `LegalWord`: the encoding of each command as syntax (spec 30_encoding.md R81, R83).
-/

namespace Sys2Proof.Laws

/-- The command's word is legal, its RSV is 0 and its OP is the command's opcode, at most 0x06. -/
def LegalWord.Statement (i : Instr) : Prop :=
  wordLegal (encode i) = true ∧ rsvField (encode i) = 0 ∧ opField (encode i) = opcode i ∧ (opcode i).toNat ≤ 6
    ∧ i.wellFormed = true

theorem LegalWord.nop : LegalWord.Statement .nop := by unfold LegalWord.Statement; decide
theorem LegalWord.init : LegalWord.Statement .init := by unfold LegalWord.Statement; decide
theorem LegalWord.preprocess : LegalWord.Statement .preprocess := by unfold LegalWord.Statement; decide
theorem LegalWord.compute : LegalWord.Statement .compute := by unfold LegalWord.Statement; decide
theorem LegalWord.run : LegalWord.Statement .run := by unfold LegalWord.Statement; decide
theorem LegalWord.inval : LegalWord.Statement .inval := by unfold LegalWord.Statement; decide
theorem LegalWord.clrerr : LegalWord.Statement .clrerr := by unfold LegalWord.Statement; decide

end Sys2Proof.Laws
end

