-- ==== Sys2Proof/Laws/Step.lean ====
section
/-!
SUPPORT. How a command's end reads in the terms of Safety.lean, and what one step does with the oldest event.
-/

namespace Sys2Proof.Machine

/-! ### The two ends of a command -/

/-- Successful completion after the work of a command (R147). -/
theorem complete_worked (s : State) (k : Option Kernel) (r : List Slot) (x : Option RingCtx) (a : List (List Word))
    (m : Memory) : s.succeedsTo (complete (s.worked k r x a m)) :=
  ⟨⟨rfl, rfl, rfl⟩, ⟨rfl, rfl, rfl⟩, ⟨rfl, rfl⟩, ⟨rfl, rfl, rfl, rfl, rfl, rfl⟩, rfl, rfl, rfl, rfl⟩

/-- Error completion after the work of a command (R148). -/
theorem raiseError_worked (s : State) (k : Option Kernel) (r : List Slot) (x : Option RingCtx) (a : List (List Word))
    (m : Memory) (code : ErrorCode) (info : Word) :
    s.failsTo (raiseError code info (s.worked k r x a m)) code info :=
  ⟨⟨rfl, rfl, rfl⟩, ⟨rfl, rfl, rfl⟩, ⟨rfl, tagAt_invalidateTags r⟩, ⟨rfl, rfl⟩, ⟨rfl, rfl, rfl, rfl, rfl, rfl⟩,
    rfl, rfl, rfl, rfl⟩

/-- A command that works on nothing works on `s` itself. -/
theorem worked_self (s : State) : s.worked s.kernel s.ring s.rctx s.acc s.mem = s := rfl

/-! ### Source values -/

/-- A source element's address lies in the source region (R60). -/
theorem srcElement_in {K : Kernel} {sy sx c : Nat} (h1 : sy < K.srcH) (h2 : sx < K.srcW) (h3 : c < K.c) :
    (sy * K.srcW + sx) * K.c + c < K.srcBytes := radix_lt h3 (radix_lt h2 h1)

/-- With the source region undisturbed, the engine reads the source values the data space gives (R99). -/
theorem source_quiet {s : State} {K : Kernel} {I : CallRegs} (h : s.quietOn I.srcBase.toNat K.srcBytes) {c : Nat}
    (hc : c < K.c) (k py px : Nat) : s.source K I k py px c = srcVal K I s.mem.read py px c := by
  unfold State.source srcVal
  split
  · rename_i hi
    have := srcElement_in (K := K) (sy := py - K.pt) (sx := px - K.pl) (by omega) (by omega) hc
    apply engineByte_quiet
    intro r hr he
    have hq := h r hr
    rw [he, Bool.eq_false_iff] at hq
    apply hq
    simp only [inRegion, Bool.and_eq_true, decide_eq_true_eq]
    omega
  · rfl

/-! ### One step -/

/-- With no event pending a step is the engine's turn. -/
theorem step_idle {s : State} (h : s.events = []) : step s = engineTurn s := by simp [step, stepEvent, h]

/-- A pending event is taken first. -/
theorem step_event {s : State} {e : Event} {rest : List Event} (h : s.events = e :: rest) :
    step s = handleEvent e { s with events := rest } := by simp [step, stepEvent, h]

/-- A register access is always answered. -/
theorem step_access {s : State} {a : PortAccess} {rest : List Event} (h : s.events = .access a :: rest) :
    step s = .next (portAccess a 0 { s with events := rest }) := step_event h

/-- An aligned 32-bit write of a register (R21, R22). -/
theorem portAccess_write {s : State} {o : Byte} {r : Reg} (v e : Word) (hr : s.rst = false)
    (ha : accessLegal o 4 = true) (ho : regAt o = some r) :
    portAccess ⟨o, 4, .write v⟩ e s = { writeReg s v e r with resp := .written } := by
  simp [portAccess, hr, ha, ho]

/-- An aligned 32-bit read of a register (R21, R22). -/
theorem portAccess_read {s : State} {o : Byte} {r : Reg} (e : Word) (hr : s.rst = false)
    (ha : accessLegal o 4 = true) (ho : regAt o = some r) :
    portAccess ⟨o, 4, .read⟩ e s = { s with resp := .data (readReg s r) } := by
  simp [portAccess, hr, ha, ho]

/-- A write of CMD, offset 0x18. -/
theorem portAccess_cmd {s : State} (w e : Word) (hr : s.rst = false) :
    portAccess ⟨0x18, 4, .write w⟩ e s = { submitCommand w s with resp := .written } :=
  portAccess_write (o := 0x18) (r := .cmd) w e hr (by decide) (by decide)

/-- An event that writes a register, one step. -/
theorem step_write {s : State} {o : Byte} {r : Reg} {v : Word} {rest : List Event} (hr : s.rst = false)
    (h : s.events = .access ⟨o, 4, .write v⟩ :: rest) (ha : accessLegal o 4 = true) (ho : regAt o = some r) :
    step s = .next { writeReg { s with events := rest } v 0 r with resp := .written } := by
  rw [step_access h]
  exact congrArg _ (portAccess_write (s := { s with events := rest }) v 0 hr ha ho)

/-- An event that writes CMD, one step. -/
theorem step_cmd {s : State} {w : Word} {rest : List Event} (hr : s.rst = false)
    (h : s.events = .access ⟨0x18, 4, .write w⟩ :: rest) :
    step s = .next { submitCommand w { s with events := rest } with resp := .written } :=
  step_write (r := .cmd) hr h (by decide) (by decide)

/-- A command written while the engine can take it. -/
theorem submitCommand_accepts {s : State} {w : Word} (hh : s.held = none) (he : s.err = false ∨ w = encode .clrerr) :
    submitCommand w s = acceptCommand w s := by
  rcases submitCommand_cases w s with ⟨h | h, -⟩ | ⟨-, -, h⟩
  · simp [State.busy, hh] at h
  · rcases he with he | he
    · simp [he] at h
    · exact absurd he h.2
  · exact h

/-- A command written while the engine cannot take it. -/
theorem submitCommand_drops {s : State} {w : Word} (h : s.busy = true ∨ (s.err = true ∧ w ≠ encode .clrerr)) :
    submitCommand w s = { s with drop := true } := by
  rcases submitCommand_cases w s with ⟨-, h'⟩ | ⟨hb, he, -⟩
  · exact h'
  · rcases h with h | ⟨h1, h2⟩
    · simp [hb] at h
    · rcases he with he | he
      · simp [he] at h1
      · exact absurd he h2

/-! ### What every step keeps -/

/-- The engine's turn keeps what every command keeps. -/
theorem engineTurn_preserves {P : State → Prop}
    (command : ∀ s w i t, s.held = some w → decode w = .ok i → P s → exec i s = .next t → P t)
    (illegal : ∀ s w, s.held = some w → P s → P (raiseError .cmdIllegal w s))
    {s t : State} (hs : P s) (h : engineTurn s = .next t) : P t := by
  rcases engineTurn_cases s with ⟨-, e⟩ | ⟨w, i, -, hh, hd, e⟩ | ⟨w, r, -, hh, -, e⟩ <;> rw [e] at h
  · injection h with h
    exact h ▸ hs
  · exact command s w i t hh hd hs h
  · injection h with h
    exact h ▸ illegal s w hh hs

/-- A register access keeps what every register write and a change of the answer keep. -/
theorem portAccess_preserves {P : State → Prop} (answer : ∀ s x, P s → P { s with resp := x })
    (write : ∀ s v e r, P s → P (writeReg s v e r)) {s : State} (a : PortAccess) (e : Word) (hs : P s) :
    P (portAccess a e s) := by
  rcases portAccess_cases a e s with ⟨-, h⟩ | ⟨-, -, h⟩ | ⟨-, -, ⟨v, r, -, -, h⟩ | ⟨x, h⟩⟩ <;> rw [h]
  · exact answer _ _ hs
  · exact answer _ _ hs
  · exact answer _ _ (write _ _ _ _ hs)
  · exact answer _ _ hs

/-- A step keeps what every kind of step keeps: a command, an illegal held word, a register write, an answer, a direct
store, a direct load, new answers of the memory, and the reset input. -/
theorem step_preserves {P : State → Prop}
    (queue : ∀ s l, P s → P { s with events := l })
    (command : ∀ s w i t, s.held = some w → decode w = .ok i → P s → exec i s = .next t → P t)
    (illegal : ∀ s w, s.held = some w → P s → P (raiseError .cmdIllegal w s))
    (answer : ∀ s x, P s → P { s with resp := x })
    (write : ∀ s v e r, P s → P (writeReg s v e r))
    (store : ∀ s a v, P s → P (hostStore a v s))
    (load : ∀ s x l n, P s → P { s with resp := x, shown := l, peeks := n })
    (answers : ∀ s l, P s → P { s with port := l })
    (reset : ∀ s b, P s → P { resetMachine s with rst := b })
    {s t : State} (hs : P s) (h : step s = .next t) : P t := by
  have turn : ∀ u v, P u → engineTurn u = .next v → P v := fun u v hu => engineTurn_preserves command illegal hu
  have port : ∀ u a e, P u → P (portAccess a e u) := fun u a e => portAccess_preserves answer write a e
  cases he : s.events with
  | nil => exact turn s t hs (step_idle he ▸ h)
  | cons e rest =>
    rw [step_event he] at h
    have hq := queue s rest hs
    generalize ({ s with events := rest } : State) = u at h hq
    cases e with
    | engine => exact turn u t hq h
    | access a =>
      injection h with h
      exact h ▸ port u a 0 hq
    | accessAtCompletion a =>
      simp only [handleEvent, accessAfterCompletion] at h
      split at h
      · cases ht : engineTurn u with
        | next v =>
          simp only [ht] at h
          injection h with h
          exact h ▸ port v a _ (turn u v hq ht)
        | fault r => simp [ht] at h
        | refused r => simp [ht] at h
      · injection h with h
        exact h ▸ port u a 0 hq
    | memRead a =>
      simp only [handleEvent] at h
      split at h
      · injection h with h
        obtain ⟨x, l, n, e⟩ := hostLoad_changes a u
        rw [← h, e]
        exact load u x l n hq
      · cases h
    | memWrite a v =>
      simp only [handleEvent] at h
      split at h
      · injection h with h
        exact h ▸ store u a v hq
      · cases h
    | portAnswers l =>
      injection h with h
      exact h ▸ answers u l hq
    | rst b =>
      injection h with h
      rcases driveReset_cases b u with ⟨-, e⟩ | ⟨-, e⟩ <;> rw [← h, e]
      · exact hq
      · exact reset u b hq

end Sys2Proof.Machine
end

