-- ==== Sys2Proof/Tests/Slice0.lean ====
section
/-!
SUPPORT. Tests on small states. The values expected of an instruction come from the spec's own examples and vectors,
named beside each test. A theorem named `witness_<n>…` shows that the hypotheses of statement O<n> can hold together.
-/

namespace Sys2Proof.Tests

-- One test after another: elaborated side by side, each would hold a thread while it waits for the kernel.
set_option Elab.async false

open Sys2Proof Sys2Proof.Machine

/-! ### What is not well formed (an instruction has no operand, so none is ill formed) -/

theorem test_reserved_bits_refused : wordLegal 0x00000100 = false := by decide
theorem test_reserved_opcode_refused : wordLegal 0x00000007 = false := by decide
theorem test_unaligned_offset_refused : accessLegal 0x01 4 = false := by decide
theorem test_narrow_access_refused : accessLegal 0x00 2 = false := by decide
theorem test_params_w_refused : Params.legal { w := 5 } = false := by decide
theorem test_params_accN_refused : Params.legal { accN := 7 } = false := by decide
theorem test_params_addrW_refused : Params.legal { addrW := 15 } = false ∧ Params.legal { addrW := 33 } = false := by
  decide
theorem test_params_cMax_refused : Params.legal { cMax := 0 } = false ∧ Params.legal { cMax := 65536 } = false := by
  decide
theorem test_params_wsMax_refused : Params.legal { wsLog2 := 9 } = false ∧ Params.legal { wsLog2 := 25 } = false := by
  decide
theorem test_params_rbBytes_refused : Params.legal { rbLog2 := 9 } = false ∧ Params.legal { rbLog2 := 32 } = false := by
  decide

/-! ### Decoding: the words of R83, bit by bit -/

theorem test_decode_nop : decode 0b00000000000000000000000000000000 = .ok .nop := by decide
theorem test_decode_init : decode 0b00000000000000000000000000000001 = .ok .init := by decide
theorem test_decode_preprocess : decode 0b00000000000000000000000000000010 = .ok .preprocess := by decide
theorem test_decode_compute : decode 0b00000000000000000000000000000011 = .ok .compute := by decide
theorem test_decode_run : decode 0b00000000000000000000000000000100 = .ok .run := by decide
theorem test_decode_inval : decode 0b00000000000000000000000000000101 = .ok .inval := by decide
theorem test_decode_clrerr : decode 0b00000000000000000000000000000110 = .ok .clrerr := by decide
theorem test_decode_reserved_opcode : decode 0b00000000000000000000000000000111 = .error .reservedOpcode := by decide
theorem test_decode_reserved_bits : decode 0b10000000000000000000000000000001 = .error .reservedBits := by decide
theorem test_decode_bytes : decodeBytes [0x05, 0x00, 0x00, 0x00] = .ok .inval := by decide

/-! ### Small states -/

/-- The state an instruction leaves, and `s` itself when it stops. -/
def after (i : Instr) (s : State) : State :=
  match exec i s with
  | .next t => t
  | _ => s

/-- The state one step leaves, and `s` itself when it stops. -/
def stepped (s : State) : State :=
  match step s with
  | .next t => t
  | _ => s

/-- The engine holds a command. -/
def holding (i : Instr) (s : State) : State := { s with held := some (encode i) }

/-- Weights 1, 2, -1, 3 at 0x10, scale 1.0 at 0x30, source 1 to 6 at 0x40; bias 0 at 0x20 needs no entry. -/
def tinyMem : Memory :=
  [(0x10, 1), (0x11, 2), (0x12, 0xFF), (0x13, 3), (0x32, 0x80), (0x33, 0x3F),
   (0x40, 1), (0x41, 2), (0x42, 3), (0x43, 4), (0x44, 5), (0x45, 6)]

/-- W = 4; a 3 by 2 source of one channel, a 2 by 2 kernel, stride and dilation 1, no padding: 2 by 1 outputs. The
operands are in the registers, and ROWS is the whole output. -/
def tiny (mode : Word) : State :=
  { State.reset with
    params := { w := 4 }
    shape := ⟨0x00020003, 1, 0x01010202, 0x0101, 0, mode, 0x10, 0x20, 0x30⟩
    callRegs := ⟨0x40, 0x60, 0, 0, 0x00020000⟩
    mem := tinyMem }

/-- The kernel object INIT builds there. -/
def tinyKernel (mode : Word) : Kernel := (tiny mode).loadKernel (tiny mode).shape

/-- The state INIT leaves. -/
def tinyReady (mode : Word) : State := after .init (tiny mode)

/-- The same with five channels, two groups of which the second has one valid lane, and an odd kernel height. -/
def tail (mode : Word) : State :=
  { tiny mode with shape := ⟨0x00020003, 5, 0x01010203, 0x0101, 0, mode, 0x10, 0x20, 0x30⟩ }

/-- The kernel object INIT builds there. -/
def tailKernel (mode : Word) : Kernel := (tail mode).loadKernel (tail mode).shape

/-! ### Instructions -/

/-- R89's example. -/
theorem test_nop_sets_done :
    (after .nop (holding .nop State.reset)).statusWord = 0x00000002
      ∧ (after .nop (holding .nop State.reset)).irqStatus = 1 := by decide +kernel

/-- The shape of R90's example. -/
def threeByThree (mode : Word) : State :=
  { State.reset with shape := ⟨0x00050005, 1, 0x01010303, 0x0101, 0x01010101, mode, 0x1000, 0x1100, 0x1200⟩ }

/-- R90's example. -/
theorem test_init_derives_the_layout :
    readReg (after .init (threeByThree 0)) .dstShape = 0x00050005
      ∧ readReg (after .init (threeByThree 0)) .layout = 0x00000400
      ∧ readReg (after .init (threeByThree 0)) .bufw = 7 := by decide +kernel

/-- R91, row 7: ERR_CFG_REORDER is code 0x06 (program P4 of spec/95_test_vectors.md). -/
theorem test_init_refuses_reorder_2 :
    (after .init (threeByThree 8)).statusWord = 0x00000604 ∧ (after .init (threeByThree 8)).errInfo = 0x3C := by
  decide +kernel

/-- A state after INIT of R101's example: V1, KY = 2, six source rows; ROWS = (2, 4). -/
def sixRows : State :=
  after .init
    { tiny 1 with
      shape := ⟨0x00020006, 1, 0x01010202, 0x0101, 0, 1, 0x10, 0x20, 0x30⟩
      callRegs := ⟨0x40, 0x60, 0, 0, 0x00040002⟩ }

/-- R101's example: rows 2, 3 and 4 in slots 2, 3 and 0. -/
theorem test_preprocess_fills_the_window :
    (after .preprocess sixRows).ring.map Slot.tag = [some 4, none, some 2, some 3] := by decide +kernel

/-- R102, row 1: before INIT, PREPROCESS is not ready (program P4 of spec/95_test_vectors.md). -/
theorem test_preprocess_not_ready :
    (after .preprocess State.reset).statusWord = 0x00000204 ∧ (after .preprocess State.reset).errInfo = 2 := by
  decide +kernel

/-- R111 by hand: 1*1 + 2*2 + 3*(-1) + 4*3 = 14 and 3*1 + 4*2 + 5*(-1) + 6*3 = 24. -/
theorem test_compute_direct :
    (after .compute (tinyReady 0)).mem.read 0x60 = 14 ∧ (after .compute (tinyReady 0)).mem.read 0x61 = 24 := by
  decide +kernel

/-- R118: with an empty ring COMPUTE on V1 misses (ERRCODE 0x0E, all ones). -/
theorem test_compute_misses :
    (after .compute (tinyReady 1)).errCode = .ringMiss ∧ (after .compute (tinyReady 1)).errInfo = 0xFFFFFFFF
      ∧ (after .compute (tinyReady 1)).mem = tinyMem := by decide +kernel

/-- The same outputs through the ring, with V1 and with V2 (R113, R114). -/
theorem test_run_through_the_ring :
    ((after .run (tinyReady 1)).mem.read 0x60, (after .run (tinyReady 1)).mem.read 0x61) = (14, 24)
      ∧ ((after .run (tinyReady 2)).mem.read 0x60, (after .run (tinyReady 2)).mem.read 0x61) = (14, 24) := by
  decide +kernel

/-- R120's example: slots 0 to 3 hold rows 4, 5, 2 and 3. -/
theorem test_run_leaves_the_last_rows :
    (after .run { sixRows with callRegs := ⟨0x40, 0x60, 0, 0, 0x00050000⟩ }).ring.map Slot.tag
      = [some 4, some 5, some 2, some 3] := by decide +kernel

/-- R97's example. -/
theorem test_inval_empties_the_ring :
    (after .preprocess sixRows).rvalid = true ∧ (after .inval (after .preprocess sixRows)).rvalid = false
      ∧ (after .inval (after .preprocess sixRows)).done = true := by decide +kernel

/-- R98's example, as the command executes: DONE and KVALID with LASTCMD 0x06. -/
theorem test_clrerr_leaves_the_error :
    (after .clrerr { tinyReady 1 with
      done := false, err := true, errCode := .ringMiss, errInfo := 7, lastCmd := 6, held := some 6 }).statusWord
      = 0x0006000A := by decide +kernel

/-- REQ_REF on vectors of spec/95_test_vectors.md: ties to even, saturation, a wrapped sum with its bias. -/
theorem test_requantizer_vectors :
    reqRef 77 9 0 0x3F000000 0 = 4 ∧ reqRef 77 11 0 0x3F000000 0 = 6 ∧ reqRef 77 300 0 0x3F800000 0 = 255
      ∧ reqRef 77 0x7FFFFFFF 1 0x3F800000 0 = 0 ∧ reqRef 77 100 (-50) 0x40000000 3 = 103 := by decide +kernel

/-! ### Witnesses -/

/-- An instruction always leaves a next state. -/
theorem exec_after (i : Instr) (s : State) : exec i s = .next (after i s) := by
  rcases exec_outcome i s with ⟨-, h⟩ | ⟨-, k, r, x, a, m, h | ⟨_, _, -, h⟩ | ⟨h, -⟩⟩ <;> simp [after, h]

/-- A register access leaves a next state. -/
theorem step_stepped {s : State} {a : PortAccess} {rest : List Event} (h : s.events = .access a :: rest) :
    step s = .next (stepped s) := by simp [stepped, step_access h]

/-- The engine's turn on a held command leaves a next state. -/
theorem turn_stepped {s : State} {w : Word} {i : Instr} (hr : s.rst = false) (hh : s.held = some w)
    (hd : decode w = .ok i) (he : s.events = []) : step s = .next (stepped s) := by
  simp [stepped, step_idle he, engineTurn_runs hr hh hd, exec_after]

/-- A bounded statement about rows, checked row by row. -/
theorem forall_rows {P : Nat → Prop} {a b : Nat} (h : ∀ x ∈ List.range' a (b - a), P x) : ∀ x, a ≤ x → x < b → P x :=
  fun x h1 h2 => h x (List.mem_range'_1.mpr ⟨h1, by omega⟩)

/-- A statement about the entries of a list, checked entry by entry. -/
theorem forall_mem {α : Type} {P : α → Prop} [DecidablePred P] {l : List α}
    (h : l.all (fun x => decide (P x)) = true) : ∀ x ∈ l, P x := by simpa using h

/-- Row k of a check list fails, and none before it. -/
def failsFirst (l : List Check) (k : Nat) : Bool :=
  (l.take k).all (fun r => !r.1) && ((l[k]?.map fun r => r.1) == some true)

/-- What the check statements ask of their lists. -/
theorem failsFirst_split {l : List Check} {k : Nat} (h : failsFirst l k = true) :
    ∃ pre post code info, l = pre ++ (true, code, info) :: post ∧ ∀ r ∈ pre, r.1 = false := by
  simp only [failsFirst, Bool.and_eq_true, List.all_eq_true, Bool.not_eq_true', beq_iff_eq] at h
  obtain ⟨h1, h2⟩ := h
  cases hk : l[k]? with
  | none => simp [hk] at h2
  | some r =>
    obtain ⟨b, code, info⟩ := r
    simp only [hk, Option.map_some, Option.some.injEq] at h2
    subst h2
    obtain ⟨hlt, hget⟩ := List.getElem?_eq_some_iff.mp hk
    exact ⟨l.take k, l.drop (k + 1), code, info,
      by rw [← hget, ← List.drop_eq_getElem_cons hlt, List.take_append_drop], h1⟩

/-- Tags listed slot by slot. -/
theorem tags_of_slots {ring : List Slot} {P : Nat → Nat → Prop}
    (h : ∀ i < ring.length, ∀ b, tagAt ring i = some b → P i b) : ∀ i b, tagAt ring i = some b → P i b := by
  intro i b hb
  refine h i ?_ b hb
  by_contra hn
  simp [tagAt, List.getElem?_eq_none (by omega : ring.length ≤ i)] at hb

/-- An event list put before a state. -/
def facing (es : List Event) (s : State) : State := { s with events := es }

/-- The host writes a register. -/
def hostWrite (o : Byte) (v : Word) : Event := .access ⟨o, 4, .write v⟩

/-- The host is about to write a register. -/
def writing (o : Byte) (v : Word) (s : State) : State := facing [hostWrite o v] s

/-- The state after a PREPROCESS of the whole output. -/
def tinyFilled (mode : Word) : State := after .preprocess (tinyReady mode)

/-- The operands of tiny's invocations. -/
def tinyCall : CallRegs := ⟨0x40, 0x60, 0, 0, 0x00020000⟩

/-- A state whose data port answers one access with a bus error, or never. -/
def faulty (f : PortFault) (s : State) : State := { s with port := [f] }

/-- Commands that are ready, each with an access that it surely makes: the first and the last byte of INIT's tensors, the
last source byte, the first and the last destination byte. -/
def accesses : List (Instr × State × Nat × Bool) :=
  [(.init, tiny 0, 0x10, false), (.init, tiny 0, 0x33, false), (.preprocess, tinyReady 1, 0x45, false),
   (.compute, tinyReady 0, 0x45, false), (.compute, tinyReady 0, 0x60, true), (.compute, tinyFilled 1, 0x61, true),
   (.run, tinyReady 0, 0x45, false), (.run, tinyReady 0, 0x61, true), (.run, tinyReady 1, 0x45, false),
   (.run, tinyReady 1, 0x60, true)]

theorem tiny_wf : ∀ m ∈ ([0, 1] : List Word), (tinyKernel m).wf (tiny 0).params := forall_mem (by decide +kernel)

theorem tiny_convLegal : ∀ m ∈ ([0, 1] : List Word), tinyCall.convLegal (tiny 0).params (tinyKernel m) :=
  forall_mem (by decide +kernel)

theorem tiny_dependsOn : ∀ m ∈ ([0, 1] : List Word), tinyCall.dependsOn (tinyKernel m) 0x45 := fun m hm =>
  ⟨1, 0, 1, 1, 2, 1, 0, by revert m; exact forall_mem (by decide +kernel)⟩

theorem tiny_writesTo : ∀ m ∈ ([0, 1] : List Word), ∀ a ∈ [0x60, 0x61], tinyCall.writesTo (tinyKernel m) a := by
  intro m hm a ha
  revert a; refine forall_mem ?_; revert m; exact forall_mem (by decide +kernel)

/-- What a command finds in a small state with kernel object `tinyKernel m`. -/
theorem tiny_facts : ∀ x ∈ ([(tinyReady 0, 0), (tinyReady 1, 1), (tinyFilled 1, 1)] : List (State × Word)),
    x.1.kernel = some (tinyKernel x.2) ∧ x.1.params = (tiny 0).params ∧ x.1.invocation = tinyCall
      ∧ x.1.ring.length = (tinyKernel x.2).bufH ∧ x.1.mem.wf = true ∧ x.1.races = [] :=
  forall_mem (by decide +kernel)

theorem tiny_runs {s : State} {m : Word} (hm : m ∈ ([0, 1] : List Word)) (hk : s.kernel = some (tinyKernel m))
    (hp : s.params = (tiny 0).params) (hi : s.invocation = tinyCall) : s.ready .run :=
  ⟨_, hk, hp ▸ tiny_wf m hm, by rw [hp, hi]; exact tiny_convLegal m hm, by rw [hi]; decide⟩

theorem accesses_ready (x : Instr × State × Nat × Bool) (hx : x ∈ accesses) (silent : Bool) :
    x.2.1.ready x.1 ∧ x.2.1.surelyAccesses x.1 ⟨x.2.2.1, x.2.2.2, silent⟩ := by
  have h0 : (0 : Word) ∈ ([0, 1] : List Word) := by simp
  have h1 : (1 : Word) ∈ ([0, 1] : List Word) := by simp
  obtain ⟨k0, p0, i0, -⟩ := tiny_facts (tinyReady 0, 0) (by simp)
  obtain ⟨k1, p1, i1, -⟩ := tiny_facts (tinyReady 1, 1) (by simp)
  obtain ⟨k2, p2, i2, -⟩ := tiny_facts (tinyFilled 1, 1) (by simp)
  have r0 := tiny_runs h0 k0 p0 i0
  have r1 := tiny_runs h1 k1 p1 i1
  have c0 : (tinyReady 0).ready .compute := by
    obtain ⟨K, hK, hw, hl, hr⟩ := r0
    refine ⟨K, hK, hw, hl, hr, fun hv => absurd ?_ hv⟩
    obtain rfl : tinyKernel 0 = K := Option.some.inj (k0.symm.trans hK)
    decide +kernel
  have c2 : (tinyFilled 1).ready .compute := by
    obtain ⟨K, hK, hw, hl, hr⟩ := tiny_runs h1 k2 p2 i2
    obtain rfl : tinyKernel 1 = K := Option.some.inj (k2.symm.trans hK)
    refine ⟨_, hK, hw, hl, hr, fun _ => ⟨by decide +kernel, ?_⟩⟩
    rw [i2]
    exact forall_rows (by decide +kernel)
  have f1 : (tinyReady 1).ready .preprocess := by
    obtain ⟨K, hK, hw, hl, hr⟩ := r1
    refine ⟨K, hK, hw, hl.1, hr, ?_⟩
    obtain rfl : tinyKernel 1 = K := Option.some.inj (k1.symm.trans hK)
    decide +kernel
  have n0 : (tiny 0).ready .init := by show (tiny 0).shape.legal (tiny 0).params; decide +kernel
  have d0 := i0 ▸ tiny_dependsOn 0 h0
  have d1 := i1 ▸ tiny_dependsOn 1 h1
  simp only [accesses, List.mem_cons, List.not_mem_nil, or_false] at hx
  rcases hx with rfl | rfl | rfl | rfl | rfl | rfl | rfl | rfl | rfl | rfl
  · exact ⟨n0, rfl, .inl (by revert silent; decide +kernel)⟩
  · exact ⟨n0, rfl, .inr (.inr (by revert silent; decide +kernel))⟩
  · exact ⟨f1, _, k1, rfl, d1⟩
  · exact ⟨c0, _, k0, .inr ⟨rfl, by decide +kernel, d0⟩⟩
  · exact ⟨c0, _, k0, .inl ⟨rfl, i0 ▸ tiny_writesTo 0 h0 _ (by simp)⟩⟩
  · exact ⟨c2, _, k2, .inl ⟨rfl, i2 ▸ tiny_writesTo 1 h1 _ (by simp)⟩⟩
  · exact ⟨r0, _, k0, .inr ⟨rfl, d0⟩⟩
  · exact ⟨r0, _, k0, .inl ⟨rfl, i0 ▸ tiny_writesTo 0 h0 _ (by simp)⟩⟩
  · exact ⟨r1, _, k1, .inr ⟨rfl, d1⟩⟩
  · exact ⟨r1, _, k1, .inl ⟨rfl, i1 ▸ tiny_writesTo 1 h1 _ (by simp)⟩⟩

/-- What statements 28 and 51 ask of the state around a command. -/
abbrev grounded (s : State) : Prop :=
  s.kernelOk ∧ s.params.legal = true ∧ (∀ K, s.kernel = some K → s.ring.length = K.bufH) ∧ s.mem.wf = true
    ∧ s.races = []

theorem accesses_grounded (x : Instr × State × Nat × Bool) (hx : x ∈ accesses) : grounded x.2.1 := by
  have hp : (tiny 0).params.legal = true := by decide +kernel
  have h : ∀ y ∈ ([(tinyReady 0, 0), (tinyReady 1, 1), (tinyFilled 1, 1)] : List (State × Word)), y.2 ∈ ([0, 1] : List Word)
      → grounded y.1 := by
    intro y hy hm
    obtain ⟨k, p, -, r, m, q⟩ := tiny_facts y hy
    refine ⟨fun K hK => ?_, p ▸ hp, fun K hK => ?_, m, q⟩ <;> obtain rfl := Option.some.inj (k.symm.trans hK)
    · exact p ▸ tiny_wf y.2 hm
    · exact r
  have k : (tiny 0).kernel = none := rfl
  have hn : grounded (tiny 0) := 
    ⟨fun K hK => absurd (k.symm.trans hK) nofun, hp, fun K hK => absurd (k.symm.trans hK) nofun, by decide +kernel, rfl⟩
  have h0 := h (tinyReady 0, 0) (by simp) (by simp)
  have h1 := h (tinyReady 1, 1) (by simp) (by simp)
  simp only [accesses, List.mem_cons, List.not_mem_nil, or_false] at hx
  rcases hx with rfl | rfl | rfl | rfl | rfl | rfl | rfl | rfl | rfl | rfl <;>
    first | exact hn | exact h0 | exact h1

theorem witness_2 : decode 0x00000006 = .ok .clrerr := by decide +kernel

theorem witness_4_turn : (holding .run State.reset).rst = false ∧ (holding .run State.reset).held = some 0x00000004
    ∧ decode 0x00000004 = .ok .run ∧ (holding .run State.reset).events = [] := by decide +kernel

theorem witness_4_event : (facing [.engine] (holding .run State.reset)).rst = false
    ∧ (facing [.engine] (holding .run State.reset)).held = some 0x00000004 ∧ decode 0x00000004 = .ok .run
    ∧ (facing [.engine] (holding .run State.reset)).events = .engine :: [] := by decide +kernel

theorem witness_4_idle : State.reset.held = none ∧ State.reset.events = [] := by decide +kernel

theorem witness_6 : ∀ f ∈ ({ tiny 0 with port := [⟨0x10, false, false⟩] } : State).port, f.silent = false := by decide +kernel

theorem witness_7 : ∀ x ∈ accesses, ∃ f, (faulty f x.2.1).ready x.1 ∧ (∀ g ∈ (faulty f x.2.1).port, g.silent = true)
    ∧ f ∈ (faulty f x.2.1).port ∧ (faulty f x.2.1).surelyAccesses x.1 f := fun x hx =>
  ⟨_, (accesses_ready x hx true).1, by simp [faulty], by simp [faulty], (accesses_ready x hx true).2⟩

/-- In the ERROR condition, about to write a command word. -/
def erring (w : Word) : State :=
  { State.reset with err := true, errCode := .ringMiss, errInfo := 7, events := [hostWrite 0x18 w] }

theorem witness_11 : (erring 6).rst = false ∧ (erring 6).held = none ∧ (erring 6).err = true
    ∧ (erring 6).events = [.access ⟨0x18, 4, .write 0x00000006⟩] := by decide +kernel

/-- A fault and a race just past the weights. -/
def besideWeights (mode : Word) : State :=
  { tiny mode with port := [⟨0x14, false, false⟩], races := [⟨0x0F, 0, 1⟩] }

theorem witness_12 : ∀ m ∈ ([0, 1, 2, 4, 5, 6] : List Word),
    (besideWeights m).initOperands = (tiny m).shape ∧ (tiny m).shape.legal (besideWeights m).params
      ∧ (besideWeights m).quietOn 0x10 4 ∧ (besideWeights m).answersOn false 0x10 4
      ∧ (besideWeights m).quietOn 0x20 4 ∧ (besideWeights m).answersOn false 0x20 4
      ∧ (besideWeights m).quietOn 0x30 4 ∧ (besideWeights m).answersOn false 0x30 4
      ∧ ((tiny m).shape.wgtBase.toNat, (tiny m).shape.ky * (tiny m).shape.kx * (tiny m).shape.c) = (0x10, 4)
      ∧ ((tiny m).shape.biasBase.toNat, (tiny m).shape.scaleBase.toNat, 4 * (tiny m).shape.c) = (0x20, 0x30, 4) :=
  forall_mem (by decide +kernel)

/-- Operands of which check k of INIT is the first to fail. -/
def badShape (k : Nat) : ShapeRegs :=
  let S := (tiny 1).shape
  match k with
  | 0 => { S with shapeSrc := 0x00020000 }
  | 1 => { S with shapeC := 0 }
  | 2 => { S with kernelReg := 0x01010200 }
  | 3 => { S with dil := 0x0100 }
  | 4 => { S with mode := 0x101 }
  | 5 => { S with mode := 0x401 }
  | 6 => { S with mode := 0x009 }
  | 7 => { S with mode := 0x002, kernelReg := 0x01010201 }
  | 8 => { S with kernelReg := 0x01010204 }
  | 9 => { S with shapeSrc := 0x0002FFFF, kernelReg := 0x01010201, pad := 1 }
  | 10 => { S with shapeC := 0x1001 }
  | 11 => { S with shapeSrc := 0x00090009, shapeC := 0x1000, kernelReg := 0x01010909 }
  | 12 => { S with shapeSrc := 0x00110003, shapeC := 0x1000 }
  | 13 => { S with biasBase := 0x21 }
  | 14 => { S with scaleBase := 0x32 }
  | 15 => { S with wgtBase := 0xFFFFFFFD }
  | 16 => { S with shapeC := 2, biasBase := 0xFFFFFFFC }
  | 17 => { S with shapeC := 2, scaleBase := 0xFFFFFFFC }
  | _ => S

theorem witness_13 : ∀ k < 18, ({ tiny 1 with shape := badShape k } : State).initOperands = badShape k
    ∧ ∃ pre post code info, (badShape k).failures (tiny 1).params = pre ++ (true, code, info) :: post
      ∧ ∀ r ∈ pre, r.1 = false := by
  have h : ∀ k < 18, failsFirst ((badShape k).failures (tiny 1).params) k = true := by decide +kernel
  exact fun k hk => ⟨rfl, failsFirst_split (h k hk)⟩

/-- INIT's tensors with a bus error at one address. -/
def failingInit (a : Nat) : State := { tiny 0 with port := [⟨a, false, false⟩] }

theorem witness_14 : ∀ a ∈ [0x10, 0x13, 0x20, 0x23, 0x30, 0x33],
    ((failingInit a).initOperands = (tiny 0).shape ∧ (tiny 0).shape.legal (failingInit a).params)
      ∧ (∀ g ∈ (failingInit a).port, g.silent = false) ∧ (⟨a, false, false⟩ : PortFault) ∈ (failingInit a).port
      ∧ (inRegion 0x10 4 a = true ∨ inRegion 0x20 4 a = true ∨ inRegion 0x30 4 a = true) := by decide +kernel

theorem witness_15 : 5 ≤ 2 ^ 3 ∧ 0 ≤ 2 ^ 0 := by decide +kernel

theorem witness_16 : ∀ m ∈ ([0, 1, 2, 4, 5, 6] : List Word), (tail m).params.legal = true
    ∧ (tailKernel m).wf (tail m).params
    ∧ 1 < (if (tailKernel m).var = .v2 then ((tailKernel m).ky + 1) / 2 else (tailKernel m).ky)
    ∧ 1 < (tailKernel m).kx ∧ 7 < (tailKernel m).cpad ∧ 4 < (tailKernel m).c ∧ ¬ 7 < (tailKernel m).c :=
  forall_mem (by decide +kernel)

/-- A ring filled under another zero point. -/
def otherContext (mode : Word) : State := { tinyFilled mode with rctx := some ⟨0x40, 5⟩ }

theorem witness_17 : ∀ m ∈ ([1, 2, 5, 6] : List Word), ∀ s ∈ [tinyReady m, tinyFilled m, otherContext m],
    (s.kernel = some (tinyKernel m) ∧ s.invocation = tinyCall ∧ s.params.legal = true)
      ∧ (tinyKernel m).wf s.params
      ∧ (s.ring.length = (tinyKernel m).bufH ∧ (tinyKernel m).var ≠ .v0 ∧ tinyCall.dyBeg < tinyCall.dyEnd)
      ∧ tinyCall.fillLegal s.params (tinyKernel m) ∧ s.sourceReady (tinyKernel m) tinyCall := by
  intro m hm s hs
  have hp : s.params = (tiny 0).params := by revert s; revert m; exact forall_mem (by decide +kernel)
  have hw : (tinyKernel m).wf (tiny 0).params := by clear hs hp; revert m; exact forall_mem (by decide +kernel)
  refine ⟨?_, hp ▸ hw, ?_, ?_, ?_⟩ <;> clear hp hw <;> revert s <;> revert m <;> exact forall_mem (by decide +kernel)

theorem witness_17_rows :
    (0 ≤ 2 ∧ 2 < (2 - 1) * 1 + (tinyKernel 1).extY)
      ∧ (∀ b', 2 < b' → b' < (2 - 1) * 1 + (tinyKernel 1).extY → (tinyKernel 1).slotOf b' ≠ (tinyKernel 1).slotOf 2)
      ∧ 3 < (tinyKernel 1).bufH
      ∧ ∀ by_, 0 ≤ by_ → by_ < (2 - 1) * 1 + (tinyKernel 1).extY → (tinyKernel 1).slotOf by_ ≠ 3 :=
  ⟨by decide +kernel, forall_rows (a := 3) (by decide +kernel), by decide +kernel, forall_rows (by decide +kernel)⟩

theorem witness_18 : ∀ s ∈ [{ tinyReady 1 with callRegs := ⟨0x40, 0x60, 0, 0, 0x00020002⟩ }, tinyReady 0],
    ∃ K, s.kernel = some K ∧ s.invocation.fillLegal s.params K
      ∧ (s.invocation.dyBeg = s.invocation.dyEnd ∨ K.var = .v0) := by
  have h : ∀ s ∈ [{ tinyReady 1 with callRegs := ⟨0x40, 0x60, 0, 0, 0x00020002⟩ }, tinyReady 0],
      ∃ K ∈ s.kernel, s.invocation.fillLegal s.params K ∧ (s.invocation.dyBeg = s.invocation.dyEnd ∨ K.var = .v0) := by
    decide +kernel
  exact fun s hs => (h s hs).imp fun K hK => ⟨hK.1, hK.2⟩

theorem witness_19_none : State.reset.kernel = none := rfl

/-- Operands of which check k of COMPUTE and RUN is the first to fail. -/
def badCall (k : Nat) : CallRegs :=
  match k with
  | 0 => { tinyCall with srcZp := 0x100 }
  | 1 => { tinyCall with dstZp := 0x100 }
  | 2 => { tinyCall with rows := 0x00030000 }
  | 3 => { tinyCall with srcBase := 0xFFFFFFFB }
  | 4 => { tinyCall with dstBase := 0xFFFFFFFF }
  | 5 => { tinyCall with dstBase := 0x45 }
  | _ => tinyCall

theorem witness_19 : ∀ x ∈ [(0, 0), (1, 2), (2, 3)],
    ({ tinyReady 1 with callRegs := badCall x.2 } : State).kernel = some (tinyKernel 1)
    ∧ ({ tinyReady 1 with callRegs := badCall x.2 } : State).invocation = badCall x.2
    ∧ ∃ pre post code info,
      (badCall x.2).fillFailures (tiny 1).params (tinyKernel 1) = pre ++ (true, code, info) :: post
      ∧ ∀ r ∈ pre, r.1 = false := by
  have h : ∀ x ∈ [(0, 0), (1, 2), (2, 3)],
      ({ tinyReady 1 with callRegs := badCall x.2 } : State).kernel = some (tinyKernel 1)
      ∧ ({ tinyReady 1 with callRegs := badCall x.2 } : State).invocation = badCall x.2
      ∧ failsFirst ((badCall x.2).fillFailures (tiny 1).params (tinyKernel 1)) x.1 = true := by decide +kernel
  exact fun x hx => ⟨(h x hx).1, (h x hx).2.1, failsFirst_split (h x hx).2.2⟩

theorem witness_20 : ∀ m ∈ ([1, 2, 5, 6] : List Word),
    ((tinyKernel m).wf (tiny m).params ∧ (tinyKernel m).var ≠ .v0 ∧ 0 < (tinyKernel m).dstW ∧ 0 < (tinyKernel m).c)
    ∧ ∀ by_, 1 * (tinyKernel m).sy ≤ by_ → by_ < 1 * (tinyKernel m).sy + (tinyKernel m).extY →
      holdsRow (tiny m).params.w (tiny m).mem (tinyKernel m) tinyCall (tinyFilled m).ring by_ := by
  intro m hm
  refine ⟨?_, forall_rows ?_⟩ <;> revert m <;> exact forall_mem (by decide +kernel)

theorem witness_21 : ∀ m ∈ ([0, 4] : List Word),
    ((tinyReady m).kernel = some (tinyKernel m) ∧ (tinyReady m).invocation = tinyCall
      ∧ (tinyKernel m).wf (tinyReady m).params ∧ (tinyReady m).mem.wf = true ∧ (tinyKernel m).var = .v0)
    ∧ (tinyCall.convLegal (tinyReady m).params (tinyKernel m) ∧ tinyCall.dyBeg < tinyCall.dyEnd)
    ∧ (tinyReady m).sourceReady (tinyKernel m) tinyCall ∧ (tinyReady m).destReady (tinyKernel m) tinyCall := by
  intro m hm
  refine ⟨?_, ?_, ?_, ?_⟩ <;> revert m <;> exact forall_mem (by decide +kernel)

theorem witness_22 : ∀ m ∈ ([1, 2, 5, 6] : List Word),
    ((tinyFilled m).kernel = some (tinyKernel m) ∧ (tinyFilled m).invocation = tinyCall
      ∧ (tinyKernel m).wf (tinyFilled m).params ∧ (tinyFilled m).mem.wf = true ∧ (tinyKernel m).var ≠ .v0)
    ∧ (tinyCall.convLegal (tinyFilled m).params (tinyKernel m) ∧ tinyCall.dyBeg < tinyCall.dyEnd)
    ∧ ((tinyFilled m).destReady (tinyKernel m) tinyCall
      ∧ (tinyFilled m).rctx = some ⟨tinyCall.srcBase, tinyCall.srcZp.setWidth 8⟩)
    ∧ ∀ by_, 0 ≤ by_ → by_ < (2 - 1) * (tinyKernel m).sy + (tinyKernel m).extY →
      tagAt (tinyFilled m).ring ((tinyKernel m).slotOf by_) = some by_ := by
  intro m hm
  refine ⟨?_, ?_, ?_, forall_rows ?_⟩ <;> revert m <;> exact forall_mem (by decide +kernel)

theorem witness_23 : ∀ m ∈ ([1, 2, 5, 6] : List Word),
    ((tinyReady m).kernel = some (tinyKernel m) ∧ (tinyReady m).invocation = tinyCall
      ∧ (tinyReady m).params.legal = true ∧ (tinyKernel m).wf (tinyReady m).params)
    ∧ ((tinyReady m).mem.wf = true ∧ (tinyReady m).ring.length = (tinyKernel m).bufH ∧ (tinyKernel m).var ≠ .v0)
    ∧ (tinyCall.convLegal (tinyReady m).params (tinyKernel m) ∧ tinyCall.dyBeg < tinyCall.dyEnd)
    ∧ (tinyReady m).sourceReady (tinyKernel m) tinyCall ∧ (tinyReady m).destReady (tinyKernel m) tinyCall := by
  intro m hm
  refine ⟨?_, ?_, ?_, ?_, ?_⟩ <;> revert m <;> exact forall_mem (by decide +kernel)

/-- A state with its own ROWS. -/
def emptyRange (mode rows : Word) : State := { tinyReady mode with callRegs := { tinyCall with rows := rows } }

theorem witness_24 : ∀ m ∈ ([0, 1, 2] : List Word), ∀ r ∈ ([0, 0x00010001, 0x00020002] : List Word),
    (emptyRange m r).kernel = some (tinyKernel m) ∧ (emptyRange m r).invocation = { tinyCall with rows := r }
      ∧ (emptyRange m r).invocation.convLegal (emptyRange m r).params (tinyKernel m)
      ∧ (emptyRange m r).invocation.dyBeg = (emptyRange m r).invocation.dyEnd := by
  intro m hm r hr
  refine ⟨?_, ?_, ?_, ?_⟩ <;> revert r <;> refine forall_mem ?_ <;> revert m <;> exact forall_mem (by decide +kernel)

theorem witness_25_none : State.reset.kernel = none := rfl

theorem witness_25 : ∀ k < 6,
    ({ tinyReady 1 with callRegs := badCall k } : State).kernel = some (tinyKernel 1)
    ∧ ({ tinyReady 1 with callRegs := badCall k } : State).invocation = badCall k
    ∧ ∃ pre post code info, (badCall k).convFailures (tiny 1).params (tinyKernel 1) = pre ++ (true, code, info) :: post
      ∧ ∀ r ∈ pre, r.1 = false := by
  have h : ∀ k < 6, ({ tinyReady 1 with callRegs := badCall k } : State).kernel = some (tinyKernel 1)
      ∧ ({ tinyReady 1 with callRegs := badCall k } : State).invocation = badCall k
      ∧ failsFirst ((badCall k).convFailures (tiny 1).params (tinyKernel 1)) k = true := by decide +kernel
  exact fun k hk => ⟨(h k hk).1, (h k hk).2.1, failsFirst_split (h k hk).2.2⟩

/-- Rows 0 and 1 of the window resident, row 2 not. -/
def halfFilled : State :=
  { after .preprocess { tinyReady 1 with callRegs := { tinyCall with rows := 0x00010000 } } with callRegs := tinyCall }

theorem witness_26 : ∀ s ∈ [tinyReady 1, halfFilled], s.kernel = some (tinyKernel 1) ∧ s.invocation = tinyCall
    ∧ (tinyKernel 1).var ≠ .v0 ∧ tinyCall.convLegal s.params (tinyKernel 1) ∧ tinyCall.dyBeg < tinyCall.dyEnd := by
  decide +kernel

theorem witness_26_context : (tinyReady 1).rctx ≠ some ⟨tinyCall.srcBase, tinyCall.srcZp.setWidth 8⟩ := by
  decide +kernel

theorem witness_26_row : halfFilled.rctx = some ⟨tinyCall.srcBase, tinyCall.srcZp.setWidth 8⟩
    ∧ 2 < (2 - 1) * (tinyKernel 1).sy + (tinyKernel 1).extY
    ∧ tagAt halfFilled.ring ((tinyKernel 1).slotOf 2) ≠ some 2
    ∧ ∀ b', 0 ≤ b' → b' < 2 → tagAt halfFilled.ring ((tinyKernel 1).slotOf b') = some b' :=
  ⟨by decide +kernel, by decide +kernel, by decide +kernel, forall_rows (by decide +kernel)⟩

theorem witness_27 : (∀ i, exec i (tinyReady 0) = .next (after i (tinyReady 0))) ∧ (tinyReady 0).mem.wf = true
    ∧ ∀ a ∈ [0x5F, 0x62], ∀ K ∈ (tinyReady 0).kernel, ¬ (tinyReady 0).invocation.writesTo K a :=
  ⟨fun i => exec_after i _, by decide +kernel, by decide +kernel⟩

theorem witness_28 : ∀ x ∈ accesses, x.1 ≠ .init → (x.1 = .preprocess ∨ x.1 = .compute ∨ x.1 = .run)
    ∧ ∃ f, (faulty f x.2.1).ready x.1 ∧ grounded (faulty f x.2.1) ∧ (∀ g ∈ (faulty f x.2.1).port, g.silent = false)
      ∧ f ∈ (faulty f x.2.1).port ∧ (faulty f x.2.1).surelyAccesses x.1 f := fun x hx hi =>
  ⟨by revert hi; revert x; decide, _, (accesses_ready x hx false).1, accesses_grounded x hx, by simp [faulty],
    by simp [faulty], (accesses_ready x hx false).2⟩

theorem witness_29 : ({ tinyKernel 0 with ky := 255, kx := 255 } : Kernel).ky ≤ 255
    ∧ ({ tinyKernel 0 with ky := 255, kx := 255 } : Kernel).kx ≤ 255
    ∧ ([(0, 0), (254, 254)] : List (Nat × Nat)).Nodup ∧ ∀ t ∈ [(0, 0), (254, 254)], t.1 < 255 ∧ t.2 < 255 := by
  decide +kernel

theorem witness_31 : ∀ s ∈ ([0x01000000, 0xFF000000] : List Word), s.toInt.natAbs ≤ 2 ^ 24 :=
  forall_mem (by decide +kernel)

/-- Scales from the smallest normal to the largest, and scales below them. -/
theorem witness_31_scales :
    (∀ x ∈ ([0x00800000, 0x3F000000, 0xBF800001, 0x7F7FFFFF] : List Word), 0 < fpExponent x ∧ fpExponent x < 255)
      ∧ ∀ x ∈ ([0x00000000, 0x80000001, 0x007FFFFF] : List Word), fpExponent x = 0 :=
  ⟨forall_mem (by decide +kernel), forall_mem (by decide +kernel)⟩

/-- R142's ties: 4.5 and 5.5 to the even integer; and 2^24 + 1 to the even significand, of which there is one. -/
theorem test_rounding : roundsTo 9 1 4 ∧ ¬ roundsTo 9 1 5 ∧ roundsTo 11 1 6 ∧ roundsToFp 0x1000001 1 0x800000
    ∧ ¬ roundsToFp 0x1000001 1 0x800001 := by decide +kernel

theorem witness_32 : ∀ x ∈ ([0x7F800000, 0xFF800000, 0x7FC00000, 0xFFFFFFFF] : List Word),
    x.toNat / 2 ^ 23 % 2 ^ 8 = 255 :=
  forall_mem (by decide +kernel)

/-- A tile of the one pixel of `tail`'s output and both its groups. -/
theorem witness_33 : ∀ m ∈ ([0, 1, 2, 4, 5, 6] : List Word), (tail m).params.legal = true
    ∧ (tailKernel m).wf (tail m).params
    ∧ (∀ p ∈ (⟨[(0, 0)], [0, 1]⟩ : Tile).pixels, p.1 < (tailKernel m).dstH ∧ p.2 < (tailKernel m).dstW)
    ∧ (∀ g ∈ (⟨[(0, 0)], [0, 1]⟩ : Tile).groups, g < (tailKernel m).groupCount (tail m).params.w)
    ∧ (⟨[(0, 0)], [0, 1]⟩ : Tile).pairs.length ≤ (tail m).acc.length :=
  forall_mem (by decide +kernel)

theorem witness_34 : ∀ m ∈ ([0, 1, 2, 4, 5, 6] : List Word), (tiny m).params.legal = true
    ∧ (tinyKernel m).wf (tiny m).params ∧ 0 ≤ 2 :=
  forall_mem (by decide +kernel)

theorem witness_35 : ∀ m ∈ ([0, 1, 2, 4, 5, 6] : List Word), ((tiny m).params.legal = true
    ∧ (tinyKernel m).wf (tiny m).params) ∧ ∃ t, t ∈ (tinyKernel m).schedule (tiny m).params 0 2 := by
  intro m hm
  refine ⟨?_, List.exists_mem_of_ne_nil _ ?_⟩ <;> revert m <;> exact forall_mem (by decide +kernel)

/-- Each command that can raise an error, raising one: what statements 36 and 37 ask. -/
theorem witness_36 : ∀ x ∈ [(Instr.init, { tiny 1 with shape := badShape 0 }), (.preprocess, State.reset),
      (.compute, tinyReady 1), (.run, faulty ⟨0x61, true, false⟩ (tinyReady 0))],
    exec x.1 x.2 = .next (after x.1 x.2) ∧ x.2.err = false ∧ (after x.1 x.2).err = true := by
  have h : ∀ x ∈ [(Instr.init, { tiny 1 with shape := badShape 0 }), (.preprocess, State.reset),
      (.compute, tinyReady 1), (.run, faulty ⟨0x61, true, false⟩ (tinyReady 0))], x.2.err = false ∧ (after x.1 x.2).err = true := by
    decide +kernel
  exact fun x hx => ⟨exec_after _ _, h x hx⟩

theorem witness_38_busy : (facing [hostWrite 0x18 6] (holding .nop State.reset)).rst = false
    ∧ (facing [hostWrite 0x18 6] (holding .nop State.reset)).held ≠ none := by decide +kernel

theorem witness_38_error : (erring 1).rst = false ∧ (erring 1).err = true ∧ (1 : Word) ≠ 0x00000006
    ∧ (erring 1).events = .access ⟨0x18, 4, .write 1⟩ :: [] := by decide +kernel

/-- A dropped command, and the events that clear DROP. -/
theorem witness_38_clear : ∀ e ∈ [hostWrite 0x14 0x20, hostWrite 0x10 1, Event.rst true],
    ∃ t, ({ facing [e] State.reset with drop := true } : State).drop = true
      ∧ step { facing [e] State.reset with drop := true } = .next t ∧ t.drop = false := by
  intro e he
  fin_cases he
  · exact ⟨_, rfl, step_stepped (rest := []) rfl, by decide +kernel⟩
  · exact ⟨_, rfl, step_stepped (rest := []) rfl, by decide +kernel⟩
  · exact ⟨_, rfl, rfl, rfl⟩

theorem witness_39 : ∀ i ∈ [Instr.nop, .init, .preprocess, .compute, .run, .inval],
    (writing 0x18 (encode i) (tiny 1)).rst = false ∧ (writing 0x18 (encode i) (tiny 1)).held = none
      ∧ (writing 0x18 (encode i) (tiny 1)).err = false
      ∧ (writing 0x18 (encode i) (tiny 1)).events = .access ⟨0x18, 4, .write (encode i)⟩ :: [] := by decide +kernel

theorem witness_39_clrerr : (erring 6).rst = false ∧ (erring 6).held = none ∧ (erring 6).err = true
    ∧ (erring 6).events = .access ⟨0x18, 4, .write (encode .clrerr)⟩ :: [] := by decide +kernel

theorem witness_40 : ∀ w ∈ ([0x00000007, 0x00000100, 0xFFFFFFFF] : List Word),
    (writing 0x18 w State.reset).rst = false ∧ (writing 0x18 w State.reset).held = none
      ∧ (writing 0x18 w State.reset).err = false ∧ 6 < w.toNat
      ∧ (writing 0x18 w State.reset).events = .access ⟨0x18, 4, .write w⟩ :: [] := forall_mem (by decide +kernel)

theorem witness_41_illegal : State.reset.rst = false ∧ ((⟨0x00, 2, .read⟩ : PortAccess).bytes ≠ 4)
    ∧ (⟨0x03, 4, .read⟩ : PortAccess).offset.toNat % 4 ≠ 0 := by decide +kernel

theorem witness_41_reserved : ∀ o ∈ ([0x6C, 0xFC] : List Byte), State.reset.rst = false ∧ o.toNat % 4 = 0
    ∧ 0x6C ≤ o.toNat := by decide +kernel

theorem witness_41_res_bits : State.reset.reservedZero ∧ (tinyReady 2).reservedZero := by decide +kernel

/-- The first and the last row of statement 43's list. -/
theorem witness_43 : State.reset.rst = false ∧ regAt 0x00 = some .id ∧ regAt 0x68 = some .bufw := by decide +kernel

theorem witness_44 : (erring 6).errCode = .ringMiss ∧ State.reset.errCode = .none := by decide +kernel

theorem witness_45 : ∀ n ∈ [8, 255], Params.legal { w := 4, accN := n, addrW := 16 } = true ∧ n ≤ 255 := by decide +kernel

theorem witness_45_step : step State.reset = .next State.reset := rfl

theorem witness_46 : State.reset.kernel = none ∧ ∀ m ∈ ([0, 1, 2] : List Word),
    (tinyReady m).kernel = some (tinyKernel m) ∧ (tinyKernel m).wf (tinyReady m).params :=
  ⟨rfl, forall_mem (by decide +kernel)⟩

/-- A NOP about to complete while the host clears DONE_IS. -/
def clearing (i : Instr) : State :=
  facing [.accessAtCompletion ⟨0x24, 4, .write 0x00000003⟩] (holding i State.reset)

theorem witness_47 : ∀ i ∈ [Instr.nop, .run], (clearing i).rst = false ∧ (clearing i).err = false
    ∧ (clearing i).held = some (encode i) ∧ decode (encode i) = .ok i
    ∧ (clearing i).events = .accessAtCompletion ⟨0x24, 4, .write 0x00000003⟩ :: []
    ∧ exec i { clearing i with events := [] } = .next (after i { clearing i with events := [] })
    ∧ (after i { clearing i with events := [] }).held = none := by
  intro i hi
  fin_cases hi
  · exact ⟨rfl, rfl, rfl, by decide +kernel, rfl, exec_after _ _, by decide +kernel⟩
  · exact ⟨rfl, rfl, rfl, by decide +kernel, rfl, exec_after _ _, by decide +kernel⟩

/-- A command about to complete, with success or with an error, while the host writes CMD. -/
def handingOver (v : Word) (i : Instr) : State := facing [.accessAtCompletion ⟨0x18, 4, .write v⟩] (holding i State.reset)

theorem witness_47_cmd : ∀ x ∈ ([(.nop, 0x00000001, false), (.run, 0x00000006, true), (.run, 0x00000001, true)]
      : List (Instr × Word × Bool)),
    (handingOver x.2.1 x.1).rst = false ∧ (handingOver x.2.1 x.1).err = false
      ∧ (handingOver x.2.1 x.1).held = some (encode x.1) ∧ decode (encode x.1) = .ok x.1
      ∧ exec x.1 { handingOver x.2.1 x.1 with events := [] } = .next (after x.1 { handingOver x.2.1 x.1 with events := [] })
      ∧ (after x.1 { handingOver x.2.1 x.1 with events := [] }).held = none
      ∧ (after x.1 { handingOver x.2.1 x.1 with events := [] }).err = x.2.2 := by
  intro x hx
  refine ⟨rfl, rfl, rfl, by cases x.1 <;> decide +kernel, exec_after _ _, ?_, ?_⟩ <;> revert x <;>
    exact forall_mem (by decide +kernel)

theorem witness_48 : ({ State.reset with irqStatus := 3 } : State).irqStatus.getLsbD 0 = true
    ∧ ({ State.reset with irqStatus := 3 } : State).irqStatus.getLsbD 1 = true := by decide +kernel

theorem witness_50 : ∀ v ∈ ([0, 1] : List Word), (writing 0x10 v (holding .run (tinyReady 0))).rst = false
    ∧ (writing 0x10 v (holding .run (tinyReady 0))).events = .access ⟨0x10, 4, .write v⟩ :: []
    ∧ (v.getLsbD 0 = true ∨ v.getLsbD 0 = false) := forall_mem (by decide +kernel)

/-- A reset, soft or by `rst`, while a command is BUSY. -/
def abandoned (e : Event) (i : Instr) (s : State) : State := facing [e] (holding i s)

/-- Resets of statement 51: two words with bit 0 = 1, and `rst`. -/
def resets : List Event := [hostWrite 0x10 0x00000001, hostWrite 0x10 0xFFFFFFFF, .rst true]

theorem witness_51 : ∀ x ∈ accesses, ∀ e ∈ resets,
    ((abandoned e x.1 x.2.1).rst = false ∧ (abandoned e x.1 x.2.1).held = some (encode x.1)
      ∧ decode (encode x.1) = .ok x.1)
    ∧ (grounded (abandoned e x.1 x.2.1) ∧ (abandoned e x.1 x.2.1).ready x.1)
    ∧ ((∃ v : Word, v.getLsbD 0 = true ∧ (abandoned e x.1 x.2.1).events = .access ⟨0x10, 4, .write v⟩ :: [])
      ∨ (abandoned e x.1 x.2.1).events = .rst true :: []) := by
  intro x hx e he
  refine ⟨⟨?_, rfl, ?_⟩, ⟨accesses_grounded x hx, (accesses_ready x hx true).1⟩, ?_⟩
  · show x.2.1.rst = false
    revert x; decide +kernel
  · cases x.1 <;> decide +kernel
  · simp only [resets, List.mem_cons, List.not_mem_nil, or_false] at he
    rcases he with rfl | rfl | rfl
    · exact .inl ⟨0x00000001, by decide, rfl⟩
    · exact .inl ⟨0xFFFFFFFF, by decide, rfl⟩
    · exact .inr rfl

/-- A COMPUTE whose ring misses, and a command that moves no data. -/
theorem witness_51_stays : ∀ e ∈ resets,
    (grounded (abandoned e .compute (tinyReady 1)) ∧ ¬ (abandoned e .compute (tinyReady 1)).ready .compute)
    ∧ grounded (abandoned e .inval (tinyReady 1)) ∧ ¬ (abandoned e .inval (tinyReady 1)).ready .inval := by
  intro e _
  have hg : grounded (tinyReady 1) := accesses_grounded (.run, tinyReady 1, 0x60, true) (by simp [accesses])
  refine ⟨⟨hg, fun h => ?_⟩, hg, id⟩
  obtain ⟨K, hK, -, -, -, hr⟩ := h
  obtain rfl : tinyKernel 1 = K := Option.some.inj (((tiny_facts (tinyReady 1, 1) (by simp)).1).symm.trans hK)
  exact absurd (hr (by decide +kernel)).1
    (by show (tinyReady 1).rctx ≠ some ⟨(tinyReady 1).invocation.srcBase, (tinyReady 1).invocation.srcZp.setWidth 8⟩
        decide +kernel)

/-- The machine while `rst` is asserted. -/
def inReset (es : List Event) : State := { State.reset with rst := true, events := es }

theorem witness_52 : (∀ es, (inReset es).rst = true ∧ (inReset es).events = es)
    ∧ (inReset [hostWrite 0x18 0]).events = .access ⟨0x18, 4, .write 0⟩ :: [] := ⟨fun _ => ⟨rfl, rfl⟩, rfl⟩

/-- The platform drives `rst` to the other level, and to the level it has. -/
theorem witness_52_drive : ∀ x ∈ [(true, facing [.rst true] (holding .run (tinyReady 0))), (false, inReset [.rst false])],
    x.2.rst = !x.1 ∧ x.2.events = .rst x.1 :: [] := by decide +kernel

theorem witness_52_same : ∀ s ∈ [facing [.rst false] (tinyReady 0), inReset [.rst true]], s.events = .rst s.rst :: [] := by
  decide +kernel

theorem witness_53 : ∀ a ∈ [0, 2 ^ 32 - 1], (facing [.memWrite a 7] (tiny 0)).mem.wf = true
    ∧ a < 2 ^ (facing [.memWrite a 7] (tiny 0)).params.addrW
    ∧ (facing [.memWrite a 7] (tiny 0)).events = .memWrite a 7 :: [] := by decide +kernel

theorem witness_53_races : (∀ r ∈ (besideWeights 0).races, r.address ≠ 0x10)
    ∧ ∃ r ∈ (besideWeights 0).races, r.address = 0x0F := by decide +kernel

/-- A RUN that is BUSY; the host has written a source byte and a destination byte since it was accepted. -/
def racing : State := hostStore 0x60 9 (hostStore 0x45 7 (holding .run (tinyReady 0)))

/-- A destination byte of `racing`, and its neighbours. -/
theorem witness_53_load : (∀ a ∈ [0x60, 0x61], ∃ u, racing.pendingByte a = some u)
    ∧ (∀ a ∈ [0x5F, 0x62], racing.pendingByte a = none)
    ∧ ∀ a ∈ [0x5F, 0x60, 0x61, 0x62], a < 2 ^ (facing [.memRead a] racing).params.addrW
      ∧ (facing [.memRead a] racing).events = .memRead a :: [] := by
  have h : ∀ a ∈ [0x60, 0x61], (racing.pendingByte a).isSome = true := by decide +kernel
  exact ⟨fun a ha => Option.isSome_iff_exists.mp (h a ha), by decide +kernel, by decide +kernel⟩

/-- The host has read the first destination byte and seen the command's value. -/
theorem witness_53_shown : racing.mem.wf = true ∧ ({ racing with shown := [(0x60, 14)] } : State).pendingByte 0x60 = some 14
    ∧ ({ racing with shown := [(0x60, 14)] } : State).shown.lookup 0x60 = some 14 := by decide +kernel

theorem witness_53_completes : racing.held = some 0x00000004 ∧ decode 0x00000004 = .ok .run ∧ racing.err = false
    ∧ exec .run racing = .next (after .run racing) ∧ (after .run racing).held = none ∧ (after .run racing).err = false
    ∧ ∃ r ∈ racing.races, r.address = 0x60 :=
  ⟨by decide +kernel, by decide +kernel, by decide +kernel, exec_after _ _, by decide +kernel, by decide +kernel,
    by decide +kernel⟩

/-- A kernel object, a filled ring, and the engine's turn on a command. -/
def filledTurn (i : Instr) : State := holding i { tinyFilled 1 with done := false }

/-- What statements 54 to 59 ask. -/
theorem witness_54 : ∀ i, (filledTurn i).inv ∧ step (filledTurn i) = .next (stepped (filledTurn i)) := by
  have hk : ∀ i, (filledTurn i).kernel = some (tinyKernel 1) := by intro i; cases i <;> decide +kernel
  have ht : ∀ i < (tinyFilled 1).ring.length, ∀ b ∈ tagAt (tinyFilled 1).ring i, (tinyKernel 1).slotOf b = i := by
    decide +kernel
  have hw : (tinyKernel 1).wf (tinyFilled 1).params := by decide +kernel
  have hr : ∃ x, (tinyFilled 1).rctx = some x := ⟨⟨0x40, 0⟩, by decide +kernel⟩
  have hl : (tinyFilled 1).ring.length = (tinyKernel 1).bufH := by decide +kernel
  intro i
  refine ⟨⟨by cases i <;> decide +kernel, by cases i <;> decide +kernel, by cases i <;> decide +kernel, ?_, ⟨?_, ?_⟩,
    by cases i <;> decide +kernel⟩, turn_stepped (w := encode i) (i := i) rfl rfl (by cases i <;> decide) rfl⟩
  · intro K hK
    obtain rfl : tinyKernel 1 = K := Option.some.inj ((hk i).symm.trans hK)
    exact hw
  · intro K hK
    obtain rfl : tinyKernel 1 = K := Option.some.inj ((hk i).symm.trans hK)
    exact ⟨hl, tags_of_slots ht⟩
  · intro h
    obtain ⟨x, hx⟩ := hr
    rcases h with h | h
    · exact absurd ((hk i).symm.trans h) (by simp)
    · exact absurd (hx.symm.trans h) (by simp)

end Sys2Proof.Tests
end

section
/-!
PROOFS. The statements about the scope's functions (spec 00_scope.md).
-/
namespace Sys2Proof.Machine

/-! ### next_pow2 (R16) -/

/-- Below two, next_pow2 is the first power. -/
theorem nextPow2_of_le_one {n : Nat} (h : n ≤ 1) : nextPow2 n = 2 ^ 0 := by
  simp [nextPow2, h]

/-- From two on, the exponent is the bit length of n - 1. -/
theorem nextPow2_of_one_lt {n : Nat} (h : 1 < n) : nextPow2 n = 2 ^ (Nat.log2 (n - 1) + 1) := by
  simp [nextPow2, Nat.not_le.mpr h]

theorem nextPow2_eq_pow (n : Nat) : ∃ k, nextPow2 n = 2 ^ k := by
  rcases Nat.lt_or_ge 1 n with h | h
  · exact ⟨_, nextPow2_of_one_lt h⟩
  · exact ⟨0, nextPow2_of_le_one h⟩

/-- The powers of two above next_pow2(n) are exactly those above n; that next_pow2(n) is at least n and that it is the
smallest such power are this fact's two directions. -/
theorem nextPow2_le_pow_iff (n j : Nat) : nextPow2 n ≤ 2 ^ j ↔ n ≤ 2 ^ j := by
  have hpos : 1 ≤ 2 ^ j := Nat.one_le_two_pow
  rcases Nat.lt_or_ge 1 n with h | h
  · have hne : n - 1 ≠ 0 := by omega
    calc nextPow2 n ≤ 2 ^ j ↔ 2 ^ (Nat.log2 (n - 1) + 1) ≤ 2 ^ j := by rw [nextPow2_of_one_lt h]
      _ ↔ Nat.log2 (n - 1) < j := Nat.pow_le_pow_iff_right (by decide)
      _ ↔ n - 1 < 2 ^ j := Nat.log2_lt hne
      _ ↔ n ≤ 2 ^ j := by omega
  · rw [nextPow2_of_le_one h]
    omega

theorem le_nextPow2 (n : Nat) : n ≤ nextPow2 n := by
  obtain ⟨k, hk⟩ := nextPow2_eq_pow n
  rw [hk]
  exact (nextPow2_le_pow_iff n k).mp (Nat.le_of_eq hk)

/-- Settles O15: the two bounds are the two directions of `nextPow2_le_pow_iff`. -/
theorem nextPow2IsTheSmallest : Obligations.NextPow2IsTheSmallest :=
  fun n => ⟨nextPow2_eq_pow n, le_nextPow2 n, fun j => (nextPow2_le_pow_iff n j).mpr⟩

end Sys2Proof.Machine
end

section
/-!
PROOFS. Acceptance of a command and the steps of the machine, in the shape that the invariants of 10_state.md use.
-/
namespace Sys2Proof.Machine

/-! ### Acceptance -/

/-- All an accepted word can do (R84, R90, R98, R145): an illegal word raises its error, INIT discards the kernel
object, CLRERR clears the error, and every other command at most latches its operands. -/
theorem acceptCommand_cases (w : Word) (s : State) :
    (∃ r, decode w = .error r ∧ acceptCommand w s = raiseError .cmdIllegal w (takeCommand w s))
      ∨ (decode w = .ok .init ∧ acceptCommand w s = discardKernel { takeCommand w s with latched := some s.shape })
      ∨ (decode w = .ok .clrerr ∧ acceptCommand w s = clearError (takeCommand w s))
      ∨ ∃ i c, decode w = .ok i ∧ i ≠ .init ∧ i ≠ .clrerr ∧ acceptCommand w s = { takeCommand w s with call := c } := by
  cases hd : decode w with
  | error r => exact .inl ⟨r, rfl, acceptCommand_illegal hd s⟩
  | ok i =>
    have hl := acceptCommand_legal hd s
    unfold latchCommand at hl
    rw [hd] at hl
    cases i with
    | init => exact .inr (.inl ⟨rfl, hl⟩)
    | clrerr => exact .inr (.inr (.inl ⟨rfl, hl⟩))
    | nop => exact .inr (.inr (.inr ⟨_, none, rfl, by decide, by decide, hl⟩))
    | inval => exact .inr (.inr (.inr ⟨_, none, rfl, by decide, by decide, hl⟩))
    | preprocess => exact .inr (.inr (.inr ⟨_, _, rfl, by decide, by decide, hl⟩))
    | compute => exact .inr (.inr (.inr ⟨_, _, rfl, by decide, by decide, hl⟩))
    | run => exact .inr (.inr (.inr ⟨_, _, rfl, by decide, by decide, hl⟩))

/-- An instruction's word holds its opcode and decodes to it (R83). -/
theorem encode_spec (j : Instr) : decode (encode j) = .ok j ∧ opField (encode j) = opcode j := by
  cases j <;> decide

/-! ### What a step that is no command changes -/

/-- `s` with other host registers, another DROP, and another surrounding: events, answers, and what host reads saw. -/
abbrev State.hostSide (s : State) (ev : List Event) (x : Response) (l : List Host.Cell) (n : Nat) (po : List PortFault)
    (d : Bool) (en is : Word) (sh : ShapeRegs) (cr : CallRegs) : State :=
  { s with
    events := ev, resp := x, shown := l, peeks := n, port := po, drop := d, irqEn := en, irqStatus := is, shape := sh,
    callRegs := cr }

/-- A step keeps what does not depend on the host's side and is kept by every command, by an illegal held word, by
acceptance (of CLRERR, or without an error), by a direct store and by reset. -/
theorem step_keeps {P : State → Prop}
    (hostSide : ∀ s ev x l n po d en is sh cr, P s → P (s.hostSide ev x l n po d en is sh cr))
    (command : ∀ s w i t, s.held = some w → decode w = .ok i → P s → exec i s = .next t → P t)
    (illegal : ∀ s w, s.held = some w → P s → P (raiseError .cmdIllegal w s))
    (accept : ∀ s w, (s.err = false ∨ w = encode .clrerr) → P s → P (acceptCommand w s))
    (store : ∀ s a v, P s → P (hostStore a v s))
    (reset : ∀ s b, P s → P { resetMachine s with rst := b })
    {s t : State} (hs : P s) (h : step s = .next t) : P t := by
  have write : ∀ s v e r, P s → P (writeReg s v e r) := by
    intro s v e r hs
    have drop : ∀ d, P { s with drop := d } := fun d => hostSide s _ _ _ _ _ d _ _ _ _ hs
    rcases writeReg_cases s v e r with e | ⟨-, -, e⟩ | ⟨-, e⟩ | ⟨-, e⟩ | ⟨en, is, sh, cr, e⟩ <;> rw [e]
    · exact hs
    · exact reset s s.rst hs
    · exact drop false
    · rcases submitCommand_cases v s with ⟨-, e⟩ | ⟨-, he, e⟩ <;> rw [e]
      · exact drop true
      · exact accept s v he hs
    · exact hostSide s _ _ _ _ _ _ en is sh cr hs
  exact step_preserves (fun s ev hs => hostSide s ev _ _ _ _ _ _ _ _ _ hs) command illegal
    (fun s x hs => hostSide s _ x _ _ _ _ _ _ _ _ hs) write store
    (fun s x l n hs => hostSide s _ x l n _ _ _ _ _ _ hs) (fun s po hs => hostSide s _ _ _ _ po _ _ _ _ _ hs)
    reset hs h

/-- What a command leaves, by the end it comes to (R147, R148, R152). -/
theorem exec_result {i : Instr} {s t : State} (h : exec i s = .next t) :
    (i = .clrerr ∧ t = complete (clearError s))
      ∨ (i ≠ .clrerr ∧ ∃ k r x a m,
          t = complete (s.worked k r x a m)
            ∨ (∃ code info, code ≠ .none ∧ t = raiseError code info (s.worked k r x a m))
            ∨ (t = s.worked k r x a m ∧ m = s.mem)) := by
  have next : ∀ {u}, exec i s = .next u → t = u := fun e => by injection h.symm.trans e
  rcases exec_outcome i s with ⟨hi, e⟩ | ⟨hi, k, r, x, a, m, e | ⟨code, info, hc, e⟩ | ⟨e, hm, -⟩⟩
  · exact .inl ⟨hi, next e⟩
  · exact .inr ⟨hi, k, r, x, a, m, .inl (next e)⟩
  · exact .inr ⟨hi, k, r, x, a, m, .inr (.inl ⟨code, info, hc, next e⟩)⟩
  · exact .inr ⟨hi, k, r, x, a, m, .inr (.inr ⟨next e, hm⟩)⟩

/-- The host's registers, the parameters, DROP, LASTCMD and what is outside the block are as before a command (R56). -/
theorem exec_sameAround {i : Instr} {s t : State} (h : exec i s = .next t) : s.sameAround t := by
  rcases exec_result h with ⟨-, rfl⟩ | ⟨-, k, r, x, a, m, rfl | ⟨code, info, -, rfl⟩ | ⟨rfl, -⟩⟩
  · exact ⟨⟨rfl, rfl, rfl, rfl, rfl, rfl⟩, rfl, rfl, rfl, rfl⟩
  · exact (complete_worked s k r x a m).2.2.2
  · exact (raiseError_worked s k r x a m code info).2.2.2.2
  · exact ⟨⟨rfl, rfl, rfl, rfl, rfl, rfl⟩, rfl, rfl, rfl, rfl⟩

/-! ### The parameters (R10) -/

/-- No step changes the parameters (R10). -/
theorem step_params {s t : State} (h : step s = .next t) : t.params = s.params := by
  refine step_keeps (P := fun u => u.params = s.params) (fun _ _ _ _ _ _ _ _ _ _ _ hu => hu) ?command
    (fun _ _ _ hu => hu) ?accept (fun _ _ _ hu => hu) (fun _ _ hu => hu) rfl h
  case command =>
    intro u w i v _ _ hu h
    obtain ⟨⟨e, -⟩, -⟩ := exec_sameAround h
    exact e.trans hu
  case accept =>
    intro u w _ hu
    rcases acceptCommand_cases w u with ⟨r, -, e⟩ | ⟨-, e⟩ | ⟨-, e⟩ | ⟨i, c, -, -, -, e⟩ <;> rw [e] <;> exact hu

/-! ### The latched operands (R48) -/

/-- What no command is running on has no latched operands. -/
theorem contextOk_released {s : State} (hc : s.call = none) (hl : s.latched = none) : s.contextOk := fun _ => ⟨hc, hl⟩

/-- While BUSY there is nothing to show. -/
theorem contextOk_busy {s : State} {w : Word} (h : s.held = some w) : s.contextOk := fun hb => by
  simp [State.busy, h] at hb

/-- Settles O59: every end of a command drops what it latched, and acceptance latches for the command it holds. -/
theorem contextOnlyWhileBusy : Obligations.ContextOnlyWhileBusy := by
  intro s t
  refine step_keeps (P := State.contextOk) (fun _ _ _ _ _ _ _ _ _ _ _ hs => hs) ?command
    (fun _ _ _ _ => contextOk_released rfl rfl) ?accept (fun _ _ _ hs => hs) (fun _ _ _ => contextOk_released rfl rfl)
  case command =>
    intro s w i t hh _ hs h
    rcases exec_result h with ⟨-, rfl⟩ | ⟨-, k, r, x, a, m, rfl | ⟨code, info, -, rfl⟩ | ⟨rfl, -⟩⟩
    · exact contextOk_released rfl rfl
    · exact contextOk_released rfl rfl
    · exact contextOk_released rfl rfl
    · exact hs
  case accept =>
    intro s w _ _
    rcases acceptCommand_cases w s with ⟨r, -, e⟩ | ⟨-, e⟩ | ⟨-, e⟩ | ⟨i, c, -, -, -, e⟩ <;> rw [e]
    · exact contextOk_released rfl rfl
    · exact contextOk_busy rfl
    · exact contextOk_busy rfl
    · exact contextOk_busy rfl

/-! ### The res bits (R21) -/

/-- An interrupt event of R33 sets no res bit. -/
theorem reservedZero_event {s : State} {e : Word} (hs : s.reservedZero) (he : e &&& ~~~irqEnMask = 0) :
    ({ s with irqStatus := s.irqStatus ||| e } : State).reservedZero := by
  obtain ⟨hen, his, hrest⟩ := hs
  refine ⟨hen, ?_, hrest⟩
  calc (s.irqStatus ||| e) &&& ~~~irqEnMask
      = (s.irqStatus &&& ~~~irqEnMask) ||| (e &&& ~~~irqEnMask) := BitVec.and_or_distrib_right
    _ = 0 := by rw [his, he]; rfl

/-- A masked write stores no bit outside the mask. -/
theorem and_mask_reserved (v mask : Word) : v &&& mask &&& ~~~mask = 0 := by
  rw [BitVec.and_assoc, BitVec.and_not_self]
  exact BitVec.and_zero

/-- The reset values of the registers have no res bit set (R161). -/
theorem reservedZero_reset (s : State) : (resetMachine s).reservedZero := by
  show State.reset.reservedZero
  decide

/-- Acceptance changes no register with res bits, but for ERR_IS of an illegal word. -/
theorem acceptCommand_reservedZero (w : Word) {s : State} (hs : s.reservedZero) : (acceptCommand w s).reservedZero := by
  rcases acceptCommand_cases w s with ⟨r, -, e⟩ | ⟨-, e⟩ | ⟨-, e⟩ | ⟨i, c, -, -, -, e⟩ <;> rw [e]
  · exact reservedZero_event hs (by decide)
  · exact hs
  · exact hs
  · exact hs

/-- A write of STATUS clears DROP where bit 5 is 1 (R28). -/
theorem writeReg_status (s : State) (v e : Word) :
    writeReg s v e .status = { s with drop := s.drop && !v.getLsbD 5 } := by
  unfold writeReg
  cases v.getLsbD 5 <;> simp

/-- A register write stores no res bit (R21, R32, R33, R35, R37, R39). -/
theorem writeReg_reservedZero {s : State} (hs : s.reservedZero) (v e : Word) (r : Reg) :
    (writeReg s v e r).reservedZero := by
  obtain ⟨hen, his, hc, hd, hm⟩ := hs
  cases r with
  | irqEn => exact ⟨and_mask_reserved v irqEnMask, his, hc, hd, hm⟩
  | irqStatus =>
    refine ⟨hen, ?_, hc, hd, hm⟩
    show s.irqStatus &&& ~~~(v &&& ~~~e) &&& ~~~irqEnMask = 0
    rw [BitVec.and_assoc, BitVec.and_comm (~~~_), ← BitVec.and_assoc, his]
    exact BitVec.zero_and
  | shapeC => exact ⟨hen, his, and_mask_reserved v shapeCMask, hd, hm⟩
  | dil => exact ⟨hen, his, hc, and_mask_reserved v dilMask, hm⟩
  | mode => exact ⟨hen, his, hc, hd, and_mask_reserved v modeMask⟩
  | ctrl =>
    show (if v.getLsbD 0 then resetMachine s else s).reservedZero
    split
    · exact reservedZero_reset s
    · exact ⟨hen, his, hc, hd, hm⟩
  | cmd =>
    show (submitCommand v s).reservedZero
    rcases submitCommand_cases v s with ⟨-, e⟩ | ⟨-, -, e⟩ <;> rw [e]
    · exact ⟨hen, his, hc, hd, hm⟩
    · exact acceptCommand_reservedZero v ⟨hen, his, hc, hd, hm⟩
  | status => exact writeReg_status s v e ▸ ⟨hen, his, hc, hd, hm⟩
  | _ => exact ⟨hen, his, hc, hd, hm⟩

/-- Settles O58: what a write stores is masked, and the events of R33 are bits 0 and 1. -/
theorem reservedBitsStayZero : Obligations.ReservedBitsStayZero := by
  intro s t
  refine step_preserves (P := State.reservedZero) (fun _ _ hs => hs) ?command
    (fun _ _ _ hs => reservedZero_event hs (by decide)) (fun _ _ hs => hs)
    (fun _ v e r hs => writeReg_reservedZero hs v e r)
    (fun _ _ _ hs => hs) (fun _ _ _ _ hs => hs) (fun _ _ hs => hs) (fun s _ _ => reservedZero_reset s)
  intro s w i t _ _ hs h
  rcases exec_result h with ⟨-, rfl⟩ | ⟨-, k, r, x, a, m, rfl | ⟨code, info, -, rfl⟩ | ⟨rfl, -⟩⟩
  · exact reservedZero_event hs (by decide)
  · exact reservedZero_event hs (by decide)
  · exact reservedZero_event hs (by decide)
  · exact hs

/-! ### The status invariants (R29) -/

/-- The status after an error is raised while DONE is 0 (R148). -/
theorem statusOk_raiseError {s : State} {code : ErrorCode} (hd : s.done = false) (hc : code ≠ .none) (info : Word) :
    (raiseError code info s).statusOk := by
  simp [State.statusOk, State.busy, hd, hc]

/-- The status without an error, while BUSY and DONE are not both 1. -/
theorem statusOk_noError {s : State} (he : s.err = false) (hc : s.errCode = .none) (hi : s.errInfo = 0)
    (hb : s.held = none ∨ s.done = false) : s.statusOk := by
  rcases hb with hb | hb <;> simp [State.statusOk, State.busy, he, hc, hi, hb]

/-- Settles O54: a command runs only with ERR and DONE 0, so its completion sets exactly one of them. -/
theorem statusInvariantIsKept : Obligations.StatusInvariantIsKept := by
  intro s t
  have running : ∀ {s : State} {w : Word}, s.held = some w → s.statusOk →
      s.err = false ∧ s.done = false ∧ s.errCode = .none ∧ s.errInfo = 0 := by
    rintro s w hh ⟨hb, -, hc, hi⟩
    obtain ⟨he, hd⟩ := hb (by simp [State.busy, hh])
    exact ⟨he, hd, hc.mpr he, hi he⟩
  refine step_keeps (P := State.statusOk) (fun _ _ _ _ _ _ _ _ _ _ _ hs => hs) ?command
    (fun s w hh hs => statusOk_raiseError (running hh hs).2.1 (by decide) w) ?accept (fun _ _ _ hs => hs)
    (fun _ _ _ => statusOk_noError rfl rfl rfl (.inl rfl))
  case command =>
    intro s w i t hh _ hs h
    obtain ⟨he, hd, hc, hi⟩ := running hh hs
    rcases exec_result h with ⟨-, rfl⟩ | ⟨-, k, r, x, a, m, rfl | ⟨code, info, hne, rfl⟩ | ⟨rfl, -⟩⟩
    · exact statusOk_noError rfl rfl rfl (.inl rfl)
    · exact statusOk_noError he hc hi (.inl rfl)
    · exact statusOk_raiseError hd hne info
    · exact hs
  case accept =>
    rintro s w hw ⟨-, -, hc, hi⟩
    have noError : decode w ≠ .ok .clrerr → s.err = false := fun hd =>
      hw.resolve_right fun hw => hd (hw ▸ (encode_spec .clrerr).1)
    rcases acceptCommand_cases w s with ⟨r, hd, e⟩ | ⟨hd, e⟩ | ⟨-, e⟩ | ⟨i, c, hd, -, hne, e⟩ <;> rw [e]
    · exact statusOk_raiseError rfl (by decide) w
    · have he := noError (by simp [hd])
      exact statusOk_noError he (hc.mpr he) (hi he) (.inr rfl)
    · exact statusOk_noError rfl rfl rfl (.inr rfl)
    · have he := noError (by simpa [hd] using hne)
      exact statusOk_noError he (hc.mpr he) (hi he) (.inr rfl)

end Sys2Proof.Machine
end

section
/-!
PROOFS. What a command leaves in the data space, in the kernel object and in the ring, and that every step keeps their
invariants.
-/
namespace Sys2Proof.Machine

/-! ### What a command leaves -/

@[simp] theorem invalidateTags_invalidateTags (ring : List Slot) :
    invalidateTags (invalidateTags ring) = invalidateTags ring := by simp [invalidateTags]

/-- RUN's loop leaves the ring filled with a run of padded rows (R120). -/
theorem runRows_ring (s : State) (K : Kernel) (I : CallRegs) (ring : List Slot) (b k : Nat) :
    ∃ rows, (runRows s K I (List.range' b k) ring (K.byBeg b)).1
      = K.fillRows s.params.w I.srcZpByte (s.source K I) ring rows := by
  have h := (runRows_spec s K I ring (K.byBeg b) k b (K.byBeg b) (Nat.le_refl _) (Nat.le_add_right _ _)).1
  simp only [State.filledTo, Nat.sub_self, List.range'_zero] at h
  exact ⟨_, h⟩

/-- What a command that starts in `s` can leave of the kernel object, the ring and its context. -/
inductive State.LeavesData (s t : State) : Prop
  /-- they are as before -/
  | kept (hk : t.kernel = s.kernel) (hr : t.ring = s.ring) (hx : t.rctx = s.rctx)
  /-- the ring is empty (R97, R103, R148) -/
  | emptied (hk : t.kernel = s.kernel) (hr : t.ring = invalidateTags s.ring)
  /-- padded rows fill the ring, which may have been emptied first (R103, R104, R120) -/
  | filled (K : Kernel) (x : RingCtx) (w : Nat) (zp : Byte) (src : Source) (ring : List Slot) (rows : List Nat)
      (hs : s.kernel = some K) (hk : t.kernel = some K) (hx : t.rctx = some x)
      (hring : ring = s.ring ∨ ring = invalidateTags s.ring) (hr : t.ring = K.fillRows w zp src ring rows)
  /-- INIT has discarded the kernel object (R90) -/
  | discarded (hk : t.kernel = none) (hr : t.ring = invalidateTags s.ring)
  /-- INIT has loaded another (R90, R94) -/
  | loaded (hc : firstError (initChecks s.params s.initOperands) = none)
      (hk : t.kernel = some (s.loadKernel s.initOperands)) (hr : t.ring = (s.loadKernel s.initOperands).emptySlots)

/-- The ring an invocation fills from is as it was, or emptied (R103). -/
theorem ringFor_cases (s : State) (I : CallRegs) :
    (s.rctx = some I.ringCtx ∧ ringFor s I = s.ring) ∨ ringFor s I = invalidateTags s.ring := by
  unfold ringFor
  split
  · exact .inl ⟨‹_›, rfl⟩
  · exact .inr rfl

/-- What a plan of COMPUTE or RUN starts from and leaves of the ring: as before, or filled after being emptied. -/
abbrev Plan.fits (s : State) (P : Plan) : Prop :=
  (P.started = s.ring ∧ P.ring = s.ring ∧ P.rctx = s.rctx)
    ∨ ∃ K x w zp src rows, s.kernel = some K ∧ P.rctx = some x ∧ P.started = invalidateTags s.ring
        ∧ P.ring = K.fillRows w zp src (invalidateTags s.ring) rows

theorem computePlan_fits {s : State} {P : Plan} (h : computePlan s = .ok P) : P.fits s := by
  rcases computePlan_cases s with ⟨-, e⟩ | ⟨K, -, ⟨_, -, e⟩ | ⟨-, ⟨-, e⟩ | ⟨-, ⟨-, e⟩ | ⟨-, ⟨_, -, e⟩ | ⟨-, e⟩⟩⟩⟩⟩ <;>
    rw [e] at h <;> cases h
  · exact .inl ⟨rfl, rfl, rfl⟩
  · exact .inl ⟨rfl, rfl, rfl⟩
  · exact .inl ⟨rfl, rfl, rfl⟩

theorem runPlan_fits {s : State} {P : Plan} (h : runPlan s = .ok P) : P.fits s := by
  rcases runPlan_cases s with ⟨-, e⟩ | ⟨K, hK, ⟨_, -, e⟩ | ⟨-, ⟨-, e⟩ | ⟨-, ⟨-, e⟩ | ⟨-, e⟩⟩⟩⟩ <;>
    rw [e] at h <;> cases h
  · exact .inl ⟨rfl, rfl, rfl⟩
  · exact .inl ⟨rfl, rfl, rfl⟩
  · obtain ⟨rows, hrows⟩ := runRows_ring s K s.invocation (invalidateTags s.ring) s.invocation.dyBeg
      (s.invocation.dyEnd - s.invocation.dyBeg)
    exact .inr ⟨K, _, _, _, _, rows, hK, rfl, rfl, hrows⟩

/-- A plan changes the data space by its own run of bytes at most, and the ring as it says (R112, R122). -/
theorem finishPlan_leavesData {s t : State} {P : Plan} (hP : P.fits s) (h : finishPlan s P = .next t) :
    s.LeavesData t ∧ ∃ f a vs, t.mem = s.storedBytes f a vs := by
  have next : ∀ {u}, finishPlan s P = .next u → t = u := fun e => by injection h.symm.trans e
  rcases finishPlan_cases s P with ⟨-, e⟩ | ⟨a, -, e⟩ | ⟨-, e⟩ <;> rw [next e]
  · refine ⟨?_, _, _, _, rfl⟩
    rcases hP with ⟨-, hr, hx⟩ | ⟨K, x, w, zp, src, rows, hK, hx, -, hr⟩
    · exact .kept rfl hr hx
    · exact .filled K x w zp src _ rows hK hK hx (.inr rfl) hr
  · exact ⟨.emptied rfl rfl, _, _, _, rfl⟩
  · refine ⟨?_, fun _ v => v, 0, [], rfl⟩
    rcases hP with ⟨hr, -, hx⟩ | ⟨K, x, w, zp, src, rows, hK, hx, hr, -⟩
    · exact .kept rfl hr hx
    · exact .emptied rfl hr

/-- All a command leaves of the kernel object, the ring and the data space; the latter changes by one run of bytes at
most (R66). -/
theorem exec_leavesData {i : Instr} {s t : State} (h : exec i s = .next t) :
    s.LeavesData t ∧ ∃ f a vs, t.mem = s.storedBytes f a vs := by
  have next : ∀ {u}, exec i s = .next u → t = u := fun e => by injection h.symm.trans e
  have noStore : ∃ f a vs, s.mem = s.storedBytes f a vs := ⟨fun _ v => v, 0, [], rfl⟩
  cases i with
  | nop => exact next (u := complete s) rfl ▸ ⟨.kept rfl rfl rfl, noStore⟩
  | inval => exact next (u := complete (emptyRing s)) rfl ▸ ⟨.emptied rfl rfl, noStore⟩
  | clrerr => exact next (u := complete (clearError s)) rfl ▸ ⟨.kept rfl rfl rfl, noStore⟩
  | init =>
    rcases execInit_cases s with ⟨_, _, -, e⟩ | ⟨hc, ⟨-, e⟩ | ⟨_, -, e⟩ | ⟨-, e⟩⟩ <;> rw [next e]
    · exact ⟨.discarded rfl (invalidateTags_invalidateTags _), noStore⟩
    · exact ⟨.loaded hc rfl rfl, noStore⟩
    · exact ⟨.discarded rfl (invalidateTags_invalidateTags _), noStore⟩
    · exact ⟨.discarded rfl rfl, noStore⟩
  | preprocess =>
    have hring := ringFor_cases s s.invocation
    rcases execPreprocess_cases s with
      ⟨-, e⟩ | ⟨K, hK, ⟨_, _, -, e⟩ | ⟨-, ⟨-, e⟩ | ⟨-, -, ⟨-, e⟩ | ⟨_, -, e⟩ | ⟨-, e⟩⟩⟩⟩ <;> rw [next e]
    · exact ⟨.emptied rfl rfl, noStore⟩
    · exact ⟨.emptied rfl rfl, noStore⟩
    · exact ⟨.kept rfl rfl rfl, noStore⟩
    · exact ⟨.filled K _ _ _ _ _ _ hK hK rfl (hring.imp_left And.right) rfl, noStore⟩
    · refine ⟨.emptied rfl ?_, noStore⟩
      show invalidateTags (ringFor s s.invocation) = _
      rcases hring with ⟨-, hr⟩ | hr <;> simp [hr]
    · refine ⟨?_, noStore⟩
      rcases hring with ⟨hx, hr⟩ | hr
      · exact .kept rfl hr hx.symm
      · exact .emptied rfl hr
  | compute =>
    rcases execCompute_cases s with ⟨_, _, -, e⟩ | ⟨P, hP, e⟩
    · exact next e ▸ ⟨.emptied rfl rfl, noStore⟩
    · exact finishPlan_leavesData (computePlan_fits hP) (Eq.trans e.symm h)
  | run =>
    rcases execRun_cases s with ⟨_, _, -, e⟩ | ⟨P, hP, e⟩
    · exact next e ▸ ⟨.emptied rfl rfl, noStore⟩
    · exact finishPlan_leavesData (runPlan_fits hP) (Eq.trans e.symm h)

/-! ### The data space (R20) -/

theorem storedBytes_wf {s : State} (hm : s.mem.wf = true) (f : Nat → Byte → Byte) (a : Nat) (vs : List Byte) :
    (s.storedBytes f a vs).wf = true := Memory.wf_writeBytes hm

theorem abandonedMem_wf {s : State} (hm : s.mem.wf = true) : s.abandonedMem.wf = true := by
  unfold State.abandonedMem
  split
  · exact storedBytes_wf hm _ _ _
  · exact hm

/-- Settles O55: the data space is only ever written byte by byte, and each write keeps the form. -/
theorem memoryFormIsKept : Obligations.MemoryFormIsKept := by
  intro s t
  refine step_keeps (P := fun s => s.mem.wf = true) (fun _ _ _ _ _ _ _ _ _ _ _ hs => hs) ?command
    (fun _ _ _ hs => hs) ?accept (fun _ _ _ hs => Memory.wf_write hs) (fun _ _ hs => abandonedMem_wf hs)
  case command =>
    intro s w i t _ _ hs h
    obtain ⟨-, f, a, vs, e⟩ := exec_leavesData h
    exact e ▸ storedBytes_wf hs f a vs
  case accept =>
    intro s w _ hs
    rcases acceptCommand_cases w s with ⟨r, -, e⟩ | ⟨-, e⟩ | ⟨-, e⟩ | ⟨i, c, -, -, -, e⟩ <;> rw [e] <;> exact hs

/-! ### The kernel object (R47) -/

/-- A field is below 2 to its width (R82). -/
theorem bits_lt (v : Word) (hi lo : Nat) : bits v hi lo < 2 ^ (hi + 1 - lo) := Nat.mod_lt _ (Nat.two_pow_pos _)

/-- MODE.VAR 2 is variant 2, and 3 is no variant (R39, R91). -/
theorem variant_eq_v2 {S : ShapeRegs} (h3 : S.var ≠ 3) (hv : S.variant = .v2) : S.var = 2 := by
  have hl : S.var < 4 := bits_lt S.mode 1 0
  obtain h | h | h | h : S.var = 0 ∨ S.var = 1 ∨ S.var = 2 ∨ S.var = 3 := by omega
  · simp [ShapeRegs.variant, h] at hv
  · simp [ShapeRegs.variant, h] at hv
  · exact h
  · exact absurd h h3

/-- The object INIT loads has the values R92 and R95 derive, whatever its operands. -/
theorem loadKernel_derivedOk (s : State) (S : ShapeRegs) : (s.loadKernel S).derivedOk s.params :=
  ⟨⟨rfl, rfl⟩, ⟨rfl, rfl⟩, ⟨rfl, rfl⟩, rfl, rfl, rfl,
    ⟨by simp [State.loadKernel, ShapeRegs.layout], by simp [State.loadKernel, ShapeRegs.layout],
      by simp [State.loadKernel, ShapeRegs.layout]⟩, rfl⟩

/-- The widths of the fields INIT latches (R34 to R38). -/
theorem ShapeRegs.fields_lt (S : ShapeRegs) :
    (S.srcH < 65536 ∧ S.srcW < 65536) ∧ (S.ky < 256 ∧ S.kx < 256 ∧ S.sy < 256 ∧ S.sx < 256)
      ∧ (S.dily < 256 ∧ S.dilx < 256) ∧ (S.pt < 256 ∧ S.pl < 256 ∧ S.pb < 256 ∧ S.pr < 256) :=
  ⟨⟨bits_lt S.shapeSrc 15 0, bits_lt S.shapeSrc 31 16⟩,
    ⟨bits_lt S.kernelReg 7 0, bits_lt S.kernelReg 15 8, bits_lt S.kernelReg 23 16, bits_lt S.kernelReg 31 24⟩,
    ⟨bits_lt S.dil 7 0, bits_lt S.dil 15 8⟩,
    ⟨bits_lt S.pad 7 0, bits_lt S.pad 15 8, bits_lt S.pad 23 16, bits_lt S.pad 31 24⟩⟩

/-- Operands that pass INIT's checks give a kernel object within the limits (R91 to R93). -/
theorem loadKernel_withinLimits {s : State} {S : ShapeRegs} (h : firstError (initChecks s.params S) = none) :
    (s.loadKernel S).withinLimits s.params := by
  have hc := firstError_none.mp h
  simp only [initChecks, fieldChecks, derivedChecks, capacityChecks, List.forall_mem_append, List.forall_mem_cons,
    List.not_mem_nil, false_implies, implies_true, and_true, Bool.or_eq_false_iff, Bool.and_eq_false_iff,
    decide_eq_false_iff_not, beq_eq_false_iff_ne, bne_eq_false_iff_eq, not_or, Nat.not_lt] at hc
  obtain ⟨⟨⟨⟨⟨⟨hH, hW⟩, hC, ⟨⟨⟨hky, hkx⟩, hsy⟩, hsx⟩, ⟨hdy, hdx⟩, -, -, -, hvar, hv2⟩, ⟨hph, hpw⟩, hdh, hdw⟩, hcm, hws,
    hrb⟩, -⟩, -⟩ := hc
  obtain ⟨⟨lH, lW⟩, ⟨lky, lkx, lsy, lsx⟩, ⟨ldy, ldx⟩, lpt, lpl, lpb, lpr⟩ := S.fields_lt
  have pos : ∀ {n m : Nat}, n ≠ 0 → n < m + 1 → 0 < n ∧ n ≤ m := fun h1 h2 => ⟨by omega, by omega⟩
  refine ⟨pos hH lH, pos hW lW, ⟨Nat.pos_of_ne_zero hC, hcm⟩, pos hky lky, pos hkx lkx, pos hsy lsy, pos hsx lsx,
    pos hdy ldy, pos hdx ldx,
    ⟨Nat.le_of_lt_succ lpt, Nat.le_of_lt_succ lpl, Nat.le_of_lt_succ lpb, Nat.le_of_lt_succ lpr⟩,
    hph, hpw, hdh, hdw, hws, ?_, ?_⟩
  · intro hv
    exact hv2.resolve_left fun hn => hn (variant_eq_v2 hvar hv)
  · intro hv
    exact hrb.resolve_left hv

/-- Settles O56: only INIT makes a kernel object, and only from operands that pass its checks. -/
theorem kernelObjectIsKept : Obligations.KernelObjectIsKept := by
  intro s t hs h
  refine ⟨?_, step_params h⟩
  refine step_keeps (P := State.kernelOk) (fun _ _ _ _ _ _ _ _ _ _ _ hs => hs) ?command
    (fun _ _ _ hs => hs) ?accept (fun _ _ _ hs => hs) (fun _ _ _ _ hK => nomatch hK) hs h
  case command =>
    intro s w i t _ _ hs h K hK
    obtain ⟨⟨hp, -⟩, -⟩ := exec_sameAround h
    rw [hp]
    obtain ⟨hk, -, -⟩ | ⟨hk, -⟩ | ⟨K', _, _, _, _, _, _, hK', hk, -⟩ | ⟨hk, -⟩ | ⟨hc, hk, -⟩ :=
      (exec_leavesData h).1 <;> rw [hk] at hK
    · exact hs K hK
    · exact hs K hK
    · exact hs K (hK'.trans hK)
    · cases hK
    · cases hK
      exact ⟨loadKernel_derivedOk s s.initOperands, loadKernel_withinLimits hc⟩
  case accept =>
    intro s w _ hs
    rcases acceptCommand_cases w s with ⟨r, -, e⟩ | ⟨-, e⟩ | ⟨-, e⟩ | ⟨i, c, -, -, -, e⟩ <;> rw [e]
    · exact hs
    · exact fun _ hK => nomatch hK
    · exact hs
    · exact hs

/-! ### The ring's tags (R49 to R51) -/

/-- A ring of K: BUFH slots, and every valid tag names a row that belongs in its slot (R49, R50). -/
def Kernel.ringFits (K : Kernel) (ring : List Slot) : Prop :=
  ring.length = K.bufH ∧ ∀ i by_, tagAt ring i = some by_ → K.slotOf by_ = i

/-- A ring whose every tag is INVALID fits when it has BUFH slots. -/
theorem ringFits_of_empty {K : Kernel} {ring : List Slot} (hl : ring.length = K.bufH) (ht : ∀ i, tagAt ring i = none) :
    K.ringFits ring := ⟨hl, fun i by_ h => by simp [ht] at h⟩

theorem ringFits_invalidateTags {K : Kernel} {ring : List Slot} (h : K.ringFits ring) :
    K.ringFits (invalidateTags ring) := ringFits_of_empty (by simpa using h.1) (by simp)

/-- A fill tags the row's own slot (R104). -/
theorem ringFits_fillSlot {K : Kernel} {ring : List Slot} (w : Nat) (zp : Byte) (src : Source) (by_ : Nat)
    (h : K.ringFits ring) : K.ringFits (K.fillSlot w zp src ring by_) := by
  obtain ⟨hl, ht⟩ := h
  refine ⟨by simpa using hl, ?_⟩
  intro i row hi
  unfold Kernel.fillSlot at hi
  rw [tagAt_set] at hi
  split at hi
  · rename_i hs
    cases hi
    exact hs.1
  · exact ht i row hi

theorem ringFits_fillRows {K : Kernel} {ring : List Slot} (w : Nat) (zp : Byte) (src : Source) (rows : List Nat)
    (h : K.ringFits ring) : K.ringFits (K.fillRows w zp src ring rows) := by
  unfold Kernel.fillRows
  induction rows generalizing ring with
  | nil => exact h
  | cons by_ rest ih => exact ih (ringFits_fillSlot w zp src by_ h)

/-- The ring invariant of a state with an empty ring. -/
theorem ringOk_of_empty {s : State} (hl : ∀ K, s.kernel = some K → s.ring.length = K.bufH)
    (ht : ∀ i, tagAt s.ring i = none) : s.ringOk :=
  ⟨fun K hK => ringFits_of_empty (hl K hK) ht, fun _ => ht⟩

/-- The ring invariant once the ring of `s` is emptied, with K kept or discarded. -/
theorem ringOk_emptied {s t : State} (hs : s.ringOk) (hk : ∀ K, t.kernel = some K → s.kernel = some K)
    (hr : t.ring = invalidateTags s.ring) : t.ringOk :=
  ringOk_of_empty (fun K hK => by simpa [hr] using (hs.1 K (hk K hK)).1) (by simp [hr])

/-- Settles O57: a fill tags the row's own slot, and what clears the context or the kernel object empties the ring. -/
theorem ringTagsAreKept : Obligations.RingTagsAreKept := by
  intro s t
  refine step_keeps (P := State.ringOk) (fun _ _ _ _ _ _ _ _ _ _ _ hs => hs) ?command
    (fun _ _ _ hs => ringOk_emptied hs (fun _ hK => hK) rfl) ?accept (fun _ _ _ hs => hs)
    (fun _ _ _ => ringOk_of_empty (fun _ hK => (nomatch hK)) tagAt_nil)
  case command =>
    intro s w i t _ _ hs h
    obtain ⟨hk, hr, hx⟩ | ⟨hk, hr⟩ | ⟨K, x, w, zp, src, ring, rows, hK, hk, hx, hring, hr⟩ | ⟨hk, hr⟩ | ⟨hc, hk, hr⟩ :=
      (exec_leavesData h).1
    · simpa only [State.ringOk, hk, hr, hx] using hs
    · exact ringOk_emptied hs (fun K hK => hk ▸ hK) hr
    · have fits : K.ringFits ring := by
        rcases hring with rfl | rfl
        · exact hs.1 K hK
        · exact ringFits_invalidateTags (hs.1 K hK)
      refine ⟨fun K' hK' => ?_, fun hn => by simp [hk, hx] at hn⟩
      obtain rfl : K = K' := Option.some.inj (hk.symm.trans hK')
      exact hr ▸ ringFits_fillRows w zp src rows fits
    · exact ringOk_emptied hs (fun K hK => by simp [hk] at hK) hr
    · refine ringOk_of_empty (fun K hK => ?_) (by simp [hr])
      obtain rfl := Option.some.inj (hk.symm.trans hK)
      simp [hr]
  case accept =>
    intro s w _ hs
    rcases acceptCommand_cases w s with ⟨r, -, e⟩ | ⟨-, e⟩ | ⟨-, e⟩ | ⟨i, c, -, -, -, e⟩ <;> rw [e]
    · exact ringOk_emptied hs (fun _ hK => hK) rfl
    · exact ringOk_emptied hs (fun _ hK => (nomatch hK)) rfl
    · exact hs
    · exact hs

end Sys2Proof.Machine
end

section
/-!
PROOFS. The register window (10_state.md R21 to R45): the registers made of several fields, what a write
changes, and where each register stands.
-/
namespace Sys2Proof.Machine

/-! ### Words made of fields -/

/-- A field above another, as a number. -/
theorem toNat_append_eq {n m : Nat} (x : BitVec n) (y : BitVec m) : (x ++ y).toNat = x.toNat * 2 ^ m + y.toNat := by
  rw [BitVec.toNat_append, ← Nat.shiftLeft_add_eq_or_of_lt y.isLt, Nat.shiftLeft_eq]

/-- A field of a number that fits it reads back as that number. -/
theorem toNat_field {n v : Nat} (h : v < 2 ^ n) : (BitVec.ofNat n v).toNat = v := by
  rw [BitVec.toNat_ofNat, Nat.mod_eq_of_lt h]

/-- A one-bit field at the low end. -/
theorem getLsbD_flag_zero {n : Nat} (x : BitVec n) (b : Bool) : (x ++ BitVec.ofBool b).getLsbD 0 = b := by
  rw [BitVec.getLsbD_append]
  simp

/-- The bits above a one-bit field. -/
theorem getLsbD_flag_succ {n : Nat} (x : BitVec n) (b : Bool) (i : Nat) :
    (x ++ BitVec.ofBool b).getLsbD (i + 1) = x.getLsbD i := by
  simp [BitVec.getLsbD_append]

/-- Masking by fields. -/
theorem append_and_eq_zero {n m : Nat} {x a : BitVec n} {y b : BitVec m} (hx : x &&& a = 0) (hy : y &&& b = 0) :
    (x ++ y) &&& (a ++ b) = 0 := by
  rw [BitVec.and_append, hx, hy]
  exact BitVec.zero_append_zero

/-! ### The engine's turn (R46, R159) -/

/-- Settles O4: `engineTurn_runs`, reached with no event pending or by the engine's own event. -/
theorem stepRunsTheHeldCommand : Obligations.StepRunsTheHeldCommand := by
  refine ⟨fun s w i hr hh hd => ⟨fun he => ?_, fun rest he => ?_⟩, fun s hh he => ?_⟩
  · rw [step_idle he]
    exact engineTurn_runs hr hh hd
  · rw [step_event he]
    exact engineTurn_runs (s := { s with events := rest }) hr hh hd
  · rw [step_idle he]
    exact engineTurn_idle (.inr hh)

/-! ### The register map (R22) -/

/-- Settles O43: the 27 offsets, each an aligned one that selects its register. -/
theorem registerMapOffsets : Obligations.RegisterMapOffsets := by
  intro o r hm s hr
  obtain ⟨ha, ho⟩ : accessLegal o 4 = true ∧ regAt o = some r := by
    refine (?selects : ∀ p ∈ _, accessLegal (Prod.fst p) 4 = true ∧ regAt p.1 = some p.2) (o, r) hm
    decide
  exact ⟨portAccess_read 0 hr ha ho, fun v => portAccess_write v 0 hr ha ho⟩

/-! ### STATUS (R28) -/

/-- What stands above the six flags of STATUS. -/
theorem statusWord_above_flags (s : State) (start len : Nat) :
    s.statusWord.extractLsb' (start + 6) len = (0#8 ++ s.lastCmd ++ s.errCode.bits ++ 0#2).extractLsb' start len := by
  unfold State.statusWord
  iterate 6 rw [BitVec.extractLsb'_append_eq_of_le (by omega)]
  rfl

/-- ERRCODE, bits 15:8. -/
theorem statusWord_errCode (s : State) : s.statusWord.extractLsb' 8 8 = s.errCode.bits := by
  rw [statusWord_above_flags s 2, BitVec.extractLsb'_append_eq_of_le (by decide)]
  exact BitVec.extractLsb'_append_eq_right

/-- Settles O44: every field at its bits, and ERRCODE as R143's table. -/
theorem statusFields : Obligations.StatusFields := by
  refine ⟨fun s => ⟨?busy, ?done, ?err, ?kvalid, ?rvalid, ?drop, ?res76, ?lastCmd, ?res3124, ?errCode⟩, by decide,
    fun s v => writeReg_status s v 0⟩
  case busy => rw [State.statusWord, getLsbD_flag_zero]; rfl
  case done => rw [State.statusWord, getLsbD_flag_succ, getLsbD_flag_zero]
  case err => rw [State.statusWord, getLsbD_flag_succ, getLsbD_flag_succ, getLsbD_flag_zero]
  case kvalid =>
    rw [State.statusWord, getLsbD_flag_succ, getLsbD_flag_succ, getLsbD_flag_succ, getLsbD_flag_zero]; rfl
  case rvalid =>
    rw [State.statusWord, getLsbD_flag_succ, getLsbD_flag_succ, getLsbD_flag_succ, getLsbD_flag_succ,
      getLsbD_flag_zero]; rfl
  case drop =>
    rw [State.statusWord, getLsbD_flag_succ, getLsbD_flag_succ, getLsbD_flag_succ, getLsbD_flag_succ,
      getLsbD_flag_succ, getLsbD_flag_zero]
  case res76 => rw [statusWord_above_flags s 0, BitVec.extractLsb'_append_eq_right]; rfl
  case lastCmd =>
    rw [statusWord_above_flags s 10, BitVec.extractLsb'_append_eq_of_le (by decide),
      BitVec.extractLsb'_append_eq_of_le (by decide)]
    exact BitVec.extractLsb'_append_eq_right
  case res3124 =>
    rw [statusWord_above_flags s 18, BitVec.extractLsb'_append_eq_of_le (by decide),
      BitVec.extractLsb'_append_eq_of_le (by decide), BitVec.extractLsb'_append_eq_of_le (by decide)]
    rfl
  case errCode =>
    intro e n hm he
    rw [statusWord_errCode, he]
    refine (?code : ∀ p ∈ _, ErrorCode.bits (Prod.fst p) = p.2) (e, n) hm
    decide

/-! ### Access rules (R21) -/

/-- Offsets 0x6C to 0xFC select no register (R21, R22). -/
theorem regAt_reserved {o : Byte} (h : 0x6C ≤ o.toNat) : regAt o = none :=
  List.getElem?_eq_none (show 27 ≤ o.toNat / 4 by omega)

/-- The bits R21 marks res read 0, in every state that stores none. -/
theorem readReg_reserved {s : State} (hs : s.reservedZero) {r : Reg} {res : Word}
    (hm : (r, res) ∈ ([(.status, 0xFF0000C0), (.ctrl, 0xFFFFFFFE), (.params1, 0xFFE00000), (.irqEn, 0xFFFFFFFC),
      (.irqStatus, 0xFFFFFFFC), (.shapeC, 0xFFFF0000), (.dil, 0xFFFF0000), (.mode, 0xFFFFF0E0),
      (.layout, 0xFFFFE0E0), (.bufw, 0xFFFC0000)] : List (Reg × Word))) : readReg s r &&& res = 0 := by
  obtain ⟨hen, his, hc, hd, hmode⟩ := hs
  simp only [List.mem_cons, List.not_mem_nil, or_false, Prod.mk.injEq] at hm
  obtain ⟨rfl, rfl⟩ | ⟨rfl, rfl⟩ | ⟨rfl, rfl⟩ | ⟨rfl, rfl⟩ | ⟨rfl, rfl⟩ | ⟨rfl, rfl⟩ | ⟨rfl, rfl⟩ | ⟨rfl, rfl⟩ |
    ⟨rfl, rfl⟩ | ⟨rfl, rfl⟩ := hm
  · show s.statusWord &&& (0xFF#8 ++ 0#8 ++ 0#8 ++ 3#2 ++ 0#1 ++ 0#1 ++ 0#1 ++ 0#1 ++ 0#1 ++ 0#1 : Word) = 0
    iterate 9 refine append_and_eq_zero ?_ (by simp)
    exact BitVec.zero_and
  · exact BitVec.zero_and
  · show params1Word s.params &&& (0x7FF#11 ++ 0#5 ++ 0#16 : Word) = 0
    iterate 2 refine append_and_eq_zero ?_ (by simp)
    exact BitVec.zero_and
  · exact hen
  · exact his
  · exact hc
  · exact hd
  · exact hmode
  · show s.derived Kernel.layoutWord &&& (0x7FFFF#19 ++ 0#2 ++ 0#1 ++ 0#2 ++ 7#3 ++ 0#5 : Word) = 0
    unfold State.derived
    cases s.kernel with
    | none => exact BitVec.zero_and
    | some K =>
      iterate 5 refine append_and_eq_zero ?_ (by simp)
      exact BitVec.zero_and
  · show s.derived Kernel.bufwWord &&& (0x3FFF#14 ++ 0#18 : Word) = 0
    unfold State.derived
    cases s.kernel with
    | none => exact BitVec.zero_and
    | some K =>
      exact append_and_eq_zero BitVec.zero_and BitVec.and_zero

/-- Settles O41: the cases of an access, and `writeReg_reservedZero` for the res bits after a write. -/
theorem registerAccessRules : Obligations.RegisterAccessRules := by
  refine ⟨?illegal, ?read, ?reserved, ?readOnly, ?res⟩
  case illegal =>
    intro s a hr h
    have hl : accessLegal a.offset a.bytes = false := by
      rcases h with h | h <;> simp [accessLegal, h]
    simp [portAccess, hr, hl]
  case read =>
    intro s o
    rcases portAccess_cases ⟨o, 4, .read⟩ 0 s with ⟨-, h⟩ | ⟨-, -, h⟩ | ⟨-, -, ⟨v, r, hop, -⟩ | ⟨x, h⟩⟩
    · exact ⟨_, h⟩
    · exact ⟨_, h⟩
    · cases hop
    · exact ⟨x, h⟩
  case reserved =>
    intro s o v hr h4 ho
    have hl : accessLegal o 4 = true := by simp [accessLegal, h4]
    constructor <;> simp [portAccess, hr, hl, regAt_reserved ho]
  case readOnly =>
    intro s o v hr hm
    obtain ⟨r, ha, ho, hw⟩ : ∃ r, accessLegal o 4 = true ∧ regAt o = some r ∧ writeReg s v 0 r = s := by
      simp only [List.mem_cons, List.not_mem_nil, or_false] at hm
      rcases hm with rfl | rfl | rfl | rfl | rfl | rfl | rfl | rfl <;> exact ⟨_, by decide, rfl, rfl⟩
    rw [portAccess_write v 0 hr ha ho, hw]
  case res =>
    intro s r res hs hm
    exact ⟨readReg_reserved hs hm, fun v => readReg_reserved (writeReg_reservedZero hs v 0 r) hm⟩

/-! ### Registers the host may write (R32, R34 to R42) -/

/-- Settles O42: such a write stores the masked value in its own field of the state, which no other register shows. -/
theorem writableRegistersReadBack : Obligations.WritableRegistersReadBack := by
  intro s r mask v hm
  have whole : v &&& 0xFFFFFFFF#32 = v := BitVec.and_allOnes
  simp only [List.mem_cons, List.not_mem_nil, or_false, Prod.mk.injEq] at hm
  obtain ⟨rfl, rfl⟩ | ⟨rfl, rfl⟩ | ⟨rfl, rfl⟩ | ⟨rfl, rfl⟩ | ⟨rfl, rfl⟩ | ⟨rfl, rfl⟩ | ⟨rfl, rfl⟩ | ⟨rfl, rfl⟩ |
    ⟨rfl, rfl⟩ | ⟨rfl, rfl⟩ | ⟨rfl, rfl⟩ | ⟨rfl, rfl⟩ | ⟨rfl, rfl⟩ | ⟨rfl, rfl⟩ | ⟨rfl, rfl⟩ := hm <;>
  refine ⟨by simp [readReg, writeReg, whole, irqEnMask, shapeCMask, dilMask, modeMask],
    fun r' h => by cases r' <;> trivial, rfl⟩

end Sys2Proof.Machine
end

section
/-!
PROOFS. The registers that show parameters and the kernel object (10_state.md R23 to R26, R43 to R45).
-/
namespace Sys2Proof.Machine

/-! ### Parameters (R23 to R26) -/

/-- The legal parameters fit the fields that show them, but for ACC_N (R10, R25, R26; log 27). -/
theorem params_fit {p : Params} (h : p.legal = true) :
    p.w < 2 ^ 8 ∧ p.addrW < 2 ^ 8 ∧ p.rbLog2 < 2 ^ 8 ∧ p.wsLog2 < 2 ^ 5 ∧ p.cMax < 2 ^ 16 := by
  simp only [Params.legal, Bool.and_eq_true, decide_eq_true_eq, List.contains_iff_mem, List.mem_cons, List.not_mem_nil,
    or_false] at h
  omega

/-- Settles O45: the fields hold their parameters whole, and no step changes a parameter. -/
theorem identificationAndParameterRegisters : Obligations.IdentificationAndParameterRegisters := by
  intro s hl hn
  obtain ⟨hw, ha, hr, hs, hc⟩ := params_fit hl
  refine ⟨rfl, rfl, ?params0, ?params1, fun v e => ⟨rfl, rfl, rfl, rfl⟩, fun t h => ?step⟩
  case params0 =>
    show (params0Word s.params).toNat = _
    rw [params0Word, toNat_append_eq, toNat_append_eq, toNat_append_eq, toNat_field hr, toNat_field ha,
      toNat_field (show s.params.accN < 2 ^ 8 by omega), toNat_field hw]
    omega
  case params1 =>
    show (params1Word s.params).toNat = _
    rw [params1Word, toNat_append_eq, toNat_append_eq, toNat_field hs, toNat_field hc]
    simp
  case step => simp only [readReg, step_params h, and_self]

/-! ### The registers derived from K (R43 to R45) -/

/-- A register derived from K, with K there. -/
theorem derived_some {s : State} {K : Kernel} (h : s.kernel = some K) (f : Kernel → Word) : s.derived f = f K := by
  simp [State.derived, h]

/-- A register derived from K, without K. -/
theorem derived_none {s : State} (h : s.kernel = none) (f : Kernel → Word) : s.derived f = 0 := by
  simp [State.derived, h]

/-- BUFH of a kernel object with a ring is a power of two, as LAYOUT shows it, and its exponent fits the field
(R44, R92). -/
theorem bufHLog2_spec {p : Params} {K : Kernel} (hK : K.wf p) (hv : K.var ≠ .v0) :
    2 ^ K.bufHLog2 = K.bufH ∧ K.bufHLog2 < 2 ^ 5 := by
  obtain ⟨⟨⟨hext, -⟩, -, -, -, hbuf, -⟩, ⟨-, -, -, ⟨-, hky⟩, -, ⟨-, hsy⟩, -, ⟨-, hdy⟩, -⟩⟩ := hK
  have hlog : K.bufHLog2 = Nat.log2 K.bufH := by
    unfold Kernel.bufHLog2
    split <;> simp_all
  have hprod : (K.ky - 1) * K.dily ≤ 254 * 255 := Nat.mul_le_mul (by omega) hdy
  obtain ⟨n, hn, hle⟩ : ∃ n, K.bufH = nextPow2 n ∧ n ≤ 2 ^ 17 := by
    rw [hbuf]
    cases hvar : K.var with
    | v0 => exact absurd hvar hv
    | v1 => exact ⟨_, rfl, by omega⟩
    | v2 => exact ⟨_, rfl, by omega⟩
  obtain ⟨k, hk⟩ := nextPow2_eq_pow n
  have hb : K.bufH = 2 ^ k := hn.trans hk
  have hk17 : 2 ^ k ≤ 2 ^ 17 := hk ▸ (nextPow2_le_pow_iff n 17).mpr hle
  rw [hlog, hb, Nat.log2_two_pow]
  have := (Nat.pow_le_pow_iff_right (by decide)).mp hk17
  exact ⟨rfl, by omega⟩

/-- DST_SHAPE of a kernel object as a number (R43). -/
theorem dstShapeWord_toNat {p : Params} {K : Kernel} (hK : K.wf p) :
    K.dstShapeWord.toNat = K.dstW * 2 ^ 16 + K.dstH ∧ K.dstH < 2 ^ 16 ∧ K.dstW < 2 ^ 16 := by
  obtain ⟨-, ⟨-, -, -, -, -, -, -, -, -, -, -, -, hh, hw, -⟩⟩ := hK
  have hh : K.dstH < 2 ^ 16 := by omega
  have hw : K.dstW < 2 ^ 16 := by omega
  exact ⟨by rw [Kernel.dstShapeWord, toNat_append_eq, toNat_field hw, toNat_field hh], hh, hw⟩

/-- BUFW of a kernel object as a number (R45). -/
theorem bufwWord_toNat {p : Params} {K : Kernel} (hK : K.wf p) :
    K.bufwWord.toNat = K.srcW + K.pl + K.pr ∧ K.srcW + K.pl + K.pr < 2 ^ 18 := by
  obtain ⟨⟨-, ⟨-, hpw⟩, -⟩, ⟨-, ⟨-, hW⟩, -, -, -, -, -, -, -, ⟨-, hpl, -, hpr⟩, -⟩⟩ := hK
  have hlt : K.pw < 2 ^ 18 := by omega
  rw [← hpw, Kernel.bufwWord, toNat_append_eq, toNat_field hlt]
  exact ⟨by simp, hlt⟩

/-- LAYOUT of a kernel object as a number (R44). -/
theorem layoutWord_toNat (K : Kernel) : K.layoutWord.toNat
    = K.reord.bits.toNat * 2 ^ 11 + K.fast.toNat * 2 ^ 10 + K.var.bits.toNat * 2 ^ 8 + K.bufHLog2 % 2 ^ 5 := by
  rw [Kernel.layoutWord, toNat_append_eq, toNat_append_eq, toNat_append_eq, toNat_append_eq, toNat_append_eq,
    BitVec.toNat_ofBool, BitVec.toNat_ofNat, BitVec.toNat_ofNat, BitVec.toNat_ofNat]
  omega

/-- LAYOUT.KFAST, bit 10 (R44). -/
theorem layoutWord_fast (K : Kernel) : K.layoutWord.getLsbD 10 = K.fast := by
  rw [Kernel.layoutWord, BitVec.getLsbD_append, if_neg (by decide), BitVec.getLsbD_append, if_neg (by decide),
    BitVec.getLsbD_append, if_neg (by decide)]
  exact getLsbD_flag_zero _ _

/-- Settles O46: every field of K fits where its register shows it. -/
theorem derivedRegisters : Obligations.DerivedRegisters := by
  refine ⟨⟨by decide, by decide, by decide⟩,
    fun s h => ⟨derived_none h _, derived_none h _, derived_none h _⟩, fun s K hK hwf => ?_⟩
  have hds : readReg s .dstShape = K.dstShapeWord := derived_some hK _
  have hlay : readReg s .layout = K.layoutWord := derived_some hK _
  have hbw : readReg s .bufw = K.bufwWord := derived_some hK _
  rw [hds, hlay, hbw]
  obtain ⟨ds, hh, hw⟩ := dstShapeWord_toNat hwf
  obtain ⟨bw, hpw⟩ := bufwWord_toNat hwf
  have lay := layoutWord_toNat K
  have hreord := K.reord.bits.isLt
  have hvar := K.var.bits.isLt
  have hfast := Bool.toNat_lt K.fast
  refine ⟨⟨?dstH, ?dstW⟩, ⟨?res75, ?res3113, ?kvar, layoutWord_fast K, ?kreord⟩, ?logV0, ?log, ?pw, ?res3118⟩
  case logV0 =>
    intro hv
    have hlog : K.bufHLog2 = 0 := by simp [Kernel.bufHLog2, hv]
    unfold bits
    omega
  case log =>
    intro hv
    obtain ⟨hpow, hlt⟩ := bufHLog2_spec hwf hv
    have hfield : bits K.layoutWord 4 0 = K.bufHLog2 := by
      unfold bits
      omega
    rw [hfield, hpow]
  all_goals
    unfold bits
    omega

end Sys2Proof.Machine
end

section
/-!
PROOFS. A host access in the cycle of a completion (10_state.md R33, 60_exceptions.md R145, R151).
-/
namespace Sys2Proof.Machine

/-! ### The completion and its event -/

/-- An access in the cycle of a command's end meets the state the command leaves. -/
theorem accessAfterCompletion_runs {s t : State} (hb : s.busy = true) (hr : s.rst = false)
    (turn : engineTurn s = .next t) (a : PortAccess) :
    accessAfterCompletion a s = .next (portAccess a (arrivingEvent t) t) := by
  simp [accessAfterCompletion, hb, hr, turn]

/-- A step whose access falls in the cycle of a command's end: the command, then the access (R151; log 19). -/
theorem step_atCompletion {s t : State} {w : Word} {i : Instr} {a : PortAccess} {rest : List Event}
    (hr : s.rst = false) (hh : s.held = some w) (hd : decode w = .ok i)
    (he : s.events = .accessAtCompletion a :: rest) (hx : exec i { s with events := rest } = .next t) :
    step s = .next (portAccess a (arrivingEvent t) t) := by
  have turn : engineTurn { s with events := rest } = .next t :=
    (engineTurn_runs (s := { s with events := rest }) hr hh hd).trans hx
  have busy : s.busy = true := by simp [State.busy, hh]
  exact (step_event he).trans (accessAfterCompletion_runs (s := { s with events := rest }) busy hr turn a)

/-- The bit of IRQ_STATUS that a completion sets, by ERR (R147, R148). -/
abbrev State.eventBit (s : State) : Nat := if s.err then 1 else 0

/-- A command that ends sets its event, and that is the one an access of the same cycle meets (R33, R147, R148). -/
theorem exec_event {i : Instr} {s t : State} {w : Word} (hh : s.held = some w) (he : s.err = false)
    (h : exec i s = .next t) (ht : t.held = none) :
    t.irqStatus.getLsbD t.eventBit = true ∧ (arrivingEvent t).getLsbD t.eventBit = true := by
  have arriving : (arrivingEvent t).getLsbD t.eventBit = true := by
    cases hte : t.err <;> simp [arrivingEvent, State.eventBit, State.busy, ht, hte] <;> decide
  refine ⟨?_, arriving⟩
  rcases exec_result h with ⟨-, rfl⟩ | ⟨-, k, r, x, a, m, rfl | ⟨code, info, -, rfl⟩ | ⟨rfl, -⟩⟩
  · simp [State.eventBit, irqDone]
  · simp [State.eventBit, irqDone, he]
  · simp [State.eventBit, irqErr]
  · exact absurd (hh.symm.trans ht) (by simp)

/-- A bit of IRQ_STATUS after a write of it: it stays where the write has 0 or the event of the cycle arrives (R33). -/
theorem writeReg_irqStatus_bit (s : State) (v e : Word) {k : Nat} (hk : k < 32) :
    (writeReg s v e .irqStatus).irqStatus.getLsbD k = (s.irqStatus.getLsbD k && (!v.getLsbD k || e.getLsbD k)) := by
  simp [writeReg, hk]

/-! ### Accesses that see no event -/

/-- Only the aligned offset 0x24 selects IRQ_STATUS (R22). -/
theorem offset_of_irqStatus {o : Byte} {n : Nat} (hl : accessLegal o n = true) (ho : regAt o = some .irqStatus) :
    o = 0x24 := by
  have hi : 9 = o.toNat / 4 := (List.getElem?_inj (l := regMap) (by decide) (by decide)).mp ho.symm
  simp only [accessLegal, Bool.and_eq_true, beq_iff_eq] at hl
  exact BitVec.eq_of_toNat_eq (show o.toNat = 36 by omega)

/-- The events of the cycle matter to writes of IRQ_STATUS alone (R33). -/
theorem writeReg_arriving {r : Reg} (h : r ≠ .irqStatus) (s : State) (v e e' : Word) :
    writeReg s v e r = writeReg s v e' r := by
  cases r <;> trivial

/-- So they matter to accesses of offset 0x24 alone. -/
theorem portAccess_arriving {a : PortAccess} (h : a.offset ≠ 0x24) (s : State) (e e' : Word) :
    portAccess a e s = portAccess a e' s := by
  unfold portAccess
  cases hl : accessLegal a.offset a.bytes with
  | false => rfl
  | true =>
    cases ho : regAt a.offset with
    | none => cases a.op <;> rfl
    | some r =>
      have hne : r ≠ .irqStatus := fun hr => h (offset_of_irqStatus hl (hr ▸ ho))
      cases a.op with
      | read => rfl
      | write v => simp only [writeReg_arriving hne s v e e']

/-! ### A CMD write beside a completion -/

/-- A CMD write clears no pending interrupt (R145). -/
theorem submitCommand_irqStatus (w : Word) (s : State) : ∃ e, (submitCommand w s).irqStatus = s.irqStatus ||| e := by
  rcases submitCommand_cases w s with ⟨-, e⟩ | ⟨-, -, e⟩ <;> rw [e]
  · exact ⟨0, BitVec.or_zero.symm⟩
  · rcases acceptCommand_cases w s with ⟨r, -, e⟩ | ⟨-, e⟩ | ⟨-, e⟩ | ⟨i, c, -, -, -, e⟩ <;> rw [e]
    · exact ⟨irqErr, rfl⟩
    · exact ⟨0, BitVec.or_zero.symm⟩
    · exact ⟨0, BitVec.or_zero.symm⟩
    · exact ⟨0, BitVec.or_zero.symm⟩

/-- What the status shows once an instruction's word is accepted (R145). -/
theorem acceptCommand_encode {s : State} {j : Instr} (he : s.err = false ∨ j = .clrerr) :
    (acceptCommand (encode j) s).held = some (encode j) ∧ (acceptCommand (encode j) s).done = false
      ∧ (acceptCommand (encode j) s).err = false ∧ (acceptCommand (encode j) s).lastCmd = opcode j
      ∧ (acceptCommand (encode j) s).drop = s.drop := by
  obtain ⟨hd, ho⟩ := encode_spec j
  have noError : j ≠ .clrerr → s.err = false := fun hj => he.resolve_right hj
  rcases acceptCommand_cases (encode j) s with ⟨r, h, e⟩ | ⟨h, e⟩ | ⟨-, e⟩ | ⟨i, c, h, -, hi, e⟩ <;> rw [e]
  · cases hd.symm.trans h
  · obtain rfl : j = .init := by injection hd.symm.trans h
    exact ⟨rfl, rfl, noError (by decide), ho, rfl⟩
  · exact ⟨rfl, rfl, rfl, ho, rfl⟩
  · obtain rfl : j = i := by injection hd.symm.trans h
    exact ⟨rfl, rfl, noError hi, ho, rfl⟩

/-- Settles O47: the access meets the state the completion leaves, with the completion's event arriving. -/
theorem completionEventWinsOverClear : Obligations.CompletionEventWinsOverClear := by
  refine ⟨?clears, ?survives, ?after, ?cmd⟩
  case clears =>
    intro s v k hk
    rw [writeReg_irqStatus_bit s v 0 hk]
    simp
  case survives =>
    intro s t w v i rest hr hse hh hd he hx ht
    have htr : t.rst = false := (exec_sameAround hx).2.1.trans hr
    obtain ⟨hbit, harr⟩ := exec_event (s := { s with events := rest }) hh hse hx ht
    refine ⟨_, (step_atCompletion hr hh hd he hx).trans
      (congrArg _ (portAccess_write (r := .irqStatus) v _ htr (by decide) (by decide))), ?_, ht⟩
    have hk : t.eventBit < 32 := by unfold State.eventBit; split <;> decide
    show (writeReg t v _ .irqStatus).irqStatus.getLsbD t.eventBit = true
    rw [writeReg_irqStatus_bit t v _ hk, hbit, harr]
    simp
  case after =>
    intro s t w i a rest hr hh hd he ha hx ht
    have hev : t.events = rest := (exec_sameAround hx).2.2.2.1
    have hu : ({ t with events := rest } : State) = t := hev ▸ rfl
    rw [step_atCompletion hr hh hd he hx, step_access (s := { t with events := .access a :: rest }) rfl,
      portAccess_arriving ha t _ 0]
    exact congrArg (fun u => Host.Outcome.next (portAccess a 0 u)) hu.symm
  case cmd =>
    intro s t w v i rest hr hse hh hd he hx ht
    obtain ⟨⟨-, hdrop, -⟩, hrst, -⟩ := exec_sameAround hx
    obtain ⟨hbit, -⟩ := exec_event (s := { s with events := rest }) hh hse hx ht
    refine ⟨_, (step_atCompletion hr hh hd he hx).trans (congrArg _ (portAccess_cmd v _ (hrst.trans hr))), ?_, ?_, ?_⟩
    · obtain ⟨e, hirq⟩ := submitCommand_irqStatus v t
      show (submitCommand v t).irqStatus.getLsbD t.eventBit = true
      rw [hirq, BitVec.getLsbD_or, hbit, Bool.true_or]
    · rintro j rfl hj
      obtain ⟨hheld, hdone, herr, hlast, hd'⟩ := acceptCommand_encode hj
      have hsub := submitCommand_accepts ht (hj.imp_right (congrArg encode))
      simp only [hsub]
      exact ⟨hheld, hdone, herr, hlast, hd'.trans hdrop⟩
    · intro hte hv
      rw [submitCommand_drops (.inr ⟨hte, hv⟩)]

end Sys2Proof.Machine
end

section
/-!
PROOFS. The host beside a running command (10_state.md R56, 20_memory.md R75, R77): direct stores and loads, the values
a race gives, and the bytes the command will write.
-/
namespace Sys2Proof.Machine

/-! ### The values of a race -/

/-- A raced byte reads as it was at acceptance or as a host write left it (R75). -/
theorem engineByte_raced {s : State} {a : Nat} (h : ∃ r ∈ s.races, r.address = a) (k : Nat) :
    s.engineByte k a = s.acceptedByte a ∨ ∃ r ∈ s.races, r.address = a ∧ s.engineByte k a = r.wrote := by
  unfold State.engineByte State.acceptedByte
  cases hf : s.races.filter (fun r => r.address == a) with
  | nil =>
    obtain ⟨r, hr, ha⟩ := h
    exact absurd (List.filter_eq_nil_iff.mp hf r hr) (by simp [ha])
  | cons r rs =>
    have mem : ∀ x ∈ r :: rs, x ∈ s.races ∧ x.address = a := fun x hx => by
      rw [← hf] at hx
      simpa using hx
    have hlt : Config.racedRead s.draws k % (rs.length + 2) < (r.before :: r.wrote :: rs.map Race.wrote).length := by
      simpa using Nat.mod_lt _ (Nat.succ_pos _)
    simp only [List.getD_eq_getElem?_getD, List.getElem?_eq_getElem hlt, Option.getD_some]
    have hm := List.getElem_mem hlt
    generalize (r.before :: r.wrote :: rs.map Race.wrote)[Config.racedRead s.draws k % (rs.length + 2)] = v at hm
    rcases List.mem_cons.mp hm with rfl | hm
    · exact .inl rfl
    · right
      rw [← List.map_cons (f := Race.wrote)] at hm
      obtain ⟨x, hx, rfl⟩ := List.mem_map.mp hm
      exact ⟨x, (mem x hx).1, (mem x hx).2, rfl⟩

/-- A host write leaves what every byte was at acceptance (R75). -/
theorem acceptedByte_hostStore {s : State} (hm : s.mem.wf = true) (hb : s.busy = true) (a : Nat) (v : Byte) (b : Nat) :
    (hostStore a v s).acceptedByte b = s.acceptedByte b := by
  unfold State.acceptedByte
  simp only [hostStore_races, hb, if_true, List.filter_append, hostStore_mem]
  cases s.races.filter (fun r => r.address == b) with
  | cons r rs => rfl
  | nil =>
    by_cases hab : a = b
    · subst hab
      simp
    · have hba : ¬ b = a := fun h => hab h.symm
      simp [hab, hba, Memory.read_write hm]

/-- What a byte that the command and the host both write ends with (R75). -/
theorem settled_cases (s : State) (a : Nat) (v : Byte) :
    s.settled a v = v ∨ ((∃ r ∈ s.races, r.address = a) ∧ s.settled a v = s.mem.read a) := by
  unfold State.settled
  split
  · rename_i h
    split
    · exact .inl rfl
    · exact .inr ⟨by simpa using h, rfl⟩
  · exact .inl rfl

/-! ### The running command's plan -/

theorem toOption_eq_some {ε α : Type} {x : Except ε α} {y : α} : x.toOption = some y ↔ x = .ok y := by
  cases x <;> simp [Except.toOption]

/-- The running command has a plan when it is a COMPUTE or a RUN whose checks pass (R164). -/
theorem runningPlan_eq_some {s : State} {P : Plan} : s.runningPlan = some P ↔
    ∃ w, s.held = some w ∧ ((decode w = .ok .compute ∧ computePlan s = .ok P)
      ∨ (decode w = .ok .run ∧ runPlan s = .ok P)) := by
  unfold State.runningPlan
  cases s.held with
  | none => simp
  | some w =>
    cases hd : decode w with
    | error r => simp [hd]
    | ok i => cases i <;> simp [hd, toOption_eq_some]

/-- The byte a plan writes at an address, when it writes it. -/
def Plan.byteAt (P : Plan) (a : Nat) : Option Byte := if P.first ≤ a then P.values[a - P.first]? else none

/-- A pending byte is one of the running plan. -/
theorem pendingByte_eq_some {s : State} {a : Nat} {u : Byte} :
    s.pendingByte a = some u ↔ ∃ P, s.runningPlan = some P ∧ P.byteAt a = some u := by
  unfold State.pendingByte Plan.byteAt
  cases s.runningPlan <;> simp

/-- A plan's byte, by its place in the run of values. -/
theorem byteAt_eq_some {P : Plan} {a : Nat} {u : Byte} :
    P.byteAt a = some u ↔ ∃ i, a = P.first + i ∧ P.values[i]? = some u := by
  unfold Plan.byteAt
  constructor
  · intro h
    split at h
    · exact ⟨a - P.first, by omega, h⟩
    · cases h
  · rintro ⟨i, rfl, h⟩
    simpa using h

/-- A plan that is carried out and completes leaves each of its bytes, unless the host wrote the byte too (R75). -/
theorem finishPlan_byte {s t : State} {P : Plan} {a : Nat} {u : Byte} (hm : s.mem.wf = true) (hh : s.held ≠ none)
    (h : finishPlan s P = .next t) (ht : t.held = none) (he : t.err = false) (hu : P.byteAt a = some u) :
    t.mem.read a = u ∨ ((∃ r ∈ s.races, r.address = a) ∧ t.mem.read a = s.mem.read a) := by
  have next : ∀ {v}, finishPlan s P = .next v → t = v := fun e => by injection h.symm.trans e
  rcases finishPlan_cases s P with ⟨-, e⟩ | ⟨_, -, e⟩ | ⟨-, e⟩
  · obtain ⟨i, rfl, hi⟩ := byteAt_eq_some.mp hu
    obtain ⟨hlt, rfl⟩ := List.getElem?_eq_some_iff.mp hi
    have hread : t.mem.read (P.first + i) = s.settled (P.first + i) P.values[i] := by
      rw [next e]
      exact Memory.read_mapIdx_inside hm s.settled hlt
    rw [hread]
    exact settled_cases s _ _
  · rw [next e] at he
    cases he
  · rw [next e] at ht
    exact absurd ht hh

/-- The running command's plan is what executing it carries out. -/
theorem exec_runningPlan {s : State} {w : Word} {i : Instr} {P : Plan} (hh : s.held = some w) (hd : decode w = .ok i)
    (hP : s.runningPlan = some P) : exec i s = finishPlan s P := by
  obtain ⟨w', hw, ⟨hd', hP⟩ | ⟨hd', hP⟩⟩ := runningPlan_eq_some.mp hP <;>
    obtain rfl : w = w' := Option.some.inj (hh.symm.trans hw)
  · obtain rfl : i = .compute := by injection hd.symm.trans hd'
    rcases execCompute_cases s with ⟨_, _, e, -⟩ | ⟨P', hP', e⟩
    · cases hP.symm.trans e
    · obtain rfl : P = P' := by injection hP.symm.trans hP'
      exact e
  · obtain rfl : i = .run := by injection hd.symm.trans hd'
    rcases execRun_cases s with ⟨_, _, e, -⟩ | ⟨P', hP', e⟩
    · cases hP.symm.trans e
    · obtain rfl : P = P' := by injection hP.symm.trans hP'
      exact e

/-- COMPUTE of an empty range (R115). -/
theorem computePlan_empty {s : State} {K : Kernel} (hK : s.kernel = some K)
    (hc : firstError (convChecks s.params K s.invocation) = none) (he : s.invocation.dyBeg = s.invocation.dyEnd) :
    computePlan s = .ok (emptyPlan s s.invocation) := by simp [computePlan, hK, hc, he]

/-- COMPUTE on V0 (R119). -/
theorem computePlan_direct {s : State} {K : Kernel} (hK : s.kernel = some K)
    (hc : firstError (convChecks s.params K s.invocation) = none) (he : s.invocation.dyBeg ≠ s.invocation.dyEnd)
    (hv : K.var = .v0) : computePlan s = .ok (directPlan s K s.invocation) := by simp [computePlan, hK, hc, he, hv]

/-- COMPUTE from the ring (R119). -/
theorem computePlan_ring {s : State} {K : Kernel} (hK : s.kernel = some K)
    (hc : firstError (convChecks s.params K s.invocation) = none) (he : s.invocation.dyBeg ≠ s.invocation.dyEnd)
    (hv : K.var ≠ .v0) (hm : ringMiss s K s.invocation = none) : computePlan s = .ok (ringPlan s K s.invocation) := by
  simp [computePlan, hK, hc, he, hv, hm]

/-- RUN of an empty range (R115). -/
theorem runPlan_empty {s : State} {K : Kernel} (hK : s.kernel = some K)
    (hc : firstError (convChecks s.params K s.invocation) = none) (he : s.invocation.dyBeg = s.invocation.dyEnd) :
    runPlan s = .ok (emptyPlan s s.invocation) := by simp [runPlan, hK, hc, he]

/-- RUN on V0 (R120). -/
theorem runPlan_direct {s : State} {K : Kernel} (hK : s.kernel = some K)
    (hc : firstError (convChecks s.params K s.invocation) = none) (he : s.invocation.dyBeg ≠ s.invocation.dyEnd)
    (hv : K.var = .v0) : runPlan s = .ok (directPlan s K s.invocation) := by simp [runPlan, hK, hc, he, hv]

/-- RUN through the ring (R120). -/
theorem runPlan_fused {s : State} {K : Kernel} (hK : s.kernel = some K)
    (hc : firstError (convChecks s.params K s.invocation) = none) (he : s.invocation.dyBeg ≠ s.invocation.dyEnd)
    (hv : K.var ≠ .v0) : runPlan s = .ok (fusedPlan s K s.invocation) := by simp [runPlan, hK, hc, he, hv]

/-! ### A plan the host disturbs -/

/-- `s` after host accesses during the command: another data space, other races, and other bytes shown. -/
abbrev State.disturbed (s : State) (m : Memory) (rs : List Race) (l : List Host.Cell) (x : Response) (n : Nat) :
    State :=
  { s with mem := m, races := rs, shown := l, resp := x, peeks := n }

/-- The engine reads the same in `t` as in `s`, over a region. -/
def State.readsAs (s t : State) (base n : Nat) : Prop :=
  ∀ k a, inRegion base n a = true → t.engineByte k a = s.engineByte k a

/-- Where the engine reads the same over the source region, the source values are the same (R99). -/
theorem source_readsAs {s t : State} {K : Kernel} {I : CallRegs} (h : s.readsAs t I.srcBase.toNat K.srcBytes) {c : Nat}
    (hc : c < K.c) (k py px : Nat) : t.source K I k py px c = s.source K I k py px c := by
  unfold State.source srcVal
  split
  · have := srcElement_in (K := K) (sy := py - K.pt) (sx := px - K.pl) (by omega) (by omega) hc
    apply h
    simp only [inRegion, Bool.and_eq_true, decide_eq_true_eq]
    omega
  · rfl

/-- RefSum reads the source of its own channel only (R111). -/
theorem refSum_congr {K : Kernel} {src src' : Source} {dy dx c : Nat}
    (h : ∀ k py px, src' k py px c = src k py px c) : K.refSum src' dy dx c = K.refSum src dy dx c := by
  unfold Kernel.refSum
  simp only [h]

/-- A fill reads the source of K's channels only (R105 to R107). -/
theorem fillRows_congr {K : Kernel} {w : Nat} {zp : Byte} {src src' : Source}
    (h : ∀ c, c < K.c → ∀ k py px, src' k py px c = src k py px c) (ring : List Slot) (rows : List Nat) :
    K.fillRows w zp src' ring rows = K.fillRows w zp src ring rows := by
  have lane : ∀ by_ px c, K.laneValue zp src' by_ px c = K.laneValue zp src by_ px c := by
    intro by_ px c
    unfold Kernel.laneValue
    by_cases hc : c < K.c
    · simp only [h c hc]
    · simp only [if_neg hc]
  unfold Kernel.fillRows Kernel.fillSlot Kernel.payload
  simp only [lane]

/-- RUN's loop in a disturbed state reads no more than the source region (R120). -/
theorem runRows_disturbed {s : State} {K : Kernel} {I : CallRegs} {m : Memory} {rs : List Race} {l : List Host.Cell}
    {x : Response} {n : Nat} (h : s.readsAs (s.disturbed m rs l x n) I.srcBase.toNat K.srcBytes) (rows : List Nat)
    (ring : List Slot) (next : Nat) :
    runRows (s.disturbed m rs l x n) K I rows ring next = runRows s K I rows ring next := by
  induction rows generalizing ring next with
  | nil => rfl
  | cons dy rest ih =>
    simp only [runRows]
    rw [fillRows_congr fun c hc => source_readsAs h hc, ih]
    rfl

/-- The bytes of RUN's loop: a row of outputs for each row (R120). -/
theorem runRows_length (s : State) (K : Kernel) (I : CallRegs) (rows : List Nat) (ring : List Slot) (next : Nat) :
    (runRows s K I rows ring next).2.length = rows.length * (K.dstW * K.c) := by
  induction rows generalizing ring next with
  | nil => simp [runRows]
  | cons dy rest ih =>
    simp only [runRows, List.length_append, outBytes_length, ih, List.length_cons]
    ring

/-- V0's outputs in a disturbed state read no more than the source region (R111). -/
theorem outBytes_disturbed {s : State} {K : Kernel} {I : CallRegs} {m : Memory} {rs : List Race} {l : List Host.Cell}
    {x : Response} {n : Nat} (h : s.readsAs (s.disturbed m rs l x n) I.srcBase.toNat K.srcBytes) (n₀ k : Nat)
    (hk : K.c = 0 → k = 0) :
    (s.disturbed m rs l x n).outBytes K I (K.refSum ((s.disturbed m rs l x n).source K I)) n₀ k
      = s.outBytes K I (K.refSum (s.source K I)) n₀ k := by
  unfold State.outBytes
  refine List.map_congr_left fun j hj => ?_
  have hc : j % K.c < K.c := by
    refine Nat.mod_lt j (Nat.pos_of_ne_zero fun h0 => ?_)
    simp [hk h0] at hj
  show requant _ _ _ (K.refSum _ _ _ (j % K.c)) _ _ _ = requant _ _ _ (K.refSum _ _ _ (j % K.c)) _ _ _
  rw [refSum_congr fun k py px => source_readsAs h hc k py px]

/-- The plan `P'` of `t` writes where the plan `P` of `s` does, and the same bytes, but that a host which wrote source
bytes leaves the shown ones fixed and the others free (R75; log 16). -/
def Plan.disturbedAs (s t : State) (P P' : Plan) : Prop :=
  P'.first = P.first ∧ (P'.values = P.values ∨ ∃ base n vs vs', P.values = s.keepShown base n P.first vs
    ∧ P'.values = t.keepShown base n P.first vs' ∧ vs'.length = vs.length ∧ (s.readsAs t base n → vs' = vs))

theorem directPlan_disturbed (s : State) (K : Kernel) (I : CallRegs) (m : Memory) (rs : List Race) (l : List Host.Cell)
    (x : Response) (n : Nat) :
    Plan.disturbedAs s (s.disturbed m rs l x n) (directPlan s K I) (directPlan (s.disturbed m rs l x n) K I) :=
  ⟨rfl, .inr ⟨_, _, _, _, rfl, rfl, by simp,
    fun h => outBytes_disturbed h _ _ fun h0 => by simp [Kernel.rowsCount, h0]⟩⟩

theorem fusedPlan_disturbed (s : State) (K : Kernel) (I : CallRegs) (m : Memory) (rs : List Race) (l : List Host.Cell)
    (x : Response) (n : Nat) :
    Plan.disturbedAs s (s.disturbed m rs l x n) (fusedPlan s K I) (fusedPlan (s.disturbed m rs l x n) K I) :=
  ⟨rfl, .inr ⟨_, _, _, _, rfl, rfl, by simp only [runRows_length],
    fun h => congrArg Prod.snd (runRows_disturbed h _ _ _)⟩⟩

/-- Host accesses during the command leave the checks as they were, and the plan but for the values (R75). -/
theorem computePlan_disturbed {s : State} {P : Plan} (h : computePlan s = .ok P) (m : Memory) (rs : List Race)
    (l : List Host.Cell) (x : Response) (n : Nat) :
    ∃ P', computePlan (s.disturbed m rs l x n) = .ok P' ∧ P.disturbedAs s (s.disturbed m rs l x n) P' := by
  rcases computePlan_cases s with
    ⟨-, e⟩ | ⟨K, hK, ⟨_, -, e⟩ | ⟨hc, ⟨he, e⟩ | ⟨he, ⟨hv, e⟩ | ⟨hv, ⟨_, -, e⟩ | ⟨hm, e⟩⟩⟩⟩⟩ <;>
    rw [e] at h <;> cases h
  · exact ⟨_, computePlan_empty (s := s.disturbed m rs l x n) hK hc he, rfl, .inl rfl⟩
  · exact ⟨_, computePlan_direct (s := s.disturbed m rs l x n) hK hc he hv, directPlan_disturbed s K _ m rs l x n⟩
  · exact ⟨_, computePlan_ring (s := s.disturbed m rs l x n) hK hc he hv hm, rfl, .inl rfl⟩

theorem runPlan_disturbed {s : State} {P : Plan} (h : runPlan s = .ok P) (m : Memory) (rs : List Race)
    (l : List Host.Cell) (x : Response) (n : Nat) :
    ∃ P', runPlan (s.disturbed m rs l x n) = .ok P' ∧ P.disturbedAs s (s.disturbed m rs l x n) P' := by
  rcases runPlan_cases s with ⟨-, e⟩ | ⟨K, hK, ⟨_, -, e⟩ | ⟨hc, ⟨he, e⟩ | ⟨he, ⟨hv, e⟩ | ⟨hv, e⟩⟩⟩⟩ <;>
    rw [e] at h <;> cases h
  · exact ⟨_, runPlan_empty (s := s.disturbed m rs l x n) hK hc he, rfl, .inl rfl⟩
  · exact ⟨_, runPlan_direct (s := s.disturbed m rs l x n) hK hc he hv, directPlan_disturbed s K _ m rs l x n⟩
  · exact ⟨_, runPlan_fused (s := s.disturbed m rs l x n) hK hc he hv, fusedPlan_disturbed s K _ m rs l x n⟩

/-- A byte that is shown is fixed by `keepShown`, or the source is undisturbed and the byte is the one computed. -/
theorem keepShown_getElem? (s : State) (base n a : Nat) (vs : List Byte) {i : Nat} (hi : i < vs.length) {u : Byte}
    (hl : s.shown.lookup (a + i) = some u) :
    (s.keepShown base n a vs)[i]? = some u
      ∨ (s.races.any (fun r => inRegion base n r.address) = false ∧ s.keepShown base n a vs = vs) := by
  cases hr : s.races.any (fun r => inRegion base n r.address) with
  | false => exact .inr ⟨rfl, keepShown_quiet hr a vs⟩
  | true => exact .inl (by simp [State.keepShown, hr, hi, hl])

/-- A pending byte that a host read has shown stays what it is, when the host accesses between have left every region
they did not write as it was (R75). -/
theorem pendingByte_disturbed {s : State} {m : Memory} {rs : List Race} {l : List Host.Cell} {x : Response} {n a : Nat}
    {u : Byte}
    (quiet : ∀ base k, rs.any (fun r => inRegion base k r.address) = false →
      s.races.any (fun r => inRegion base k r.address) = false ∧ s.readsAs (s.disturbed m rs l x n) base k)
    (shown : l.lookup a = some u) (h : s.pendingByte a = some u) :
    (s.disturbed m rs l x n).pendingByte a = some u := by
  obtain ⟨P, hP, hu⟩ := pendingByte_eq_some.mp h
  obtain ⟨P', hP', hfirst, hval⟩ : ∃ P', (s.disturbed m rs l x n).runningPlan = some P'
      ∧ P.disturbedAs s (s.disturbed m rs l x n) P' := by
    obtain ⟨w, hw, ⟨hd, hP⟩ | ⟨hd, hP⟩⟩ := runningPlan_eq_some.mp hP
    · obtain ⟨P', hP', hdis⟩ := computePlan_disturbed hP m rs l x n
      exact ⟨P', runningPlan_eq_some.mpr ⟨w, hw, .inl ⟨hd, hP'⟩⟩, hdis⟩
    · obtain ⟨P', hP', hdis⟩ := runPlan_disturbed hP m rs l x n
      exact ⟨P', runningPlan_eq_some.mpr ⟨w, hw, .inr ⟨hd, hP'⟩⟩, hdis⟩
  refine pendingByte_eq_some.mpr ⟨P', hP', ?_⟩
  obtain ⟨i, rfl, hi⟩ := byteAt_eq_some.mp hu
  refine byteAt_eq_some.mpr ⟨i, by rw [hfirst], ?_⟩
  rcases hval with hval | ⟨base, k, vs, vs', hv, hv', hlen, hsame⟩
  · rw [hval, hi]
  · have hlt : i < vs'.length := by
      have := (List.getElem?_eq_some_iff.mp hi).1
      rw [hv, keepShown_length] at this
      omega
    rcases keepShown_getElem? (s.disturbed m rs l x n) base k P.first vs' hlt shown with hs | ⟨hq, hs⟩ <;> rw [hv', hs]
    obtain ⟨hq', hread⟩ := quiet base k hq
    rw [hsame hread, ← hi, hv, keepShown_quiet hq']

/-- RUN's loop does not depend on the events to come. -/
theorem runRows_events (s : State) (ev : List Event) (K : Kernel) (I : CallRegs) (rows : List Nat) (ring : List Slot)
    (next : Nat) : runRows { s with events := ev } K I rows ring next = runRows s K I rows ring next := by
  induction rows generalizing ring next with
  | nil => rfl
  | cons dy rest ih =>
    simp only [runRows, ih]
    rfl

/-- Nor does any pending byte. -/
theorem pendingByte_events (s : State) (ev : List Event) (a : Nat) :
    ({ s with events := ev } : State).pendingByte a = s.pendingByte a := by
  have run : runPlan { s with events := ev } = runPlan s := by
    unfold runPlan fusedPlan
    simp only [runRows_events]
    rfl
  have plan : ({ s with events := ev } : State).runningPlan = s.runningPlan := by
    unfold State.runningPlan
    rw [run]
    rfl
  unfold State.pendingByte
  rw [plan]

/-- A host write leaves what the engine reads of a region it is not in (R75). -/
theorem readsAs_hostStore {s : State} (hm : s.mem.wf = true) {a : Nat} {v : Byte} {base n : Nat}
    (h : inRegion base n a = false) : s.readsAs (hostStore a v s) base n := by
  intro k b hb
  have hne : a ≠ b := by
    rintro rfl
    exact absurd (h.symm.trans hb) (by decide)
  have hmem : (s.mem.write a v).read b = s.mem.read b := by
    rw [Memory.read_write hm, if_neg (Ne.symm hne)]
  have hraces : (hostStore a v s).races.filter (fun r => r.address == b)
      = s.races.filter (fun r => r.address == b) := by
    rw [hostStore_races]
    split <;> simp [hne]
  unfold State.engineByte
  rw [hraces, hostStore_mem, hmem, hostStore_draws]

/-- A host write beside a command keeps the pending bytes that were shown (R75). -/
theorem pendingByte_hostStore {s : State} {a b : Nat} {u w : Byte} (hm : s.mem.wf = true)
    (hp : s.pendingByte a = some u) (hs : s.shown.lookup a = some u) : (hostStore b w s).pendingByte a = some u := by
  have hb : s.busy = true := by
    obtain ⟨P, hP, -⟩ := pendingByte_eq_some.mp hp
    obtain ⟨v, hv, -⟩ := runningPlan_eq_some.mp hP
    simp [State.busy, hv]
  refine pendingByte_disturbed (rs := (hostStore b w s).races) (x := s.resp) (n := s.peeks) (fun base k hq => ?_) hs hp
  rw [hostStore_races, if_pos hb, List.any_append, Bool.or_eq_false_iff] at hq
  obtain ⟨hold, hnew⟩ := hq
  exact ⟨hold, readsAs_hostStore hm (by simpa using hnew)⟩

/-! ### One step of the host -/

/-- Settles O53: a host write is `hostStore`, a host read `hostLoad`, and the races are what `engineByte`, `settled` and
`keepShown` make of them. -/
theorem hostStoresLeaveTheBlockAlone : Obligations.HostStoresLeaveTheBlockAlone := by
  refine ⟨?store, fun s k a => ⟨fun h => engineByte_quiet h k, fun h => engineByte_raced h k⟩, ?load,
    fun s a b u w => pendingByte_hostStore, ?completes⟩
  case store =>
    intro s a v rest hm ha he
    have hstep : step s = .next (hostStore a v { s with events := rest }) := (step_event he).trans (if_pos ha)
    refine ⟨_, hstep, ?_, fun b hb => ?_, ⟨rfl, rfl, rfl, rfl, rfl, rfl⟩, fun r => by cases r <;> rfl, fun b hb => ?_⟩
    · rw [hostStore_mem, Memory.read_write hm, if_pos rfl]
    · rw [hostStore_mem, Memory.read_write hm, if_neg hb]
    · exact acceptedByte_hostStore (s := { s with events := rest }) hm hb a v b
  case load =>
    intro s a rest ha he
    have hstep : step s = .next (hostLoad a { s with events := rest }) := (step_event he).trans (if_pos ha)
    have hpend := pendingByte_events s rest a
    cases hp : s.pendingByte a with
    | none =>
      rw [hostLoad_plain (hpend.trans hp)] at hstep
      exact ⟨_, _, hstep, rfl, rfl, rfl, rfl, fun _ => rfl, fun u hu => nomatch hu⟩
    | some u =>
      rcases hostLoad_raced (hpend.trans hp) with e | e <;> rw [e] at hstep
      · exact ⟨_, _, hstep, rfl, rfl, rfl, rfl, fun h => (nomatch h), fun _ _ => .inl rfl⟩
      · refine ⟨_, _, hstep, rfl, rfl, rfl, rfl, fun h => (nomatch h), fun u' hu => .inr ?_⟩
        obtain rfl := Option.some.inj hu
        have shown : ((a, u) :: s.shown).lookup a = some u := by simp
        exact ⟨rfl, pendingByte_disturbed (s := { s with events := rest })
          (fun base k hq => ⟨hq, fun _ _ _ => rfl⟩) shown (hpend.trans hp), shown⟩
  case completes =>
    intro s t w i a u hm hh hd _ hx ht he hp
    obtain ⟨P, hP, hu⟩ := pendingByte_eq_some.mp hp
    rw [exec_runningPlan hh hd hP] at hx
    exact finishPlan_byte hm (by simp [hh]) hx ht he hu

end Sys2Proof.Machine
end

section
/-!
PROOFS. The footprint of a command in the data space (20_memory.md R66, 42_convolution.md R112, R122).
-/
namespace Sys2Proof.Machine

/-! ### Where a plan writes -/

/-- The rows' run of bytes ends where the rows after them begin (R61). -/
theorem rowsFirst_add_rowsCount (K : Kernel) {b e : Nat} (h : b ≤ e) :
    K.rowsFirst b + K.rowsCount b e = K.rowsFirst e := by
  rw [Kernel.rowsFirst, Kernel.rowsCount, ← Nat.add_mul, ← Nat.add_mul, Nat.add_sub_cancel' h]

/-- Each byte of the run for the rows of an invocation is one of its destination bytes (R61, R66). -/
theorem writesTo_of_lt_rowsCount {I : CallRegs} {K : Kernel} {i : Nat} (hi : i < K.rowsCount I.dyBeg I.dyEnd) :
    I.writesTo K (I.dstBase.toNat + K.rowsFirst I.dyBeg + i) := by
  have hle : I.dyBeg ≤ I.dyEnd := by
    by_contra hgt
    simp [Kernel.rowsCount, Nat.sub_eq_zero_of_le (Nat.le_of_not_le hgt)] at hi
  have hend := rowsFirst_add_rowsCount K hle
  show _ + K.rowsFirst I.dyBeg ≤ _ ∧ _ < _ + K.rowsFirst I.dyEnd
  omega

/-- Every byte a plan writes is a destination byte of the rows of the invocation (R66). -/
def Plan.withinRows (s : State) (P : Plan) : Prop :=
  ∀ i < P.values.length, ∃ K, s.kernel = some K ∧ s.invocation.writesTo K (P.first + i)

/-- A plan that writes one byte for each output of the rows, in destination order, keeps to them (R112). -/
theorem withinRows_of_length {s : State} {K : Kernel} {P : Plan} (hK : s.kernel = some K)
    (hfirst : P.first = s.invocation.dstBase.toNat + K.rowsFirst s.invocation.dyBeg)
    (hlen : P.values.length = K.rowsCount s.invocation.dyBeg s.invocation.dyEnd) : P.withinRows s := fun _ hi =>
  ⟨K, hK, hfirst ▸ writesTo_of_lt_rowsCount (hlen ▸ hi)⟩

theorem emptyPlan_withinRows (s : State) : (emptyPlan s s.invocation).withinRows s := fun i hi =>
  absurd hi (Nat.not_lt_zero i)

theorem directPlan_withinRows {s : State} {K : Kernel} (hK : s.kernel = some K) :
    (directPlan s K s.invocation).withinRows s :=
  withinRows_of_length hK rfl ((keepShown_length ..).trans (outBytes_length ..))

theorem ringPlan_withinRows {s : State} {K : Kernel} (hK : s.kernel = some K) :
    (ringPlan s K s.invocation).withinRows s :=
  withinRows_of_length hK rfl (outBytes_length ..)

theorem fusedPlan_withinRows {s : State} {K : Kernel} (hK : s.kernel = some K) :
    (fusedPlan s K s.invocation).withinRows s := by
  refine withinRows_of_length hK rfl ((keepShown_length ..).trans ?_)
  rw [runRows_length, List.length_range', Kernel.rowsCount, Nat.mul_assoc]

theorem computePlan_withinRows {s : State} {P : Plan} (h : computePlan s = .ok P) : P.withinRows s := by
  rcases computePlan_cases s with
    ⟨-, e⟩ | ⟨K, hK, ⟨_, -, e⟩ | ⟨-, ⟨-, e⟩ | ⟨-, ⟨-, e⟩ | ⟨-, ⟨_, -, e⟩ | ⟨-, e⟩⟩⟩⟩⟩ <;>
    rw [e] at h <;> cases h
  · exact emptyPlan_withinRows s
  · exact directPlan_withinRows hK
  · exact ringPlan_withinRows hK

theorem runPlan_withinRows {s : State} {P : Plan} (h : runPlan s = .ok P) : P.withinRows s := by
  rcases runPlan_cases s with ⟨-, e⟩ | ⟨K, hK, ⟨_, -, e⟩ | ⟨-, ⟨-, e⟩ | ⟨-, ⟨-, e⟩ | ⟨-, e⟩⟩⟩⟩ <;>
    rw [e] at h <;> cases h
  · exact emptyPlan_withinRows s
  · exact directPlan_withinRows hK
  · exact fusedPlan_withinRows hK

/-! ### What a command leaves alone -/

/-- The engine's stores leave every byte outside their run as it was. -/
theorem storedBytes_read_outside {s : State} (hm : s.mem.wf = true) (f : Nat → Byte → Byte) {first a : Nat}
    {vs : List Byte} (ha : ∀ i < vs.length, a ≠ first + i) : (s.storedBytes f first vs).read a = s.mem.read a := by
  refine Memory.read_writeBytes_outside hm ?_
  rw [List.length_mapIdx]
  by_contra hin
  exact ha (a - first) (by omega) (by omega)

/-- However a plan ends, complete, cut short or waiting, it changes no byte outside its run (R112, R122, R152). -/
theorem finishPlan_read_outside {s t : State} {P : Plan} (hm : s.mem.wf = true) (h : finishPlan s P = .next t)
    {a : Nat} (ha : ∀ i < P.values.length, a ≠ P.first + i) : t.mem.read a = s.mem.read a := by
  have next : ∀ {u}, finishPlan s P = .next u → t = u := fun e => by injection h.symm.trans e
  rcases finishPlan_cases s P with ⟨-, e⟩ | ⟨_, -, e⟩ | ⟨-, e⟩ <;> obtain rfl := next e
  · exact storedBytes_read_outside hm s.settled ha
  · exact storedBytes_read_outside hm s.maybeLanded ha
  · rfl

/-- A plan within the rows changes none but their destination bytes. -/
theorem finishPlan_read_outside_rows {s t : State} {P : Plan} (hm : s.mem.wf = true) (hP : P.withinRows s)
    (h : finishPlan s P = .next t) {a : Nat} (ha : ∀ K, s.kernel = some K → ¬ s.invocation.writesTo K a) :
    t.mem.read a = s.mem.read a := by
  refine finishPlan_read_outside hm h ?_
  rintro i hi rfl
  obtain ⟨K, hK, hw⟩ := hP i hi
  exact ha K hK hw

/-- Only COMPUTE and RUN write the data space (R66). -/
theorem exec_mem {i : Instr} {s t : State} (h : exec i s = .next t) (hc : i ≠ .compute) (hr : i ≠ .run) :
    t.mem = s.mem := by
  have next : ∀ {u}, exec i s = .next u → t = u := fun e => by injection h.symm.trans e
  cases i with
  | nop => exact next (u := complete s) rfl ▸ rfl
  | inval => exact next (u := complete (emptyRing s)) rfl ▸ rfl
  | clrerr => exact next (u := complete (clearError s)) rfl ▸ rfl
  | init =>
    rcases execInit_cases s with ⟨_, _, -, e⟩ | ⟨-, ⟨-, e⟩ | ⟨_, -, e⟩ | ⟨-, e⟩⟩ <;> rw [next e] <;> rfl
  | preprocess =>
    rcases execPreprocess_cases s with
      ⟨-, e⟩ | ⟨_, -, ⟨_, _, -, e⟩ | ⟨-, ⟨-, e⟩ | ⟨-, -, ⟨-, e⟩ | ⟨_, -, e⟩ | ⟨-, e⟩⟩⟩⟩ <;> rw [next e] <;> rfl
  | compute => exact absurd rfl hc
  | run => exact absurd rfl hr

/-- Settles O27: each plan of COMPUTE and RUN keeps to the destination bytes of its rows, however it ends, and an error
raised by a check or by any other command leaves the data space alone. -/
theorem commandsWriteOnlyTheirRows : Obligations.CommandsWriteOnlyTheirRows := by
  intro s t i h
  refine ⟨?rows, fun ⟨hc, hr⟩ => exec_mem h hc hr⟩
  case rows =>
    have refused : ∀ {code info}, exec i s = .next (raiseError code info s) → t.mem = s.mem := fun e => by
      obtain rfl : t = _ := by injection h.symm.trans e
      rfl
    rintro (rfl | rfl) hm a ha
    · rcases execCompute_cases s with ⟨_, _, -, e⟩ | ⟨P, hP, e⟩
      · rw [refused e]
      · exact finishPlan_read_outside_rows hm (computePlan_withinRows hP) (e.symm.trans h) ha
    · rcases execRun_cases s with ⟨_, _, -, e⟩ | ⟨P, hP, e⟩
      · rw [refused e]
      · exact finishPlan_read_outside_rows hm (runPlan_withinRows hP) (e.symm.trans h) ha

end Sys2Proof.Machine
end

section
/-!
PROOFS. The encoding (30_encoding.md R81 to R86): the two fields of a command word, the opcode map, the legal words, and
what an accepted word runs.
-/
namespace Sys2Proof.Machine

/-! ### The fields of a command word (R81) -/

/-- RSV stands above OP, and nothing else is in the word. -/
theorem rsvField_append_opField (w : Word) : rsvField w ++ opField w = w :=
  (BitVec.extractLsb'_append_extractLsb'_eq_extractLsb' rfl).trans BitVec.extractLsb'_eq_self

theorem opField_toNat (w : Word) : (opField w).toNat = w.toNat % 2 ^ 8 := by
  simp [opField]

theorem rsvField_eq_zero_iff (w : Word) : rsvField w = 0 ↔ w.toNat / 2 ^ 8 = 0 := by
  have hw := w.isLt
  rw [← BitVec.toNat_inj, rsvField, BitVec.extractLsb'_toNat, Nat.shiftRight_eq_div_pow,
    Nat.mod_eq_of_lt (by omega)]
  rfl

/-! ### The opcode map (R83) -/

theorem legalWord : ∀ i : Instr, Laws.LegalWord.Statement i
  | .nop => Laws.LegalWord.nop
  | .init => Laws.LegalWord.init
  | .preprocess => Laws.LegalWord.preprocess
  | .compute => Laws.LegalWord.compute
  | .run => Laws.LegalWord.run
  | .inval => Laws.LegalWord.inval
  | .clrerr => Laws.LegalWord.clrerr

theorem opcode_of_mem_opcodeTable : ∀ p ∈ opcodeTable, p.1 = opcode p.2 := by decide

theorem opcode_of_lookup {b : Byte} {i : Instr} (h : opcodeTable.lookup b = some i) : b = opcode i := by
  obtain ⟨pre, post, hl, -⟩ := List.lookup_eq_some_iff.mp h
  exact opcode_of_mem_opcodeTable (b, i) (hl ▸ by simp)

/-- The seven opcodes fill 0x00 to 0x06 without a gap. -/
theorem exists_opcode_iff (b : Byte) : (∃ i, b = opcode i) ↔ b.toNat ≤ 6 := by
  constructor
  · rintro ⟨i, rfl⟩
    obtain ⟨-, -, -, hop, -⟩ := legalWord i
    exact hop
  · intro h
    have listed : ∀ n < 7, ∃ p ∈ opcodeTable, p.1.toNat = n := by decide
    obtain ⟨p, hp, hn⟩ := listed b.toNat (by omega)
    exact ⟨p.2, (BitVec.eq_of_toNat_eq hn).symm.trans (opcode_of_mem_opcodeTable p hp)⟩

/-! ### Decoding and encoding (R84) -/

/-- All a word that decodes can be. -/
theorem fields_of_decode {w : Word} {i : Instr} (h : decode w = .ok i) : rsvField w = 0 ∧ opField w = opcode i := by
  unfold decode at h
  split at h
  · cases h
  · rename_i hrsv
    split at h
    · rename_i j hj
      cases h
      exact ⟨not_not.mp hrsv, opcode_of_lookup hj⟩
    · cases h

theorem eq_encode_of_fields {w : Word} {i : Instr} (hr : rsvField w = 0) (ho : opField w = opcode i) :
    w = encode i := by
  rw [← rsvField_append_opField w, hr, ho]
  rfl

theorem eq_encode_of_decode {w : Word} {i : Instr} (h : decode w = .ok i) : w = encode i := by
  obtain ⟨hr, ho⟩ := fields_of_decode h
  exact eq_encode_of_fields hr ho

/-- Settles O2: `encode_spec`, and a word that decodes has the two fields of the encoding. -/
theorem decodeAndEncodeAgree : Obligations.DecodeAndEncodeAgree :=
  ⟨fun i => (encode_spec i).1, fun _ _ => eq_encode_of_decode⟩

/-! ### Legal and illegal words (R83, R84) -/

theorem decodes_iff (w : Word) : (∃ i, decode w = .ok i) ↔ (w.toNat / 2 ^ 8 = 0 ∧ w.toNat % 2 ^ 8 ≤ 6) := by
  rw [← rsvField_eq_zero_iff, ← opField_toNat, ← exists_opcode_iff]
  constructor
  · rintro ⟨i, h⟩
    obtain ⟨hr, ho⟩ := fields_of_decode h
    exact ⟨hr, i, ho⟩
  · rintro ⟨hr, i, ho⟩
    exact ⟨i, eq_encode_of_fields hr ho ▸ (encode_spec i).1⟩

/-- Settles O1: `decodes_iff`, and each row of the table is the encoding of its command. -/
theorem legalWordsAreTheSevenOpcodes : Obligations.LegalWordsAreTheSevenOpcodes :=
  ⟨decodes_iff, (encode_spec .nop).1, (encode_spec .init).1, (encode_spec .preprocess).1, (encode_spec .compute).1,
    (encode_spec .run).1, (encode_spec .inval).1, (encode_spec .clrerr).1⟩

theorem decode_illegal {w : Word} (h : 6 < w.toNat) : ∃ r, decode w = .error r := by
  cases hd : decode w with
  | error r => exact ⟨r, rfl⟩
  | ok i =>
    have legal := (decodes_iff w).mp ⟨i, hd⟩
    omega

/-- An illegal word written while IDLE raises its error at once (R84; log 21). -/
theorem submitCommand_illegal {s : State} {w : Word} {r : Reject} (hh : s.held = none) (he : s.err = false)
    (hd : decode w = .error r) : submitCommand w s = raiseError .cmdIllegal w (takeCommand w s) :=
  (submitCommand_accepts hh (.inl he)).trans (acceptCommand_illegal hd s)

/-- Settles O40: the step is the write of CMD, and `submitCommand_illegal` is all that this write does. -/
theorem illegalWordEndsWithAnError : Obligations.IllegalWordEndsWithAnError := by
  intro s w rest hr hh he hw hev
  obtain ⟨r, hd⟩ := decode_illegal hw
  have written := step_cmd hr hev
  rw [submitCommand_illegal (s := { s with events := rest }) hh he hd] at written
  exact ⟨_, written, ⟨rfl, rfl, rfl, rfl, rfl, opField_toNat w, rfl⟩,
    ⟨rfl, tagAt_invalidateTags s.ring⟩, rfl, rfl, rfl, rfl, rfl, rfl⟩

/-! ### The table's words and their bytes (R59, R83) -/

/-- The table's 32 bits of a word are the word. -/
theorem tableWord_toNat (w : Word) : tableWord 32 w.toNat = w := by
  rw [tableWord, Nat.mod_eq_of_lt w.isLt, BitVec.ofNat_toNat, BitVec.setWidth_eq]

/-- The bytes of a word, put together again, are the word (R59). -/
theorem decodeBytes_bytesOfWord (w : Word) : decodeBytes (bytesOfWord w) = decode w := by
  refine congrArg decode ?_
  unfold wordOfBytes
  rw [BitVec.extractLsb'_append_extractLsb'_eq_extractLsb' (show 24 = 16 + 8 from rfl),
    BitVec.extractLsb'_append_extractLsb'_eq_extractLsb' (show 16 = 8 + 8 from rfl),
    BitVec.extractLsb'_append_extractLsb'_eq_extractLsb' (show 8 = 0 + 8 from rfl)]
  exact BitVec.extractLsb'_eq_self

/-- The table's bits of a word decode as the word does. -/
theorem decodeTableWord_toNat (w : Word) : decodeTableWord 32 w.toNat = (decode w).toOption := by
  unfold decodeTableWord
  rw [if_pos (Nat.le_refl 32), tableWord_toNat, decodeBytes_bytesOfWord]
  cases decode w <;> rfl

theorem decodeTableWord_encode (i : Instr) : decodeTableWord 32 (encode i).toNat = some i := by
  rw [decodeTableWord_toNat, (encode_spec i).1]
  rfl

theorem decodeTableWord_illegal {w : Word} (h : 6 < w.toNat) : decodeTableWord 32 w.toNat = none := by
  obtain ⟨r, hd⟩ := decode_illegal h
  rw [decodeTableWord_toNat, hd]
  rfl

/-- Settles O3: three encodings, two words above 6, and the word of RUN with its bytes in R59's order and reversed. -/
theorem tableWordsDecode : Obligations.TableWordsDecode :=
  ⟨decodeTableWord_encode .nop, decodeTableWord_encode .compute, decodeTableWord_encode .clrerr,
    decodeTableWord_illegal (w := 7) (by decide), decodeTableWord_illegal (w := 0x100) (by decide),
    (encode_spec .run).1, by decide⟩

/-! ### The word where the engine fetches it (R46, R83) -/

/-- An accepted word is held, and acceptance leaves `rst` and the pending events alone. -/
theorem latchCommand_fetch (w : Word) (s : State) :
    (latchCommand w s).held = some w ∧ (latchCommand w s).rst = s.rst ∧ (latchCommand w s).events = s.events := by
  unfold latchCommand
  split <;> exact ⟨rfl, rfl, rfl⟩

/-- Settles O5: the placed word is held with no event pending, so the next step is the engine's turn on it. -/
theorem fetchWordRunsTheInstruction : Obligations.FetchWordRunsTheInstruction := by
  intro s i
  obtain ⟨held, rst, events⟩ :=
    latchCommand_fetch (tableWord 32 (encode i).toNat) { s with events := [], rst := false }
  have decoded : decode (tableWord 32 (encode i).toNat) = .ok i := by rw [tableWord_toNat, (encode_spec i).1]
  exact (step_idle events).trans (engineTurn_runs rst held decoded)

end Sys2Proof.Machine
end

section
/-!
PROOFS. The control commands (40_control.md R89 to R98): NOP, INVAL and CLRERR in every state, and the checks, the
loads and the bus errors of INIT.
-/
namespace Sys2Proof.Machine

/-! ### NOP, INVAL and CLRERR (R89, R97, R98) -/

/-- Settles O8: NOP is successful completion and nothing else. -/
theorem nopCompletes : Obligations.NopCompletes := fun s =>
  ⟨complete s, rfl, complete_worked s s.kernel s.ring s.rctx s.acc s.mem, rfl, rfl, rfl, rfl, rfl⟩

/-- Settles O9: INVAL is successful completion after `emptyRing`. -/
theorem invalEmptiesTheRing : Obligations.InvalEmptiesTheRing := fun s =>
  ⟨complete (emptyRing s), rfl, complete_worked s s.kernel (invalidateTags s.ring) none s.acc s.mem, rfl,
    tagAt_invalidateTags s.ring, invalidateTags_length s.ring, rfl, rfl, rfl⟩

/-- Settles O10: CLRERR is successful completion after `clearError`. -/
theorem clrerrClearsTheError : Obligations.ClrerrClearsTheError := fun s =>
  have run : exec .clrerr s = .next (complete (clearError s)) := rfl
  ⟨_, run, ⟨rfl, rfl, rfl, rfl, rfl⟩, ⟨rfl, rfl, rfl⟩, exec_sameAround run, rfl, rfl, rfl, rfl, rfl⟩

/-- Acceptance of CLRERR leaves the ERROR condition (R145, R149). -/
theorem acceptCommand_clrerr (s : State) :
    acceptCommand (encode .clrerr) s = clearError (takeCommand (encode .clrerr) s) := rfl

/-- With no event pending, a step is the held instruction (R46). -/
theorem step_encode {s : State} {i : Instr} (hr : s.rst = false) (hh : s.held = some (encode i)) (he : s.events = []) :
    step s = exec i s :=
  (step_idle he).trans (engineTurn_runs hr hh (encode_spec i).1)

/-- STATUS.BUSY is bit 0 (R28). -/
theorem statusWord_busy (s : State) : s.statusWord.getLsbD 0 = s.busy := getLsbD_flag_zero _ _

/-- Settles O11: the write is accepted in spite of ERR, and the next step is the engine's turn on CLRERR. -/
theorem clrerrLeavesTheErrorCondition : Obligations.ClrerrLeavesTheErrorCondition := by
  intro s hr hh _ hev
  have written := step_cmd (w := encode .clrerr) hr hev
  rw [submitCommand_accepts (s := { s with events := [] }) hh (.inr rfl), acceptCommand_clrerr] at written
  refine ⟨_, _, written, step_encode (i := .clrerr) ?released rfl rfl, ⟨statusWord_busy _, rfl, rfl, rfl⟩,
    ⟨statusWord_busy _, rfl, rfl, rfl, rfl, (encode_spec .clrerr).2, rfl⟩, rfl, rfl, rfl⟩
  case released => exact hr

/-! ### INIT's checks (R90 to R93, R64, R65) -/

/-- MODE.VAR 0 is variant 0, and no other value is (R39). -/
theorem variant_eq_v0_iff (S : ShapeRegs) : S.variant = .v0 ↔ S.var = 0 := by
  unfold ShapeRegs.variant
  split <;> simp_all

/-- The conditions the model evaluates are those of the rules, row by row. -/
theorem initChecks_eq_failures (p : Params) (S : ShapeRegs) : initChecks p S = S.failures p := by
  have direct : decide (S.variant = .v0) = decide (S.var = 0) := decide_eq_decide.mpr (variant_eq_v0_iff S)
  simp only [initChecks, fieldChecks, derivedChecks, capacityChecks, alignChecks, regionChecks, outOfSpace,
    ShapeRegs.failures, List.cons_append, List.nil_append, Bool.decide_or, Bool.decide_and, Bool.or_assoc, decide_not,
    beq_eq_decide, bne, direct]

/-- Operands within R91 to R93, R64 and R65 pass every check. -/
theorem firstError_initChecks_legal {p : Params} {S : ShapeRegs} (h : S.legal p) :
    firstError (initChecks p S) = none := by
  obtain ⟨hsrc, hc, hker, hdil, hst, hdt, hre, hvar, hext, hdh, hdw, hcm, hws, hrb, hal, hsp⟩ := h
  rw [initChecks_eq_failures, firstError_none]
  simp only [ShapeRegs.failures, List.forall_mem_cons, List.not_mem_nil, false_implies, implies_true, and_true,
    decide_eq_false_iff_not]
  and_intros <;> omega

/-- INIT whose checks fail (R90, R148). -/
theorem execInit_fails {s : State} {code : ErrorCode} {info : Word}
    (h : firstError (initChecks s.params s.initOperands) = some (code, info)) :
    execInit s = .next (raiseError code info (discardKernel s)) := by
  rcases execInit_cases s with ⟨code', info', h', e⟩ | ⟨h', -⟩
  · cases h.symm.trans h'
    exact e
  · cases h.symm.trans h'

/-- The end of an INIT that fails after it has discarded the kernel object is error completion (R90, R148). -/
theorem raiseError_discardKernel (s : State) (code : ErrorCode) (info : Word) :
    s.failsTo (raiseError code info (discardKernel s)) code info :=
  raiseError_worked s none (invalidateTags s.ring) none s.acc s.mem code info

/-- Settles O13: the model's checks are the rules' rows, and `firstError_some` says which one is reported. -/
theorem initReportsTheFirstFailingCheck : Obligations.InitReportsTheFirstFailingCheck := by
  rintro s S rfl pre post code info hrows hpre
  have failing : firstError (initChecks s.params s.initOperands) = some (code, info) :=
    firstError_some.mpr ⟨pre, post, (initChecks_eq_failures _ _).trans hrows, hpre⟩
  exact ⟨_, execInit_fails failing, raiseError_discardKernel s code info, rfl, rfl, rfl⟩

/-! ### The accesses of INIT (R62, R63, R94) -/

/-- The access to the 4-byte entry that holds a byte of a bias or scale region, by its lowest address. -/
theorem entry_of_inRegion {base n x a : Nat} (h : inRegion base (4 * n) x = true ∧ a = base + 4 * ((x - base) / 4)) :
    ∃ c < n, a = base + 4 * c ∧ a ≤ x ∧ x < a + 4 := by
  simp only [inRegion, Bool.and_eq_true, decide_eq_true_eq] at h
  exact ⟨(x - base) / 4, by omega, h.2, by omega, by omega⟩

/-- INIT makes an access to every byte of its tensors (R66, R94). -/
theorem initHits_ne_nil {S : ShapeRegs} {f : PortFault} (hw : f.isWrite = false) (hf : S.tensorByte f.address) :
    initHits S f ≠ [] := by
  unfold initHits
  rcases hf with hf | hf | hf <;> simp [hw, hf]

/-- The lowest address of an access of INIT: a weight's byte, or a bias or scale entry's first (R62, R63). -/
theorem initHits_mem {S : ShapeRegs} {f : PortFault} {a : Nat} (h : a ∈ initHits S f) :
    f.isWrite = false
      ∧ ((inRegion S.wgtBase.toNat (S.ky * S.kx * S.c) f.address = true ∧ a = f.address)
        ∨ (∃ c < S.c, a = S.biasBase.toNat + 4 * c ∧ a ≤ f.address ∧ f.address < a + 4)
        ∨ (∃ c < S.c, a = S.scaleBase.toNat + 4 * c ∧ a ≤ f.address ∧ f.address < a + 4)) := by
  refine ⟨(initHits_reads (List.ne_nil_of_mem h)).1, ?_⟩
  simp only [initHits, List.mem_ite_nil_left, List.mem_append, List.mem_ite_nil_right, List.mem_singleton] at h
  rcases h with ⟨-, (h | h) | h⟩
  · exact .inl h
  · exact .inr (.inl (entry_of_inRegion h))
  · exact .inr (.inr (entry_of_inRegion h))

/-- INIT whose checks pass and one of whose accesses gets a bus error (R90, R150). -/
theorem execInit_busError {s : State} {a : Nat} (hc : firstError (initChecks s.params s.initOperands) = none)
    (hp : s.portAnswer (initHits s.initOperands) = .error a) :
    execInit s = .next (raiseError .bus (BitVec.ofNat 32 a) (discardKernel s)) := by
  rcases execInit_cases s with ⟨_, _, hc', -⟩ | ⟨-, ⟨hp', -⟩ | ⟨b, hp', h⟩ | ⟨hp', -⟩⟩
  · cases hc.symm.trans hc'
  · cases hp.symm.trans hp'
  · cases hp.symm.trans hp'
    exact h
  · cases hp.symm.trans hp'

/-- Settles O14: the port's answer is a bus error, and what it reports is an access of INIT. -/
theorem initBusErrorLeavesNoKernel : Obligations.InitBusErrorLeavesNoKernel := by
  rintro s S f rfl hl hs hf hw hin
  obtain ⟨a, answer⟩ := portAnswer_fails hs hf (initHits_ne_nil hw hin)
  obtain ⟨g, hg, -, ha⟩ := portAnswer_error answer
  obtain ⟨hgw, hgin⟩ := initHits_mem ha
  exact ⟨_, a, g, execInit_busError (firstError_initChecks_legal hl) answer, raiseError_discardKernel s _ _, rfl, rfl,
    hg, hgw, hgin⟩

/-! ### The loads of INIT (R94) -/

/-- With the tensors readable, every access of INIT is answered with data. -/
theorem portAnswer_initHits {s : State} {S : ShapeRegs} (hw : s.answersOn false S.wgtBase.toNat (S.ky * S.kx * S.c))
    (hb : s.answersOn false S.biasBase.toNat (4 * S.c)) (hs : s.answersOn false S.scaleBase.toNat (4 * S.c)) :
    s.portAnswer (initHits S) = .data := by
  refine portAnswer_data fun f hf => by_contra fun hit => ?_
  obtain ⟨read, h | h | h⟩ := initHits_reads hit
  · exact Bool.false_ne_true ((hw f hf read).symm.trans h)
  · exact Bool.false_ne_true ((hb f hf read).symm.trans h)
  · exact Bool.false_ne_true ((hs f hf read).symm.trans h)

/-- INIT whose checks pass and whose accesses are answered (R90). -/
theorem execInit_loads {s : State} (hc : firstError (initChecks s.params s.initOperands) = none)
    (hp : s.portAnswer (initHits s.initOperands) = .data) :
    execInit s = .next (complete (installKernel (s.loadKernel s.initOperands) (discardKernel s))) := by
  rcases execInit_cases s with ⟨_, _, hc', -⟩ | ⟨-, ⟨-, h⟩ | ⟨b, hp', -⟩ | ⟨hp', -⟩⟩
  · cases hc.symm.trans hc'
  · exact h
  · cases hp.symm.trans hp'
  · cases hp.symm.trans hp'

/-- A byte of an undisturbed region reads as the data space holds it (R74). -/
theorem engineByte_quietOn {s : State} {base n i : Nat} (h : s.quietOn base n) (hi : i < n) (k : Nat) :
    s.engineByte k (base + i) = s.mem.read (base + i) := by
  refine engineByte_quiet (fun r hr e => ?_) k
  have outside := h r hr
  simp [e, inRegion, hi] at outside

/-- A 4-byte entry of an undisturbed region, little-endian (R59, R74). -/
theorem engineWord_quietOn {s : State} {base n c : Nat} (h : s.quietOn base (4 * n)) (hc : c < n) (k : Nat) :
    s.engineWord k (base + 4 * c) = wordOfBytes (s.mem.read (base + 4 * c)) (s.mem.read (base + 4 * c + 1))
      (s.mem.read (base + 4 * c + 2)) (s.mem.read (base + 4 * c + 3)) := by
  have byte : ∀ j < 4, ∀ m, s.engineByte m (base + 4 * c + j) = s.mem.read (base + 4 * c + j) := fun j hj m => by
    rw [Nat.add_assoc]
    exact engineByte_quietOn h (by omega) m
  rw [State.engineWord, byte 1 (by decide), byte 2 (by decide), byte 3 (by decide)]
  exact congrArg (wordOfBytes · _ _ _) (byte 0 (by decide) k)

/-- An entry of a store that is listed by index. -/
theorem getD_map_range {α : Type} (f : Nat → α) (d : α) {n i : Nat} (h : i < n) :
    ((List.range n).map f).getD i d = f i := by
  simp [List.getD_eq_getElem?_getD, List.getElem?_range h]

/-- K.Wt as INIT loads it from an undisturbed weight region (R62, R94). -/
theorem loadKernel_weight {s : State} {S : ShapeRegs} (h : s.quietOn S.wgtBase.toNat (S.ky * S.kx * S.c))
    {ky kx c : Nat} (hky : ky < S.ky) (hkx : kx < S.kx) (hc : c < S.c) :
    (s.loadKernel S).weight ky kx c = s.mem.read (S.wgtBase.toNat + (ky * S.kx + kx) * S.c + c) := by
  have inside : (ky * S.kx + kx) * S.c + c < S.ky * S.kx * S.c := radix_lt hc (radix_lt hkx hky)
  rw [Nat.add_assoc, ← engineByte_quietOn h inside]
  exact getD_map_range _ 0 inside

/-- K.Bias as INIT loads it from an undisturbed bias region (R63, R94). -/
theorem loadKernel_biasAt {s : State} {S : ShapeRegs} (h : s.quietOn S.biasBase.toNat (4 * S.c)) {c : Nat}
    (hc : c < S.c) :
    (s.loadKernel S).biasAt c
      = wordOfBytes (s.mem.read (S.biasBase.toNat + 4 * c)) (s.mem.read (S.biasBase.toNat + 4 * c + 1))
          (s.mem.read (S.biasBase.toNat + 4 * c + 2)) (s.mem.read (S.biasBase.toNat + 4 * c + 3)) :=
  (getD_map_range _ 0 hc).trans (engineWord_quietOn h hc _)

/-- K.Scale as INIT loads it from an undisturbed scale region (R63, R94). -/
theorem loadKernel_scaleAt {s : State} {S : ShapeRegs} (h : s.quietOn S.scaleBase.toNat (4 * S.c)) {c : Nat}
    (hc : c < S.c) :
    (s.loadKernel S).scaleAt c
      = wordOfBytes (s.mem.read (S.scaleBase.toNat + 4 * c)) (s.mem.read (S.scaleBase.toNat + 4 * c + 1))
          (s.mem.read (S.scaleBase.toNat + 4 * c + 2)) (s.mem.read (S.scaleBase.toNat + 4 * c + 3)) :=
  (getD_map_range _ 0 hc).trans (engineWord_quietOn h hc _)

/-- K's variant shows MODE.VAR again, but for the value 3 that INIT refuses (R39, R91). -/
theorem variant_bits {S : ShapeRegs} (h3 : S.var ≠ 3) : S.variant.bits.toNat = S.var := by
  cases hv : S.variant with
  | v0 => exact ((variant_eq_v0_iff S).mp hv).symm
  | v2 => exact (variant_eq_v2 h3 hv).symm
  | v1 =>
    unfold ShapeRegs.variant at hv
    split at hv
    · cases hv
    · rename_i h1
      exact h1.symm
    · cases hv

/-- K's reorder type shows MODE.REORD again, but for the values 2 and 3 that INIT refuses (R39, R91). -/
theorem reorder_bits {S : ShapeRegs} (h : S.reord ≤ 1) : S.reorder.bits.toNat = S.reord := by
  obtain h | h : S.reord = 0 ∨ S.reord = 1 := by omega
  · simp [ShapeRegs.reorder, Reorder.bits, h]
  · simp [ShapeRegs.reorder, Reorder.bits, h]

/-- Settles O12: no check fails and every access is answered, so INIT installs the object that `loadKernel` builds. -/
theorem initBuildsTheKernelObject : Obligations.InitBuildsTheKernelObject := by
  rintro s S rfl hl hqw haw hqb hab hqs has
  have run := execInit_loads (firstError_initChecks_legal hl) (portAnswer_initHits haw hab has)
  obtain ⟨-, -, -, -, -, -, hreord, ⟨hvar, -⟩, -⟩ := hl
  generalize hK : s.loadKernel s.initOperands = K at run
  refine ⟨_, K, run, complete_worked s (some K) K.emptySlots none s.acc s.mem, rfl, ?shape, ?mode, ?derived, ?weights,
    ?bias, ?scale, ⟨rfl, emptySlots_length K, tagAt_emptySlots K⟩, rfl, rfl⟩ <;> subst hK
  case shape => exact ⟨rfl, rfl, rfl, rfl, rfl, rfl, rfl, rfl, rfl, rfl, rfl, rfl, rfl⟩
  case mode => exact ⟨variant_bits hvar, reorder_bits hreord, rfl⟩
  case derived => exact loadKernel_derivedOk s s.initOperands
  case weights => exact fun ky kx c hky hkx hc => loadKernel_weight hqw hky hkx hc
  case bias => exact fun c hc => loadKernel_biasAt hqb hc
  case scale => exact fun c hc => loadKernel_scaleAt hqs hc

end Sys2Proof.Machine
end

section
/-!
PROOFS. The repacked weight store (40_control.md R95): the index of an entry and its coordinates are inverse, so the
store holds each entry at its index.
-/
namespace Sys2Proof.Machine

/-- An entry's place in row-major order, and back. -/
theorem rowMajorIndex_spec {R X P r x c : Nat} (hr : r < R) (hx : x < X) (hc : c < P) :
    (r * X + x) * P + c < R * X * P
      ∧ (((r * X + x) * P + c) / P / X, ((r * X + x) * P + c) / P % X, ((r * X + x) * P + c) % P) = (r, x, c) := by
  rw [radix_div hc, radix_mod hc, radix_div hx, radix_mod hx]
  exact ⟨radix_lt hc (radix_lt hx hr), rfl⟩

/-- An entry's place when the G groups of w channels come first, then row and column, and back. -/
theorem groupedIndex_spec {G R X w r x c : Nat} (hw : 0 < w) (hr : r < R) (hx : x < X) (hc : c < G * w) {i : Nat}
    (hi : i = (c / w * R * X + r * X + x) * w + c % w) :
    i < R * X * (G * w) ∧ (i / w / X % R, i / w % X, i / w / X / R * w + i % w) = (r, x, c) := by
  have lane : c % w < w := Nat.mod_lt c hw
  have group : c / w < G := (Nat.div_lt_iff_lt_mul hw).mpr hc
  obtain rfl : i = ((c / w * R + r) * X + x) * w + c % w := by rw [hi]; ring
  constructor
  · calc _ < G * R * X * w := radix_lt lane (radix_lt hx (radix_lt hr group))
      _ = R * X * (G * w) := by ring
  · rw [radix_div lane, radix_mod lane, radix_div hx, radix_mod hx, radix_div hr, radix_mod hr, Nat.div_add_mod']

/-- Legal parameters have at least one lane (R10). -/
theorem params_w_pos {p : Params} (h : p.legal = true) : 0 < p.w := by
  simp only [Params.legal, Bool.and_eq_true, List.contains_iff_mem, List.mem_cons, List.not_mem_nil, or_false] at h
  omega

/-- The place of a weight entry within the store, and back (R95). -/
theorem storeIndex_spec {K : Kernel} {w r kx c : Nat} (hw : 0 < w) (hd : K.cpad = cpadOf w K.c) (hr : r < K.storeRows)
    (hkx : kx < K.kx) (hc : c < K.cpad) :
    K.storeIndex w r kx c < K.storeRows * K.kx * K.cpad ∧ K.storeCoord w (K.storeIndex w r kx c) = (r, kx, c) := by
  have rowMajor := rowMajorIndex_spec hr hkx hc
  have grouped := groupedIndex_spec hw hr hkx (hc.trans_eq hd) rfl
  rw [← cpadOf, ← hd] at grouped
  unfold Kernel.storeIndex Kernel.storeCoord
  cases K.var with
  | v0 => exact rowMajor
  | v1 =>
    cases K.reord with
    | rowMajor => exact rowMajor
    | channelMajor => exact grouped
  | v2 =>
    cases K.reord with
    | rowMajor => exact rowMajor
    | channelMajor => exact grouped

/-- The store holds an entry at its index (R95). -/
theorem repacked_storeIndex {K : Kernel} {w r kx c : Nat} (hw : 0 < w) (hd : K.cpad = cpadOf w K.c)
    (hr : r < K.storeRows) (hkx : kx < K.kx) (hc : c < K.cpad) :
    (K.repacked w).getD (K.storeIndex w r kx c) 0 = K.storeEntry r kx c := by
  obtain ⟨inside, coord⟩ := storeIndex_spec hw hd hr hkx hc
  rw [Kernel.repacked, getD_map_range _ 0 inside, coord]

/-- The store's rows: kernel rows, or V2's pairs of them (R95). -/
theorem storeRows_eq (K : Kernel) : K.storeRows = if K.var = .v2 then (K.ky + 1) / 2 else K.ky := by
  unfold Kernel.storeRows
  cases K.var <;> rfl

/-- The index of an entry, by the order of its store: row-major for V0 and reorder type 0, else by groups (R95). -/
theorem storeIndex_eq (K : Kernel) (w r kx c : Nat) :
    K.storeIndex w r kx c = if K.var = .v0 ∨ K.reord = .rowMajor then (r * K.kx + kx) * K.cpad + c
      else (c / w * K.storeRows * K.kx + r * K.kx + kx) * w + c % w := by
  unfold Kernel.storeIndex
  cases K.var <;> cases K.reord <;> rfl

/-- Settles O16: `repacked_storeIndex`, with rows, index and entry in the words of R95. -/
theorem repackedStoreHoldsTheEntries : Obligations.RepackedStoreHoldsTheEntries := by
  rintro p K hp ⟨⟨-, -, -, hd, -⟩, -⟩ r kx c hr hkx hc
  have hw : 0 < p.w := params_w_pos hp
  rw [← storeRows_eq] at hr ⊢
  rw [← storeIndex_eq, repacked_storeIndex hw hd hr hkx hc]
  rfl

end Sys2Proof.Machine
end

section
/-!
PROOFS. PREPROCESS (41_preprocess.md R101 to R108): its checks, its source reads, and the ring it leaves.
-/
namespace Sys2Proof.Machine

/-! ### The checks (R102) -/

/-- The conditions the model evaluates are those of the rule, row by row. -/
theorem preprocessChecks_eq_fillFailures (p : Params) (K : Kernel) (I : CallRegs) :
    preprocessChecks p K I = I.fillFailures p K := by
  simp only [preprocessChecks, zpTooLarge, rangeIllegal, outOfSpace, CallRegs.fillFailures, decide_not,
    Bool.decide_and, bne, beq_eq_decide]

/-- An invocation context that R102 accepts passes every check. -/
theorem firstError_preprocessChecks_legal {p : Params} {K : Kernel} {I : CallRegs} (h : I.fillLegal p K) :
    firstError (preprocessChecks p K I) = none := by
  obtain ⟨hzp, hrange, hsrc⟩ := h
  rw [preprocessChecks_eq_fillFailures, firstError_none]
  simp only [CallRegs.fillFailures, List.forall_mem_cons, List.not_mem_nil, false_implies, implies_true, and_true,
    decide_eq_false_iff_not]
  exact ⟨by omega, not_not.mpr hrange, by omega⟩

/-! ### The outcomes (R101) -/

/-- PREPROCESS without a kernel object (R102). -/
theorem execPreprocess_notReady {s : State} (hK : s.kernel = none) :
    execPreprocess s = .next (raiseError .notReady (encode .preprocess) s) := by
  rcases execPreprocess_cases s with ⟨-, e⟩ | ⟨K, hK', -⟩
  · exact e
  · cases hK.symm.trans hK'

/-- PREPROCESS whose checks fail (R102, R148). -/
theorem execPreprocess_fails {s : State} {K : Kernel} {code : ErrorCode} {info : Word} (hK : s.kernel = some K)
    (h : firstError (preprocessChecks s.params K s.invocation) = some (code, info)) :
    execPreprocess s = .next (raiseError code info s) := by
  rcases execPreprocess_cases s with ⟨hn, -⟩ | ⟨K', hK', outcome⟩
  · cases hK.symm.trans hn
  cases hK.symm.trans hK'
  rcases outcome with ⟨code', info', h', e⟩ | ⟨h', -⟩
  · cases h.symm.trans h'
    exact e
  · cases h.symm.trans h'

/-- PREPROCESS whose checks pass, with nothing to fill (R101, R115). -/
theorem execPreprocess_nothing {s : State} {K : Kernel} (hK : s.kernel = some K)
    (h : firstError (preprocessChecks s.params K s.invocation) = none)
    (he : s.invocation.dyBeg = s.invocation.dyEnd ∨ K.var = .v0) : execPreprocess s = .next (complete s) := by
  rcases execPreprocess_cases s with ⟨hn, -⟩ | ⟨K', hK', outcome⟩
  · cases hK.symm.trans hn
  cases hK.symm.trans hK'
  rcases outcome with ⟨_, _, h', -⟩ | ⟨-, ⟨-, e⟩ | ⟨hrange, hvar, -⟩⟩
  · cases h.symm.trans h'
  · exact e
  · exact absurd he (not_or.mpr ⟨hrange, hvar⟩)

/-- PREPROCESS whose checks pass and whose accesses are answered, with rows to fill (R101, R103). -/
theorem execPreprocess_fills {s : State} {K : Kernel} (hK : s.kernel = some K)
    (h : firstError (preprocessChecks s.params K s.invocation) = none)
    (hrange : s.invocation.dyBeg ≠ s.invocation.dyEnd) (hvar : K.var ≠ .v0)
    (hp : s.portAnswer (fillHits s.draws K s.invocation s.invocation.dyBeg s.invocation.dyEnd) = .data) :
    execPreprocess s = .next (complete { enterContext s s.invocation with ring := s.filledRing K s.invocation }) := by
  rcases execPreprocess_cases s with ⟨hn, -⟩ | ⟨K', hK', outcome⟩
  · cases hK.symm.trans hn
  cases hK.symm.trans hK'
  rcases outcome with ⟨_, _, h', -⟩ | ⟨-, ⟨he, -⟩ | ⟨-, -, ⟨-, e⟩ | ⟨_, hp', -⟩ | ⟨hp', -⟩⟩⟩
  · cases h.symm.trans h'
  · exact absurd he (not_or.mpr ⟨hrange, hvar⟩)
  · exact e
  · cases hp.symm.trans hp'
  · cases hp.symm.trans hp'

/-- Settles O18: `execPreprocess_nothing` asks nothing of the port. -/
theorem preprocessWithNothingToFillCompletes : Obligations.PreprocessWithNothingToFillCompletes := by
  rintro s K I hK rfl hl he
  exact ⟨_, execPreprocess_nothing hK (firstError_preprocessChecks_legal hl) he,
    complete_worked s s.kernel s.ring s.rctx s.acc s.mem, rfl, rfl, rfl, rfl, rfl⟩

/-- Settles O19: the model's checks are the rule's rows, and `firstError_some` says which one is reported. -/
theorem preprocessReportsTheFirstFailingCheck : Obligations.PreprocessReportsTheFirstFailingCheck := by
  have fails (s : State) (code : ErrorCode) (info : Word) : s.failsTo (raiseError code info s) code info :=
    raiseError_worked s s.kernel s.ring s.rctx s.acc s.mem code info
  constructor
  · intro s hK
    exact ⟨_, execPreprocess_notReady hK, fails s .notReady _, hK, rfl⟩
  · rintro s K I hK rfl pre post code info hrows hpre
    have failing : firstError (preprocessChecks s.params K s.invocation) = some (code, info) :=
      firstError_some.mpr ⟨pre, post, (preprocessChecks_eq_fillFailures _ _ _).trans hrows, hpre⟩
    exact ⟨_, execPreprocess_fails hK failing, fails s code info, rfl, rfl⟩

/-! ### The ring before the first fill (R103) -/

@[simp] theorem ringFor_length (s : State) (I : CallRegs) : (ringFor s I).length = s.ring.length := by
  rcases ringFor_cases s I with ⟨-, h⟩ | h <;> simp [h]

/-- Another context than RCTX leaves no slot with a row. -/
theorem tagAt_ringFor (s : State) (I : CallRegs) (i : Nat) :
    tagAt (ringFor s I) i = if s.rctx = some I.ringCtx then tagAt s.ring i else none := by
  unfold ringFor
  split
  · rfl
  · exact tagAt_invalidateTags s.ring i

/-- Emptied or not, the ring keeps its payloads (log 24). -/
theorem lanes_ringFor (s : State) (I : CallRegs) (i : Nat) :
    ((ringFor s I)[i]?).map Slot.lanes = (s.ring[i]?).map Slot.lanes := by
  rcases ringFor_cases s I with ⟨-, h⟩ | h
  · rw [h]
  · rw [h, lanes_invalidateTags]

/-! ### The fills (R101, R104 to R108) -/

/-- With the source region readable, every source read of a command is answered with data. -/
theorem portAnswer_sourceHits {s : State} {K : Kernel} {I : CallRegs} (h : s.answersOn false I.srcBase.toNat K.srcBytes)
    (draw : Nat) (sure : Nat → Nat → Bool) : s.portAnswer (sourceHits draw K I sure) = .data := by
  refine portAnswer_data fun f hf => List.eq_nil_iff_forall_not_mem.mpr fun a ha => ?_
  obtain ⟨-, read, inside⟩ := sourceHits_mem ha
  exact Bool.false_ne_true ((h f hf read).symm.trans inside)

/-- A kernel object with a ring has at least one slot (R92). -/
theorem bufH_pos {p : Params} {K : Kernel} (hK : K.wf p) (hv : K.var ≠ .v0) : 0 < K.bufH :=
  (bufHLog2_spec hK hv).1 ▸ Nat.two_pow_pos K.bufHLog2

/-- CPAD has room for every channel (R16). -/
theorem le_cpadOf {w : Nat} (hw : 0 < w) (c : Nat) : c ≤ cpadOf w c := by
  have := Nat.lt_mul_div_succ (c + w - 1) hw
  rw [Nat.mul_add, Nat.mul_comm w] at this
  unfold cpadOf ceilDiv
  omega

/-- The end of the window of a non-empty range (R100). -/
theorem byBeg_add_windowLen (K : Kernel) {b e : Nat} (h : b < e) :
    K.byBeg b + K.windowLen b e = (e - 1) * K.sy + K.extY := by
  rw [← Nat.add_assoc, ← Nat.add_mul]
  congr 2
  omega

/-- The ring PREPROCESS leaves: a slot that some row of the window maps to was filled last with the largest such row,
and every other slot is as it was before the first fill (R101, R103, R108). -/
theorem filledRing_spec {s : State} {K : Kernel} {I : CallRegs} (h0 : 0 < K.bufH) (hl : s.ring.length = K.bufH)
    (hr : I.dyBeg < I.dyEnd) :
    (∀ by_, I.dyBeg * K.sy ≤ by_ → by_ < (I.dyEnd - 1) * K.sy + K.extY →
        (∀ b', by_ < b' → b' < (I.dyEnd - 1) * K.sy + K.extY → K.slotOf b' ≠ K.slotOf by_) →
        (s.filledRing K I)[K.slotOf by_]?
          = some ⟨some by_, K.payload s.params.w I.srcZpByte (s.source K I) by_⟩)
      ∧ ∀ i, (∀ by_, I.dyBeg * K.sy ≤ by_ → by_ < (I.dyEnd - 1) * K.sy + K.extY → K.slotOf by_ ≠ i) →
        (s.filledRing K I)[i]? = (ringFor s I)[i]? := by
  rw [← byBeg_add_windowLen K hr]
  exact fillRows_range h0 ((ringFor_length s I).trans hl)

/-- With the source undisturbed, a lane with c < C is filled with what the data space gives (R105, R106). -/
theorem laneValue_quiet {s : State} {K : Kernel} {I : CallRegs} (h : s.quietOn I.srcBase.toNat K.srcBytes) {c : Nat}
    (hc : c < K.c) (zp : Byte) (by_ px : Nat) :
    K.laneValue zp (s.source K I) by_ px c =
      if K.var = .v2 then
        (srcVal K I s.mem.read (by_ + K.dily) px c).setWidth 16 ++ (srcVal K I s.mem.read by_ px c).setWidth 16
      else (srcVal K I s.mem.read by_ px c).setWidth 32 := by
  unfold Kernel.laneValue
  simp only [if_pos hc, source_quiet h hc]
  cases K.var <;> rfl

/-- With the source undisturbed, a slot filled with a row holds it. -/
theorem holdsRow_of_filled {s : State} {K : Kernel} {I : CallRegs} {w by_ : Nat} {zp : Byte} {ring : List Slot}
    (hw : 0 < w) (hd : K.cpad = cpadOf w K.c) (hq : s.quietOn I.srcBase.toNat K.srcBytes)
    (h : ring[K.slotOf by_]? = some ⟨some by_, K.payload w zp (s.source K I) by_⟩) :
    holdsRow w s.mem K I ring by_ := by
  refine ⟨by simp [tagAt, h], fun px hpx c hc => ?_⟩
  have lane : c < K.cpad := hc.trans_le (hd ▸ le_cpadOf hw K.c)
  rw [ringLane_filled hw hd hpx lane h, laneValue_quiet hq hc]

/-- Settles O17: the port answers every read of the fill, so PREPROCESS completes with `filledRing`, whose slots
`filledRing_spec` gives. -/
theorem preprocessFillsTheWindow : Obligations.PreprocessFillsTheWindow := by
  rintro s K I hK rfl hp hwf hlen hvar hl hr ⟨hq, ha⟩
  have run := execPreprocess_fills hK (firstError_preprocessChecks_legal hl) hr.ne hvar (portAnswer_sourceHits ha _ _)
  obtain ⟨filled, kept⟩ := filledRing_spec (bufH_pos hwf hvar) hlen hr
  obtain ⟨⟨-, -, -, hcpad, -⟩, -⟩ := hwf
  refine ⟨_, run, complete_worked s s.kernel _ _ s.acc s.mem, rfl, ?length, ?rows, ?others, rfl, rfl, rfl⟩
  case length => exact (fillRows_length ..).trans ((ringFor_length s s.invocation).trans hlen)
  case rows =>
    intro by_ hlo hhi largest
    exact holdsRow_of_filled (params_w_pos hp) hcpad hq (filled by_ hlo hhi largest)
  case others =>
    intro i _ unmapped
    have same := kept i unmapped
    exact ⟨(congrArg (·.bind Slot.tag) same).trans (tagAt_ringFor s s.invocation i),
      (congrArg (·.map Slot.lanes) same).trans (lanes_ringFor s s.invocation i)⟩

end Sys2Proof.Machine
end

section
/-!
PROOFS. The checks of COMPUTE and RUN (42_convolution.md R115 to R118), and which plan a command carries out.
-/
namespace Sys2Proof.Machine

/-! ### Checks 1 to 7 (R116, R117) -/

/-- The conditions the model evaluates are those of the rules, row by row. -/
theorem convChecks_eq_convFailures (p : Params) (K : Kernel) (I : CallRegs) :
    convChecks p K I = I.convFailures p K := by
  simp only [convChecks, zpTooLarge, rangeIllegal, outOfSpace, regionsOverlap, CallRegs.convFailures, decide_not,
    Bool.decide_and, bne, beq_eq_decide]

/-- An invocation context that R116 and R117 accept passes every check. -/
theorem firstError_convChecks_legal {p : Params} {K : Kernel} {I : CallRegs} (h : I.convLegal p K) :
    firstError (convChecks p K I) = none := by
  obtain ⟨⟨hsz, hrange, hsrc⟩, hdz, hdst, hdisjoint⟩ := h
  rw [convChecks_eq_convFailures, firstError_none]
  simp only [CallRegs.convFailures, List.forall_mem_cons, List.not_mem_nil, false_implies, implies_true, and_true,
    decide_eq_false_iff_not]
  exact ⟨by omega, by omega, not_not.mpr hrange, by omega, by omega, by omega⟩

/-! ### Refused commands (R116, R148) -/

/-- A command that fails before it has changed anything ends in error completion (R148). -/
theorem raiseError_failsTo (s : State) (code : ErrorCode) (info : Word) :
    s.failsTo (raiseError code info s) code info :=
  raiseError_worked s s.kernel s.ring s.rctx s.acc s.mem code info

/-- COMPUTE whose checks fail raises their error. -/
theorem exec_compute_refused {s : State} {code : ErrorCode} {info : Word} (h : computePlan s = .error (code, info)) :
    exec .compute s = .next (raiseError code info s) := by
  rcases execCompute_cases s with ⟨code', info', h', e⟩ | ⟨P, h', -⟩ <;> cases h.symm.trans h'
  exact e

/-- RUN whose checks fail raises their error. -/
theorem exec_run_refused {s : State} {code : ErrorCode} {info : Word} (h : runPlan s = .error (code, info)) :
    exec .run s = .next (raiseError code info s) := by
  rcases execRun_cases s with ⟨code', info', h', e⟩ | ⟨P, h', -⟩ <;> cases h.symm.trans h'
  exact e

/-- Check 1 of COMPUTE: there is no kernel object. -/
theorem computePlan_notReady {s : State} (h : s.kernel = none) :
    computePlan s = .error (.notReady, encode .compute) := by simp [computePlan, h]

/-- Check 1 of RUN. -/
theorem runPlan_notReady {s : State} (h : s.kernel = none) : runPlan s = .error (.notReady, encode .run) := by
  simp [runPlan, h]

/-- Checks 2 to 7 are the same for COMPUTE and RUN. -/
theorem exec_conv_refused {s : State} {K : Kernel} {i : Instr} {code : ErrorCode} {info : Word}
    (hi : i = .compute ∨ i = .run) (hK : s.kernel = some K)
    (h : firstError (convChecks s.params K s.invocation) = some (code, info)) :
    exec i s = .next (raiseError code info s) := by
  rcases hi with rfl | rfl
  · exact exec_compute_refused (by simp [computePlan, hK, h])
  · exact exec_run_refused (by simp [runPlan, hK, h])

/-- Settles O25: the model's checks are the rules' rows, and `firstError_some` says which one is reported. -/
theorem convolutionReportsTheFirstFailingCheck : Obligations.ConvolutionReportsTheFirstFailingCheck := by
  constructor
  · intro s hK
    exact ⟨⟨_, exec_compute_refused (computePlan_notReady hK), raiseError_failsTo s .notReady _, hK, rfl⟩,
      ⟨_, exec_run_refused (runPlan_notReady hK), raiseError_failsTo s .notReady _, hK, rfl⟩⟩
  · rintro s K I i hi hK rfl pre post code info hrows hpre
    have failing : firstError (convChecks s.params K s.invocation) = some (code, info) :=
      firstError_some.mpr ⟨pre, post, (convChecks_eq_convFailures _ _ _).trans hrows, hpre⟩
    exact ⟨_, exec_conv_refused hi hK failing, raiseError_failsTo s code info, rfl, rfl, rfl⟩

/-! ### Residency (R118) -/

/-- The padded rows of the window of a non-empty range (R100). -/
theorem mem_window {K : Kernel} {b e py : Nat} (h : b < e) :
    py ∈ K.window b e ↔ b * K.sy ≤ py ∧ py < (e - 1) * K.sy + K.extY := by
  rw [Kernel.window, List.mem_range'_1, byBeg_add_windowLen K h]

theorem resident_iff {K : Kernel} {ring : List Slot} {py : Nat} :
    resident K ring py = true ↔ tagAt ring (K.slotOf py) = some py := beq_iff_eq

/-- Another context than the invocation's is a miss, with ERRINFO all ones. -/
theorem ringMiss_context {s : State} {K : Kernel} {I : CallRegs} (h : s.rctx ≠ some I.ringCtx) :
    ringMiss s K I = some 0xFFFFFFFF := if_pos h

/-- Under the invocation's context, the first row of the window that is not resident is the miss. -/
theorem ringMiss_row {s : State} {K : Kernel} {I : CallRegs} (hx : s.rctx = some I.ringCtx) (hr : I.dyBeg < I.dyEnd)
    {py : Nat} (hlo : I.dyBeg * K.sy ≤ py) (hhi : py < (I.dyEnd - 1) * K.sy + K.extY)
    (hmiss : tagAt s.ring (K.slotOf py) ≠ some py)
    (hfirst : ∀ b, I.dyBeg * K.sy ≤ b → b < py → tagAt s.ring (K.slotOf b) = some b) :
    ringMiss s K I = some (BitVec.ofNat 32 py) := by
  have found : (K.window I.dyBeg I.dyEnd).find? (fun b => !resident K s.ring b) = some py := by
    refine List.find?_range'_eq_some.mpr ⟨?_, (mem_window hr).mpr ⟨hlo, hhi⟩, fun b hb hlt => ?_⟩
    · simpa [← Bool.not_eq_true, resident_iff] using hmiss
    · simpa [resident_iff] using hfirst b hb hlt
  simp [ringMiss, hx, found]

/-- A window that is resident under the invocation's context is no miss. -/
theorem ringMiss_resident {s : State} {K : Kernel} {I : CallRegs} (hr : I.dyBeg < I.dyEnd)
    (h : s.windowResident K I) : ringMiss s K I = none := by
  obtain ⟨hx, hrows⟩ := h
  have found : (K.window I.dyBeg I.dyEnd).find? (fun b => !resident K s.ring b) = none := by
    refine List.find?_eq_none.mpr fun b hb => ?_
    obtain ⟨hlo, hhi⟩ := (mem_window hr).mp hb
    simpa [resident_iff] using hrows b hlo hhi
  have hx : s.rctx = some I.ringCtx := hx
  simp [ringMiss, hx, found]

/-- COMPUTE from a ring that misses raises ERR_RING_MISS (R118). -/
theorem exec_compute_ringMiss {s : State} {K : Kernel} {info : Word} (hK : s.kernel = some K)
    (hl : s.invocation.convLegal s.params K) (hr : s.invocation.dyBeg < s.invocation.dyEnd) (hv : K.var ≠ .v0)
    (hm : ringMiss s K s.invocation = some info) : exec .compute s = .next (raiseError .ringMiss info s) :=
  exec_compute_refused (by simp [computePlan, hK, firstError_convChecks_legal hl, hr.ne, hv, hm])

/-- Settles O26: each clause names the miss that `ringMiss` finds. -/
theorem computeChecksResidency : Obligations.ComputeChecksResidency := by
  rintro s K I hK rfl hv hl hr
  constructor
  · intro hx
    exact ⟨_, exec_compute_ringMiss hK hl hr hv (ringMiss_context hx), raiseError_failsTo s .ringMiss _, rfl, rfl⟩
  · intro hx py hlo hhi hmiss hfirst
    exact ⟨_, exec_compute_ringMiss hK hl hr hv (ringMiss_row hx hr hlo hhi hmiss hfirst),
      raiseError_failsTo s .ringMiss _, rfl, rfl⟩

/-! ### The plan a command carries out (R115, R119, R120) -/

theorem exec_compute_plan {s : State} {P : Plan} (h : computePlan s = .ok P) : exec .compute s = finishPlan s P := by
  rcases execCompute_cases s with ⟨_, _, h', -⟩ | ⟨P', h', e⟩ <;> cases h.symm.trans h'
  exact e

theorem exec_run_plan {s : State} {P : Plan} (h : runPlan s = .ok P) : exec .run s = finishPlan s P := by
  rcases execRun_cases s with ⟨_, _, h', -⟩ | ⟨P', h', e⟩ <;> cases h.symm.trans h'
  exact e

/-- An empty range (R115). -/
theorem exec_conv_empty {s : State} {K : Kernel} {i : Instr} (hi : i = .compute ∨ i = .run) (hK : s.kernel = some K)
    (hl : s.invocation.convLegal s.params K) (he : s.invocation.dyBeg = s.invocation.dyEnd) :
    exec i s = finishPlan s (emptyPlan s s.invocation) := by
  have hc := firstError_convChecks_legal hl
  rcases hi with rfl | rfl
  · exact exec_compute_plan (computePlan_empty hK hc he)
  · exact exec_run_plan (runPlan_empty hK hc he)

/-- Both commands compute directly on V0 (R119, R120). -/
theorem exec_conv_direct {s : State} {K : Kernel} {i : Instr} (hi : i = .compute ∨ i = .run) (hK : s.kernel = some K)
    (hl : s.invocation.convLegal s.params K) (hr : s.invocation.dyBeg < s.invocation.dyEnd) (hv : K.var = .v0) :
    exec i s = finishPlan s (directPlan s K s.invocation) := by
  have hc := firstError_convChecks_legal hl
  rcases hi with rfl | rfl
  · exact exec_compute_plan (computePlan_direct hK hc hr.ne hv)
  · exact exec_run_plan (runPlan_direct hK hc hr.ne hv)

/-- COMPUTE from a ring that holds the window (R118, R119). -/
theorem exec_compute_ring {s : State} {K : Kernel} (hK : s.kernel = some K) (hl : s.invocation.convLegal s.params K)
    (hr : s.invocation.dyBeg < s.invocation.dyEnd) (hv : K.var ≠ .v0) (hw : s.windowResident K s.invocation) :
    exec .compute s = finishPlan s (ringPlan s K s.invocation) :=
  exec_compute_plan (computePlan_ring hK (firstError_convChecks_legal hl) hr.ne hv (ringMiss_resident hr hw))

/-- RUN through the ring (R120). -/
theorem exec_run_fused {s : State} {K : Kernel} (hK : s.kernel = some K) (hl : s.invocation.convLegal s.params K)
    (hr : s.invocation.dyBeg < s.invocation.dyEnd) (hv : K.var ≠ .v0) :
    exec .run s = finishPlan s (fusedPlan s K s.invocation) :=
  exec_run_plan (runPlan_fused hK (firstError_convChecks_legal hl) hr.ne hv)

/-- A plan whose accesses are all answered with data completes (R112, R147). -/
theorem finishPlan_completes {s : State} {P : Plan} (h : s.portAnswer P.hits = .data) :
    finishPlan s P = .next (complete (s.worked s.kernel P.ring P.rctx (s.accAfter P)
      (s.storedBytes s.settled P.first P.values))) := by
  rcases finishPlan_cases s P with ⟨-, e⟩ | ⟨_, h', -⟩ | ⟨h', -⟩
  · exact e
  · cases h.symm.trans h'
  · cases h.symm.trans h'

/-- Settles O24: the empty plan makes no access, writes no byte and keeps the ring. -/
theorem emptyRangeCompletes : Obligations.EmptyRangeCompletes := by
  rintro s K I i hi hK rfl hl he
  have run := (exec_conv_empty hi hK hl he).trans (finishPlan_completes (portAnswer_noAccess s))
  exact ⟨_, run, complete_worked s _ _ _ _ _, rfl, rfl, rfl, rfl, rfl⟩

end Sys2Proof.Machine
end

section
/-!
PROOFS. The sums formed from the ring (42_convolution.md R113, R114): where a tap's row and column fall, and RingSum of
V1 and of V2 as sums of RefSum's products.
-/
namespace Sys2Proof.Machine

/-! ### Taps (R100, R111) -/

/-- The padded row of a tap lies in the window of its output row (R100). -/
theorem tapRow_lt {p : Params} {K : Kernel} (hK : K.wf p) (dy : Nat) {ky : Nat} (hky : ky < K.ky) :
    dy * K.sy + ky * K.dily < dy * K.sy + K.extY := by
  obtain ⟨⟨⟨hext, -⟩, -⟩, -⟩ := hK
  have := Nat.mul_le_mul_right K.dily (show ky ≤ K.ky - 1 by omega)
  omega

/-- The padded column of a tap lies in the padded plane (R111). -/
theorem tapCol_lt {p : Params} {K : Kernel} (hK : K.wf p) {dx kx : Nat} (hdx : dx < K.dstW) (hkx : kx < K.kx) :
    dx * K.sx + kx * K.dilx < K.pw := by
  obtain ⟨⟨⟨-, hext⟩, -, ⟨-, hdst⟩, -⟩, ⟨-, -, -, -, -, -, -, -, -, -, -, hpw, -⟩⟩ := hK
  have hcol : dx * K.sx ≤ K.pw - K.extX :=
    (Nat.mul_le_mul_right K.sx (show dx ≤ (K.pw - K.extX) / K.sx by omega)).trans (Nat.div_mul_le_self _ _)
  have := Nat.mul_le_mul_right K.dilx (show kx ≤ K.kx - 1 by omega)
  omega

/-! ### Sums over the taps -/

/-- A sum over the taps, row by row. -/
theorem sum_taps (f : Nat × Nat → Word) (m n : Nat) :
    ((taps m n).map f).sum = ∑ r ∈ Finset.range m, ∑ x ∈ Finset.range n, f (r, x) := by
  have listed (g : Nat → Word) (k : Nat) : ((List.range k).map g).sum = ∑ r ∈ Finset.range k, g r := rfl
  rw [taps, List.map_flatMap, List.flatMap_def, List.sum_flatten, List.map_map, listed]
  exact Finset.sum_congr rfl fun r _ => (congrArg List.sum (List.map_map ..)).trans (listed _ n)

/-- A sum in pairs of neighbours, the last one alone when their number is odd. -/
theorem sum_pairs (f : Nat → Word) (n : Nat) :
    ∑ j ∈ Finset.range ((n + 1) / 2), (f (2 * j) + if 2 * j + 1 < n then f (2 * j + 1) else 0)
      = ∑ r ∈ Finset.range n, f r := by
  have even (g : Nat → Word) (m : Nat) :
      ∑ j ∈ Finset.range m, (g (2 * j) + g (2 * j + 1)) = ∑ r ∈ Finset.range (2 * m), g r := by
    induction m with
    | zero => rfl
    | succ m ih => rw [Finset.sum_range_succ, ih, Nat.mul_add, Finset.sum_range_succ, Finset.sum_range_succ, add_assoc]
  calc _ = ∑ j ∈ Finset.range ((n + 1) / 2),
          ((if 2 * j < n then f (2 * j) else 0) + if 2 * j + 1 < n then f (2 * j + 1) else 0) := by
        refine Finset.sum_congr rfl fun j hj => ?_
        rw [if_pos (show 2 * j < n by have := Finset.mem_range.mp hj; omega)]
    _ = ∑ r ∈ Finset.range (2 * ((n + 1) / 2)), if r < n then f r else 0 := even (fun r => if r < n then f r else 0) _
    _ = ∑ r ∈ Finset.range n, if r < n then f r else 0 := by
        refine (Finset.sum_subset (Finset.range_mono (by omega)) fun r _ hr => ?_).symm
        exact if_neg (by simpa using hr)
    _ = ∑ r ∈ Finset.range n, f r := Finset.sum_congr rfl fun r hr => if_pos (Finset.mem_range.mp hr)

/-- RingSum of V1 as a sum of products (R113). -/
theorem ringSumV1_eq_sum (K : Kernel) (w : Nat) (ring : List Slot) (dy dx c : Nat) :
    K.ringSumV1 w ring dy dx c = ((taps K.ky K.kx).map fun t =>
      K.ringLane w ring (dy * K.sy + t.1 * K.dily) (dx * K.sx + t.2 * K.dilx) c
        * widenWeight (K.weight t.1 t.2 c)).sum := by
  unfold Kernel.ringSumV1 mac
  rw [foldl_add_eq_sum, zero_add]

/-- RingSum of V2 as a sum of paired products (R113). -/
theorem ringSumV2_eq_sum (K : Kernel) (w : Nat) (ring : List Slot) (dy dx c : Nat) :
    K.ringSumV2 w ring dy dx c = ((taps K.npair K.kx).map fun t =>
      pmadd (K.ringLane w ring (dy * K.sy + 2 * t.1 * K.dily) (dx * K.sx + t.2 * K.dilx) c)
        (K.weightPair t.1 t.2 c)).sum := by
  unfold Kernel.ringSumV2 pmac
  rw [foldl_add_eq_sum, zero_add]

/-- RefSum's product of tap (ky, kx), over the data space as it stands (R111). -/
def tapProduct (m : Memory) (K : Kernel) (I : CallRegs) (dy dx c ky kx : Nat) : Word :=
  widenSource (srcVal K I m.read (dy * K.sy + ky * K.dily) (dx * K.sx + kx * K.dilx) c)
    * widenWeight (K.weight ky kx c)

theorem refSum_eq_sum_tapProduct (m : Memory) (K : Kernel) (I : CallRegs) (dy dx c : Nat) :
    K.refSum (plainSource m K I) dy dx c = ((taps K.ky K.kx).map fun t => tapProduct m K I dy dx c t.1 t.2).sum :=
  refSum_eq_sum ..

/-! ### A pair of taps (R105, R106, R133) -/

/-- The i16 half of a source value, sign-extended, is the value widened: its top bit is 0 (R106). -/
theorem signExtend_setWidth_source (v : Byte) : (v.setWidth 16).signExtend 32 = widenSource v := by
  have top : (v.setWidth 16).msb = false := by simp [BitVec.msb_setWidth]
  rw [BitVec.signExtend_eq_setWidth_of_msb_false top]
  exact BitVec.eq_of_toNat_eq (by simp [widenSource])

/-- The i16 half of a weight, sign-extended, is the weight widened. -/
theorem signExtend_signExtend_weight (v : Byte) : (v.signExtend 16).signExtend 32 = widenWeight v :=
  BitVec.eq_of_toInt_eq (by
    rw [widenWeight, BitVec.toInt_signExtend_of_le (by decide), BitVec.toInt_signExtend_of_le (by decide),
      BitVec.toInt_signExtend_of_le (by decide)])

/-- PMADD of a source pair and a weight pair (R133): the two taps' products, the second one only when the kernel has its
row. -/
theorem pmadd_weightPair (K : Kernel) (hi lo : Byte) (j kx c : Nat) :
    pmadd (hi.setWidth 16 ++ lo.setWidth 16) (K.weightPair j kx c)
      = widenSource lo * widenWeight (K.weight (2 * j) kx c)
        + if 2 * j + 1 < K.ky then widenSource hi * widenWeight (K.weight (2 * j + 1) kx c) else 0 := by
  unfold pmadd Kernel.weightPair
  simp only [hiHalf_append, loHalf_append, signExtend_setWidth_source, signExtend_signExtend_weight]
  rw [add_comm]
  congr 1
  split
  · rw [signExtend_signExtend_weight]
  · simp

/-! ### The window rows in the ring (R114) -/

/-- V1's lane, times its weight, is the tap's product. -/
theorem ringLane_mul_weight {w : Nat} {m : Memory} {K : Kernel} {I : CallRegs} {ring : List Slot} {dy dx c ky kx : Nat}
    (hv : K.var ≠ .v2) (hc : c < K.c) (hpx : dx * K.sx + kx * K.dilx < K.pw)
    (hrow : holdsRow w m K I ring (dy * K.sy + ky * K.dily)) :
    K.ringLane w ring (dy * K.sy + ky * K.dily) (dx * K.sx + kx * K.dilx) c * widenWeight (K.weight ky kx c)
      = tapProduct m K I dy dx c ky kx := by
  rw [hrow.2 _ hpx c hc, if_neg hv]
  rfl

/-- PMADD of V2's lane and weight pair is the product of its one or two taps. -/
theorem pmadd_ringLane {w : Nat} {m : Memory} {K : Kernel} {I : CallRegs} {ring : List Slot} {dy dx c j kx : Nat}
    (hv : K.var = .v2) (hc : c < K.c) (hpx : dx * K.sx + kx * K.dilx < K.pw)
    (hrow : holdsRow w m K I ring (dy * K.sy + 2 * j * K.dily)) :
    pmadd (K.ringLane w ring (dy * K.sy + 2 * j * K.dily) (dx * K.sx + kx * K.dilx) c) (K.weightPair j kx c)
      = tapProduct m K I dy dx c (2 * j) kx
        + if 2 * j + 1 < K.ky then tapProduct m K I dy dx c (2 * j + 1) kx else 0 := by
  have partner : dy * K.sy + 2 * j * K.dily + K.dily = dy * K.sy + (2 * j + 1) * K.dily := by ring
  rw [hrow.2 _ hpx c hc, if_pos hv, pmadd_weightPair, partner]
  rfl

/-- Settles O20: V1's taps agree one by one; V2's pairs of kernel rows regroup the same products. -/
theorem ringSumEqualsRefSum : Obligations.RingSumEqualsRefSum := by
  intro p K I m ring dy dx c hK hv hdx hc hrows
  have row {ky : Nat} (hky : ky < K.ky) : holdsRow p.w m K I ring (dy * K.sy + ky * K.dily) :=
    hrows _ (Nat.le_add_right ..) (tapRow_lt hK dy hky)
  rw [refSum_eq_sum_tapProduct]
  cases hvar : K.var with
  | v0 => exact absurd hvar hv
  | v1 =>
    have h2 : K.var ≠ .v2 := by simp [hvar]
    rw [show K.ringSum p.w ring dy dx c = K.ringSumV1 p.w ring dy dx c by simp [Kernel.ringSum, hvar],
      ringSumV1_eq_sum]
    refine congrArg List.sum (List.map_congr_left fun t ht => ?_)
    obtain ⟨hky, hkx⟩ := mem_taps.mp ht
    exact ringLane_mul_weight h2 hc (tapCol_lt hK hdx hkx) (row hky)
  | v2 =>
    rw [show K.ringSum p.w ring dy dx c = K.ringSumV2 p.w ring dy dx c by simp [Kernel.ringSum, hvar],
      ringSumV2_eq_sum, sum_taps, sum_taps, Finset.sum_comm, Finset.sum_comm (s := Finset.range K.ky)]
    refine Finset.sum_congr rfl fun kx hkx => ?_
    refine (Finset.sum_congr rfl fun j hj => ?_).trans (sum_pairs (fun ky => tapProduct m K I dy dx c ky kx) K.ky)
    have hj : j < (K.ky + 1) / 2 := Finset.mem_range.mp hj
    exact pmadd_ringLane hvar hc (tapCol_lt hK hdx (Finset.mem_range.mp hkx)) (row (by omega))

end Sys2Proof.Machine
end

section
/-!
PROOFS. What COMPUTE and RUN write (42_convolution.md R111 to R113, R119 to R121): their accesses answered, the bytes of
each plan, and the ring RUN leaves.
-/
namespace Sys2Proof.Machine

/-! ### The accesses of a plan (R66, R150) -/

/-- The row range of an invocation that COMPUTE and RUN accept (R115). -/
theorem convLegal_range {p : Params} {K : Kernel} {I : CallRegs} (h : I.convLegal p K) :
    I.dyBeg ≤ I.dyEnd ∧ I.dyEnd ≤ K.dstH := by
  obtain ⟨⟨-, hrange, -⟩, -⟩ := h
  exact hrange

/-- With the destination region writable, every destination write of legal rows is answered. -/
theorem writeHits_answered {s : State} {K : Kernel} {I : CallRegs} {b e : Nat}
    (h : s.answersOn true I.dstBase.toNat K.dstBytes) (hb : b ≤ e) (he : e ≤ K.dstH) {f : PortFault} (hf : f ∈ s.port) :
    writeHits K I b e f = [] := by
  refine List.eq_nil_iff_forall_not_mem.mpr fun a ha => ?_
  obtain ⟨-, write, inside⟩ := writeHits_mem ha
  have outside := h f hf write
  have hend : K.rowsFirst b + K.rowsCount b e ≤ K.dstBytes :=
    (rowsFirst_add_rowsCount K hb).trans_le (Nat.mul_le_mul_right K.c (Nat.mul_le_mul_right K.dstW he))
  simp only [inRegion, Bool.and_eq_true, decide_eq_true_eq, Bool.and_eq_false_iff, decide_eq_false_iff_not]
    at inside outside
  omega

/-- With the source region readable, every source read is answered. -/
theorem sourceHits_answered {s : State} {K : Kernel} {I : CallRegs} (h : s.answersOn false I.srcBase.toNat K.srcBytes)
    (draw : Nat) (sure : Nat → Nat → Bool) {f : PortFault} (hf : f ∈ s.port) : sourceHits draw K I sure f = [] := by
  refine List.eq_nil_iff_forall_not_mem.mpr fun a ha => ?_
  obtain ⟨-, read, inside⟩ := sourceHits_mem ha
  exact Bool.false_ne_true ((h f hf read).symm.trans inside)

/-! ### The bytes of a plan (R61, R112) -/

/-- The plan writes `out dy dx c` to each destination element of the rows of the invocation. -/
def Plan.writesOut (P : Plan) (K : Kernel) (I : CallRegs) (out : Nat → Nat → Nat → Byte) : Prop :=
  ∀ dy dx c, I.dyBeg ≤ dy → dy < I.dyEnd → dx < K.dstW → c < K.c → P.byteAt (I.dstAddr K dy dx c) = some (out dy dx c)

/-- The run of output bytes holds each output of the rows at its place. -/
theorem outBytes_outIndex {s : State} {K : Kernel} {I : CallRegs} {sum : Nat → Nat → Nat → Word} {n k i dy dx c : Nat}
    (hi : K.outIndex dy dx c = n + i) (hk : i < k) (hdx : dx < K.dstW) (hc : c < K.c) :
    (s.outBytes K I sum n k)[i]? = some (s.outByte K I sum dy dx c) := by
  rw [outBytes_getElem? s K I sum hk, ← hi, outCoord_outIndex hdx hc]

/-- A plan that starts at the rows and whose values are the outputs in destination order writes them. -/
theorem writesOut_of_getElem? {P : Plan} {K : Kernel} {I : CallRegs} {out : Nat → Nat → Nat → Byte}
    (hfirst : P.first = I.dstBase.toNat + K.rowsFirst I.dyBeg)
    (hval : ∀ dy dx c i, I.dyBeg ≤ dy → dy < I.dyEnd → dx < K.dstW → c < K.c →
      K.outIndex dy dx c = K.rowsFirst I.dyBeg + i → i < K.rowsCount I.dyBeg I.dyEnd →
      P.values[i]? = some (out dy dx c)) : P.writesOut K I out := by
  intro dy dx c hb he hdx hc
  obtain ⟨i, hi, hlt⟩ := outIndex_in_rows hb he hdx hc
  refine byteAt_eq_some.mpr ⟨i, ?_, hval dy dx c i hb he hdx hc hi hlt⟩
  rw [hfirst, Nat.add_assoc, ← hi]
  rfl

/-- A host that has left the source region alone has raced with no byte of it (R74). -/
theorem no_race_of_quietOn {s : State} {base n : Nat} (h : s.quietOn base n) :
    s.races.any (fun r => inRegion base n r.address) = false := by simpa using h

/-- With the source undisturbed, RefSum is that of the data space as it stands (R99, R111). -/
theorem refSum_quiet {s : State} {K : Kernel} {I : CallRegs} (h : s.quietOn I.srcBase.toNat K.srcBytes) {c : Nat}
    (hc : c < K.c) (dy dx : Nat) : K.refSum (s.source K I) dy dx c = K.refSum (plainSource s.mem K I) dy dx c :=
  refSum_congr fun k py px => source_quiet h hc k py px

/-- V0's plan writes RefOut (R111). -/
theorem directPlan_writesOut {s : State} {K : Kernel} {I : CallRegs} (h : s.quietOn I.srcBase.toNat K.srcBytes) :
    (directPlan s K I).writesOut K I (s.refOut K I) := by
  refine writesOut_of_getElem? rfl fun dy dx c i _ _ hdx hc hi hlt => ?_
  refine (congrArg (·[i]?) (keepShown_quiet (no_race_of_quietOn h) _ _)).trans ?_
  rw [outBytes_outIndex hi hlt hdx hc, State.outByte, refSum_quiet h hc, State.refOut]

/-- The plan of COMPUTE from the ring writes REQ of RingSum (R113). -/
theorem ringPlan_writesOut (s : State) (K : Kernel) (I : CallRegs) :
    (ringPlan s K I).writesOut K I (s.outByte K I (K.ringSum s.params.w s.ring)) :=
  writesOut_of_getElem? rfl fun _ _ _ _ _ _ hdx hc hi hlt => outBytes_outIndex hi hlt hdx hc

/-! ### The ring of a RUN (R103, R120, R121) -/

/-- BUFH holds the window of one output row (R92). -/
theorem extY_le_bufH {p : Params} {K : Kernel} (hK : K.wf p) (hv : K.var ≠ .v0) : K.extY ≤ K.bufH := by
  obtain ⟨⟨-, -, -, -, hbuf, -⟩, -⟩ := hK
  cases hvar : K.var with
  | v0 => exact absurd hvar hv
  | v1 =>
    have := le_nextPow2 (K.extY + K.sy)
    simp only [hbuf, hvar, bufHOf]
    omega
  | v2 =>
    have := le_nextPow2 (K.extY + 2 * K.sy)
    simp only [hbuf, hvar, bufHOf]
    omega

/-- Two padded rows closer than BUFH have different slots (R49). -/
theorem slotOf_ne {p : Params} {K : Kernel} (hK : K.wf p) (hv : K.var ≠ .v0) {a b : Nat} (hab : a < b)
    (hclose : b < a + K.bufH) : K.slotOf b ≠ K.slotOf a := fun h => by
  have := slotOf_inj (bufHLog2_spec hK hv).1.symm h.symm hab
  omega

/-- CPAD is the channel count rounded up to whole groups (R92). -/
theorem cpad_eq {p : Params} {K : Kernel} (hK : K.wf p) : K.cpad = cpadOf p.w K.c := by
  obtain ⟨⟨-, -, -, h, -⟩, -⟩ := hK
  exact h

/-- A filled row that no later fill has replaced is held as the data space gives it (R104 to R106). -/
theorem filledTo_holdsRow {s : State} {K : Kernel} {I : CallRegs} {ring : List Slot} {lo hi py : Nat}
    (hp : s.params.legal = true) (hK : K.wf s.params) (hv : K.var ≠ .v0) (hl : ring.length = K.bufH)
    (hq : s.quietOn I.srcBase.toNat K.srcBytes) (hlo : lo ≤ py) (hhi : py < hi)
    (largest : ∀ b, py < b → b < hi → K.slotOf b ≠ K.slotOf py) :
    holdsRow s.params.w s.mem K I (s.filledTo K I ring lo hi) py := by
  have hend : lo + (hi - lo) = hi := by omega
  exact holdsRow_of_filled (params_w_pos hp) (cpad_eq hK) hq
    ((fillRows_range (bufH_pos hK hv) hl).1 py hlo (by omega) fun b h1 h2 => largest b h1 (by omega))

theorem filledTo_self (s : State) (K : Kernel) (I : CallRegs) (ring : List Slot) (lo : Nat) :
    s.filledTo K I ring lo lo = ring := by simp [State.filledTo, Kernel.fillRows]

/-- RUN's outputs are REQ of RingSum over the ring filled up to the end of their own window (R120). -/
theorem fusedPlan_values {s : State} {K : Kernel} {I : CallRegs} (hq : s.quietOn I.srcBase.toNat K.srcBytes)
    {dy dx c i : Nat} (hb : I.dyBeg ≤ dy) (he : dy < I.dyEnd) (hdx : dx < K.dstW) (hc : c < K.c)
    (hi : K.outIndex dy dx c = K.rowsFirst I.dyBeg + i) :
    (fusedPlan s K I).values[i]? = some (s.outByte K I (K.ringSum s.params.w
      (s.filledTo K I (invalidateTags s.ring) (K.byBeg I.dyBeg) (dy * K.sy + K.extY))) dy dx c) := by
  obtain ⟨j, rfl⟩ := Nat.exists_eq_add_of_le hb
  obtain ⟨-, -, outputs⟩ := runRows_spec s K I (invalidateTags s.ring) (K.byBeg I.dyBeg) (I.dyEnd - I.dyBeg) I.dyBeg
    (K.byBeg I.dyBeg) (Nat.le_refl _) (Nat.le_add_right _ _)
  rw [filledTo_self] at outputs
  have place : i = j * (K.dstW * K.c) + (dx * K.c + c) := by
    have : K.outIndex (I.dyBeg + j) dx c = K.rowsFirst I.dyBeg + (j * (K.dstW * K.c) + (dx * K.c + c)) := by
      simp only [Kernel.outIndex, Kernel.rowsFirst]
      ring
    omega
  have column : K.outIndex (I.dyBeg + j) dx c = K.rowsFirst (I.dyBeg + j) + (dx * K.c + c) := by
    simp only [Kernel.outIndex, Kernel.rowsFirst]
    ring
  refine (congrArg (·[i]?) (keepShown_quiet (no_race_of_quietOn hq) _ _)).trans ?_
  rw [place, outputs j _ (by omega) (radix_lt hc hdx), outBytes_outIndex column (radix_lt hc hdx) hdx hc]

/-- RUN's plan writes RefOut: when an output row is computed, the ring holds every row of its window (R114, R120). -/
theorem fusedPlan_writesOut {s : State} {K : Kernel} {I : CallRegs} (hp : s.params.legal = true) (hK : K.wf s.params)
    (hl : s.ring.length = K.bufH) (hv : K.var ≠ .v0) (hq : s.quietOn I.srcBase.toNat K.srcBytes) :
    (fusedPlan s K I).writesOut K I (s.refOut K I) := by
  refine writesOut_of_getElem? rfl fun dy dx c i hb he hdx hc hi _ => ?_
  have hbuf := extY_le_bufH hK hv
  have start : I.dyBeg * K.sy ≤ dy * K.sy := Nat.mul_le_mul_right K.sy hb
  have window : ∀ py, dy * K.sy ≤ py → py < dy * K.sy + K.extY → holdsRow s.params.w s.mem K I
      (s.filledTo K I (invalidateTags s.ring) (K.byBeg I.dyBeg) (dy * K.sy + K.extY)) py := fun py hlo hhi =>
    filledTo_holdsRow hp hK hv (by simpa using hl) hq (start.trans hlo) hhi fun b h1 h2 =>
      slotOf_ne hK hv h1 (by omega)
  rw [fusedPlan_values hq hb he hdx hc hi, State.outByte,
    ringSumEqualsRefSum s.params K I s.mem _ dy dx c hK hv hdx hc window, State.refOut]

/-- The ring RUN leaves is filled up to the end of the window (R121). -/
theorem fusedPlan_ring {s : State} {K : Kernel} {I : CallRegs} (hr : I.dyBeg < I.dyEnd) :
    (fusedPlan s K I).ring
      = s.filledTo K I (invalidateTags s.ring) (K.byBeg I.dyBeg) ((I.dyEnd - 1) * K.sy + K.extY) := by
  have filled := (runRows_spec s K I (invalidateTags s.ring) (K.byBeg I.dyBeg) (I.dyEnd - I.dyBeg) I.dyBeg
    (K.byBeg I.dyBeg) (Nat.le_refl _) (Nat.le_add_right _ _)).1
  rw [filledTo_self, if_neg (by omega), show I.dyBeg + (I.dyEnd - I.dyBeg) = I.dyEnd by omega] at filled
  exact filled

/-- A slot that no filled row maps to is left as it was (R104). -/
theorem tagAt_filledTo_unmapped {s : State} {K : Kernel} {I : CallRegs} {ring : List Slot} {lo hi i : Nat}
    (h0 : 0 < K.bufH) (hl : ring.length = K.bufH) (h : ∀ py, lo ≤ py → py < hi → K.slotOf py ≠ i) :
    tagAt (s.filledTo K I ring lo hi) i = tagAt ring i :=
  congrArg (·.bind Slot.tag) ((fillRows_range h0 hl).2 i fun py h1 h2 => h py h1 (by omega))

/-! ### Carrying out a plan (R112, R119, R120) -/

/-- The engine's stores leave each byte of the plan, as `f` settles it. -/
theorem storedBytes_byteAt {s : State} {P : Plan} {a : Nat} {u : Byte} (hm : s.mem.wf = true) (f : Nat → Byte → Byte)
    (h : P.byteAt a = some u) : (s.storedBytes f P.first P.values).read a = f a u := by
  obtain ⟨i, rfl, hi⟩ := byteAt_eq_some.mp h
  obtain ⟨hlt, rfl⟩ := List.getElem?_eq_some_iff.mp hi
  exact Memory.read_mapIdx_inside hm f hlt

/-- The destination bytes of legal rows lie in the destination region (R61). -/
theorem dstAddr_inRegion {K : Kernel} {I : CallRegs} {dy dx c : Nat} (he : I.dyEnd ≤ K.dstH) (hdy : dy < I.dyEnd)
    (hdx : dx < K.dstW) (hc : c < K.c) : inRegion I.dstBase.toNat K.dstBytes (I.dstAddr K dy dx c) = true := by
  have place : (dy * K.dstW + dx) * K.c + c < K.dstBytes := radix_lt hc (radix_lt hdx (hdy.trans_le he))
  simp [inRegion, CallRegs.dstAddr, place]

/-- A plan within the rows of K changes none but their destination bytes. -/
theorem finishPlan_keeps_outside {s t : State} {K : Kernel} {P : Plan} (hK : s.kernel = some K) (hm : s.mem.wf = true)
    (hP : P.withinRows s) (h : finishPlan s P = .next t) (a : Nat) (ha : ¬ s.invocation.writesTo K a) :
    t.mem.read a = s.mem.read a := by
  refine finishPlan_read_outside_rows hm hP h fun K' hK' => ?_
  cases hK.symm.trans hK'
  exact ha

/-- A plan whose accesses are answered, with the destination undisturbed, completes and leaves its bytes; no other byte
changes. -/
theorem finishPlan_writes {s : State} {K : Kernel} {P : Plan} {out : Nat → Nat → Nat → Byte} (hK : s.kernel = some K)
    (hm : s.mem.wf = true) (he : s.invocation.dyEnd ≤ K.dstH)
    (hq : s.quietOn s.invocation.dstBase.toNat K.dstBytes) (hport : ∀ f ∈ s.port, P.hits f = [])
    (hrows : P.withinRows s) (hout : P.writesOut K s.invocation out) :
    ∃ t, finishPlan s P = .next t ∧ s.succeedsTo t
      ∧ (∀ dy dx c, s.invocation.dyBeg ≤ dy → dy < s.invocation.dyEnd → dx < K.dstW → c < K.c →
          t.mem.read (s.invocation.dstAddr K dy dx c) = out dy dx c)
      ∧ (∀ a, ¬ s.invocation.writesTo K a → t.mem.read a = s.mem.read a)
      ∧ t.kernel = s.kernel ∧ t.ring = P.ring ∧ t.rctx = P.rctx := by
  have run := finishPlan_completes (portAnswer_data hport)
  refine ⟨_, run, complete_worked s _ _ _ _ _, fun dy dx c hb hdy hdx hc => ?inside,
    finishPlan_keeps_outside hK hm hrows run, rfl, rfl, rfl⟩
  have quiet : ∀ r ∈ s.races, r.address ≠ s.invocation.dstAddr K dy dx c := fun r hr e => by
    have outside := hq r hr
    rw [e, dstAddr_inRegion he hdy hdx hc] at outside
    cases outside
  exact (storedBytes_byteAt hm s.settled (hout dy dx c hb hdy hdx hc)).trans (settled_quiet quiet _)

/-- Settles O21: both commands carry out `directPlan`, which writes RefOut. -/
theorem directConvolutionWritesTheReference : Obligations.DirectConvolutionWritesTheReference := by
  rintro s K I i hi hK rfl - hm hv hl hr ⟨hsq, hsa⟩ ⟨hdq, hda⟩
  have hrange := convLegal_range hl
  have answered : ∀ f ∈ s.port, (directPlan s K s.invocation).hits f = [] := fun f hf =>
    List.append_eq_nil_iff.mpr
      ⟨sourceHits_answered hsa _ _ hf, writeHits_answered hda hrange.1 hrange.2 hf⟩
  rw [exec_conv_direct hi hK hl hr hv]
  exact finishPlan_writes hK hm hrange.2 hdq answered (directPlan_withinRows hK) (directPlan_writesOut hsq)

/-- Settles O22: COMPUTE carries out `ringPlan`, which reads nothing of the data space. -/
theorem computeFromTheRing : Obligations.ComputeFromTheRing := by
  rintro s K I hK rfl - hm hv hl hr ⟨hdq, hda⟩ hx hrows
  have hrange := convLegal_range hl
  rw [exec_compute_ring hK hl hr hv ⟨hx, hrows⟩]
  exact finishPlan_writes hK hm hrange.2 hdq (fun f hf => writeHits_answered hda hrange.1 hrange.2 hf)
    (ringPlan_withinRows hK) (ringPlan_writesOut s K s.invocation)

/-- Settles O23: RUN carries out `fusedPlan`, whose ring holds each output row's window when the row is computed, and
the window's end when it is done. -/
theorem runThroughTheRingWritesTheReference : Obligations.RunThroughTheRingWritesTheReference := by
  rintro s K I hK rfl hp hwf hm hlen hv hl hr ⟨hsq, hsa⟩ ⟨hdq, hda⟩
  have hrange := convLegal_range hl
  have hempty : (invalidateTags s.ring).length = K.bufH := (invalidateTags_length s.ring).trans hlen
  have answered : ∀ f ∈ s.port, (fusedPlan s K s.invocation).hits f = [] := fun f hf =>
    List.append_eq_nil_iff.mpr
      ⟨sourceHits_answered hsa _ _ hf, writeHits_answered hda hrange.1 hrange.2 hf⟩
  obtain ⟨t, run, succeeds, inside, outside, kernel, ring, rctx⟩ := finishPlan_writes hK hm hrange.2 hdq answered
    (fusedPlan_withinRows hK) (fusedPlan_writesOut hp hwf hlen hv hsq)
  rw [fusedPlan_ring hr] at ring
  refine ⟨t, (exec_run_fused hK hl hr hv).trans run, succeeds, inside, outside, rctx, ?length, ?rows, ?others, kernel⟩
  case length => rw [ring, fillRows_length, hempty]
  case rows =>
    intro py hlo hhi largest
    rw [ring]
    exact filledTo_holdsRow hp hwf hv hempty hsq hlo hhi largest
  case others =>
    intro i unmapped
    rw [ring, tagAt_filledTo_unmapped (bufH_pos hwf hv) hempty unmapped, tagAt_invalidateTags]

end Sys2Proof.Machine
end

section
/-!
PROOFS. Bus errors in PREPROCESS, COMPUTE and RUN (20_memory.md R66, 42_convolution.md R122, 60_exceptions.md R150): the
accesses each command surely makes and may make, and what a command that is cut short leaves.
-/
namespace Sys2Proof.Machine

/-! ### The source bytes an output depends on (R60, R67, R111) -/

/-- A source byte an output depends on stands in the source region, where a tap of that output reads it. -/
theorem dependsOn_tap {I : CallRegs} {K : Kernel} {a : Nat} (h : I.dependsOn K a) :
    inRegion I.srcBase.toNat K.srcBytes a = true
      ∧ ∃ dy dx ky kx, (I.dyBeg ≤ dy ∧ dy < I.dyEnd) ∧ dx < K.dstW ∧ ky < K.ky ∧ kx < K.kx
        ∧ K.paddedCoord I.srcBase.toNat a = (dy * K.sy + ky * K.dily, dx * K.sx + kx * K.dilx) := by
  obtain ⟨dy, dx, ky, kx, sy, sx, c, hb, he, hdx, hky, hkx, hsy, hsx, hc, hrow, hcol, rfl⟩ := h
  refine ⟨?_, dy, dx, ky, kx, ⟨hb, he⟩, hdx, hky, hkx, ?_⟩
  · have := srcElement_in (K := K) hsy hsx hc
    simp [inRegion, Nat.add_assoc, this]
  · have offset : I.srcBase.toNat + (sy * K.srcW + sx) * K.c + c - I.srcBase.toNat
        = sy * (K.srcW * K.c) + (sx * K.c + c) := by
      rw [Nat.add_assoc, Nat.add_sub_cancel_left]
      ring
    have inRow : sx * K.c + c < K.srcW * K.c := radix_lt hc hsx
    rw [Kernel.paddedCoord, offset, radix_div inRow, radix_mod inRow, radix_div hc, hrow, hcol]

/-- A tap's padded row is one that its output row reads. -/
theorem rowUsed_tap {K : Kernel} {b e dy ky : Nat} (hb : b ≤ dy) (he : dy < e) (hky : ky < K.ky) :
    K.rowUsed b e (dy * K.sy + ky * K.dily) = true := by
  simp only [Kernel.rowUsed, List.any_eq_true, List.mem_range'_1, List.mem_range, beq_iff_eq]
  exact ⟨dy, ⟨hb, by omega⟩, ky, hky, rfl⟩

/-- A tap's padded column is one that its output column reads. -/
theorem colUsed_tap {K : Kernel} {dx kx : Nat} (hdx : dx < K.dstW) (hkx : kx < K.kx) :
    K.colUsed (dx * K.sx + kx * K.dilx) = true := by
  simp only [Kernel.colUsed, List.any_eq_true, List.mem_range, beq_iff_eq]
  exact ⟨dx, hdx, kx, hkx, rfl⟩

/-- A tap's padded row is one that a fill of the window reads (R100). -/
theorem rowFilled_tap {p : Params} {K : Kernel} (hK : K.wf p) {b e dy ky : Nat} (hb : b ≤ dy) (he : dy < e)
    (hky : ky < K.ky) : K.rowFilled b e (dy * K.sy + ky * K.dily) = true := by
  have first := Nat.mul_le_mul_right K.sy hb
  have last := Nat.mul_le_mul_right K.sy (show dy ≤ e - 1 by omega)
  have inside : dy * K.sy + ky * K.dily ∈ K.window b e :=
    (mem_window (by omega)).mpr ⟨by omega, (tapRow_lt hK dy hky).trans_le (by omega)⟩
  simp [Kernel.rowFilled, inside]

/-- A read of a source byte that is surely made. -/
theorem sourceHits_ne_nil {draw : Nat} {K : Kernel} {I : CallRegs} {sure : Nat → Nat → Bool} {f : PortFault}
    (hw : f.isWrite = false) (hin : inRegion I.srcBase.toNat K.srcBytes f.address = true)
    (hs : sure (K.paddedCoord I.srcBase.toNat f.address).1 (K.paddedCoord I.srcBase.toNat f.address).2 = true) :
    sourceHits draw K I sure f ≠ [] := by
  simp [sourceHits, hw, hin, hs]

/-- V0 reads every source byte its outputs depend on. -/
theorem directHits_ne_nil {K : Kernel} {I : CallRegs} {f : PortFault} (hw : f.isWrite = false)
    (hf : I.dependsOn K f.address) (draw : Nat) : directHits draw K I I.dyBeg I.dyEnd f ≠ [] := by
  obtain ⟨inside, dy, dx, ky, kx, ⟨hb, he⟩, hdx, hky, hkx, coord⟩ := dependsOn_tap hf
  refine sourceHits_ne_nil hw inside ?_
  simp only [coord, rowUsed_tap hb he hky, colUsed_tap hdx hkx, Bool.and_self]

/-- A fill reads every source byte the outputs of its rows depend on. -/
theorem fillHits_ne_nil {p : Params} {K : Kernel} {I : CallRegs} {f : PortFault} (hK : K.wf p)
    (hend : I.dyEnd ≤ K.dstH) (hw : f.isWrite = false) (hf : I.dependsOn K f.address) (draw : Nat) :
    fillHits draw K I I.dyBeg I.dyEnd f ≠ [] := by
  obtain ⟨inside, dy, dx, ky, kx, ⟨hb, he⟩, hdx, hky, hkx, coord⟩ := dependsOn_tap hf
  refine sourceHits_ne_nil hw inside ?_
  simp only [coord, rowFilled_tap hK hb he hky, rowUsed_tap (Nat.zero_le dy) (he.trans_le hend) hky,
    colUsed_tap hdx hkx, Bool.and_self]

/-- The destination bytes of the rows of an invocation, as a region (R66). -/
theorem inRegion_rows_iff {K : Kernel} {I : CallRegs} (h : I.dyBeg ≤ I.dyEnd) {a : Nat} :
    inRegion (I.dstBase.toNat + K.rowsFirst I.dyBeg) (K.rowsCount I.dyBeg I.dyEnd) a = true ↔ I.writesTo K a := by
  rw [inRegion, Nat.add_assoc, rowsFirst_add_rowsCount K h, Bool.and_eq_true, decide_eq_true_eq, decide_eq_true_eq]

/-! ### The accesses of a command (R66, R67) -/

/-- `hits` makes every access that command `i` surely makes, and none but those it may make, each by the byte's own
address. -/
def State.hitsOf (s : State) (i : Instr) (K : Kernel) (hits : PortFault → List Nat) : Prop :=
  (∀ f, s.surelyAccesses i f → hits f ≠ []) ∧ ∀ f, ∀ a ∈ hits f, a = f.address ∧ s.mayAccess i K f

/-- A source read is one the command may make, unless it computes from the ring. -/
theorem mayAccess_of_sourceHits {s : State} {i : Instr} {K : Kernel} (hi : ¬ (i = .compute ∧ K.var ≠ .v0)) {draw : Nat}
    {sure : Nat → Nat → Bool} {f : PortFault} {a : Nat} (h : a ∈ sourceHits draw K s.invocation sure f) :
    a = f.address ∧ s.mayAccess i K f := by
  obtain ⟨rfl, read, inside⟩ := sourceHits_mem h
  exact ⟨rfl, .inr ⟨read, hi, inside⟩⟩

/-- A destination write is one that COMPUTE and RUN may make. -/
theorem mayAccess_of_writeHits {s : State} {i : Instr} {K : Kernel} (hi : i ≠ .preprocess)
    (hr : s.invocation.dyBeg ≤ s.invocation.dyEnd) {f : PortFault} {a : Nat}
    (h : a ∈ writeHits K s.invocation s.invocation.dyBeg s.invocation.dyEnd f) :
    a = f.address ∧ s.mayAccess i K f := by
  obtain ⟨rfl, write, inside⟩ := writeHits_mem h
  exact ⟨rfl, .inl ⟨write, hi, (inRegion_rows_iff hr).mp inside⟩⟩

/-- COMPUTE and RUN write every destination byte of the rows. -/
theorem writeHits_ne_nil {K : Kernel} {I : CallRegs} {f : PortFault} (hr : I.dyBeg ≤ I.dyEnd) (hw : f.isWrite = true)
    (hf : I.writesTo K f.address) : writeHits K I I.dyBeg I.dyEnd f ≠ [] := by
  simp [writeHits, hw, (inRegion_rows_iff hr).mpr hf]

theorem fillHits_hitsOf {s : State} {K : Kernel} (hK : s.kernel = some K) (hwf : K.wf s.params)
    (hend : s.invocation.dyEnd ≤ K.dstH) :
    s.hitsOf .preprocess K (fillHits s.draws K s.invocation s.invocation.dyBeg s.invocation.dyEnd) := by
  constructor
  · rintro f ⟨K', hK', hw, hf⟩
    cases hK.symm.trans hK'
    exact fillHits_ne_nil hwf hend hw hf _
  · exact fun f a ha => mayAccess_of_sourceHits (by simp) ha

theorem directPlan_hitsOf {s : State} {K : Kernel} {i : Instr} (hi : i = .compute ∨ i = .run) (hK : s.kernel = some K)
    (hv : K.var = .v0) (hr : s.invocation.dyBeg ≤ s.invocation.dyEnd) :
    s.hitsOf i K (directPlan s K s.invocation).hits := by
  constructor
  · intro f hf
    have access : (f.isWrite = true ∧ s.invocation.writesTo K f.address)
        ∨ (f.isWrite = false ∧ s.invocation.dependsOn K f.address) := by
      rcases hi with rfl | rfl <;> obtain ⟨K', hK', hf⟩ := hf <;> cases hK.symm.trans hK'
      · exact hf.imp_right fun ⟨hw, _, hd⟩ => ⟨hw, hd⟩
      · exact hf
    rcases access with ⟨hw, hf⟩ | ⟨hw, hf⟩
    · exact List.append_ne_nil_of_right_ne_nil _ (writeHits_ne_nil hr hw hf)
    · exact List.append_ne_nil_of_left_ne_nil (directHits_ne_nil hw hf _) _
  · intro f a ha
    rcases List.mem_append.mp ha with ha | ha
    · exact mayAccess_of_sourceHits (fun h => h.2 hv) ha
    · exact mayAccess_of_writeHits (by rcases hi with rfl | rfl <;> decide) hr ha

theorem ringPlan_hitsOf {s : State} {K : Kernel} (hK : s.kernel = some K) (hv : K.var ≠ .v0)
    (hr : s.invocation.dyBeg ≤ s.invocation.dyEnd) : s.hitsOf .compute K (ringPlan s K s.invocation).hits := by
  constructor
  · rintro f ⟨K', hK', hf⟩
    cases hK.symm.trans hK'
    rcases hf with ⟨hw, hf⟩ | ⟨-, hv', -⟩
    · exact writeHits_ne_nil hr hw hf
    · exact absurd hv' hv
  · exact fun f a ha => mayAccess_of_writeHits (by decide) hr ha

theorem fusedPlan_hitsOf {s : State} {K : Kernel} (hK : s.kernel = some K) (hwf : K.wf s.params)
    (hr : s.invocation.dyBeg ≤ s.invocation.dyEnd) (hend : s.invocation.dyEnd ≤ K.dstH) :
    s.hitsOf .run K (fusedPlan s K s.invocation).hits := by
  constructor
  · rintro f ⟨K', hK', hf⟩
    cases hK.symm.trans hK'
    rcases hf with ⟨hw, hf⟩ | ⟨hw, hf⟩
    · exact List.append_ne_nil_of_right_ne_nil _ (writeHits_ne_nil hr hw hf)
    · exact List.append_ne_nil_of_left_ne_nil (fillHits_ne_nil hwf hend hw hf _) _
  · intro f a ha
    rcases List.mem_append.mp ha with ha | ha
    · exact mayAccess_of_sourceHits (by simp) ha
    · exact mayAccess_of_writeHits (by decide) hr ha

/-- An access that is surely made and gets a bus error, with none left unanswered, makes the port's answer a bus error
at an access the command may make (R150). -/
theorem portAnswer_busError {s : State} {i : Instr} {K : Kernel} {hits : PortFault → List Nat} (h : s.hitsOf i K hits)
    (hs : ∀ g ∈ s.port, g.silent = false) {f : PortFault} (hf : f ∈ s.port) (hsure : s.surelyAccesses i f) :
    ∃ g ∈ s.port, s.mayAccess i K g ∧ s.portAnswer hits = .error g.address := by
  obtain ⟨sure, may⟩ := h
  obtain ⟨a, answer⟩ := portAnswer_fails hs hf (sure f hsure)
  obtain ⟨g, hg, -, ha⟩ := portAnswer_error answer
  obtain ⟨rfl, access⟩ := may g a ha
  exact ⟨g, hg, access, answer⟩

/-! ### A command that is cut short (R122, R148) -/

/-- PREPROCESS whose checks pass and one of whose reads gets a bus error (R101, R150). -/
theorem execPreprocess_busError {s : State} {K : Kernel} {a : Nat} (hK : s.kernel = some K)
    (h : firstError (preprocessChecks s.params K s.invocation) = none)
    (hrange : s.invocation.dyBeg ≠ s.invocation.dyEnd) (hvar : K.var ≠ .v0)
    (hp : s.portAnswer (fillHits s.draws K s.invocation s.invocation.dyBeg s.invocation.dyEnd) = .error a) :
    execPreprocess s = .next (raiseError .bus (BitVec.ofNat 32 a) (enterContext s s.invocation)) := by
  simp [execPreprocess, hK, h, hrange, hvar, hp]

/-- A plan whose accesses get a bus error (R122). -/
theorem finishPlan_busError {s : State} {P : Plan} {a : Nat} (h : s.portAnswer P.hits = .error a) :
    finishPlan s P = .next (raiseError .bus (BitVec.ofNat 32 a)
      (s.worked s.kernel s.ring s.rctx (s.accAfter P) (s.partialMem P))) := by
  simp [finishPlan, h]

/-- A byte of a command that was cut short is as before or the new one. -/
theorem maybeLanded_cases (s : State) (a : Nat) (v : Byte) :
    s.maybeLanded a v = s.mem.read a ∨ s.maybeLanded a v = v := by
  unfold State.maybeLanded
  split
  · exact .inr rfl
  · exact .inl rfl

/-- COMPUTE from the ring writes REQ of RingSum. -/
theorem newByte_ring {s : State} {K : Kernel} (I : CallRegs) (hv : K.var ≠ .v0) :
    s.newByte .compute K I = s.outByte K I (K.ringSum s.params.w s.ring) := by
  funext dy dx c
  exact if_pos ⟨rfl, hv⟩

/-- Every other COMPUTE and RUN writes RefOut. -/
theorem newByte_ref {s : State} {i : Instr} {K : Kernel} (I : CallRegs) (h : ¬ (i = .compute ∧ K.var ≠ .v0)) :
    s.newByte i K I = s.refOut K I := by
  funext dy dx c
  exact if_neg h

/-- What a COMPUTE or RUN that is ready carries out: a plan with the accesses of the command, which writes its new bytes
within its rows. -/
theorem ready_plan {s : State} {i : Instr} (hi : i = .compute ∨ i = .run) (h : s.ready i)
    (hp : s.params.legal = true) (hlen : ∀ K, s.kernel = some K → s.ring.length = K.bufH) (hraces : s.races = []) :
    ∃ K P, s.kernel = some K ∧ exec i s = finishPlan s P ∧ s.hitsOf i K P.hits ∧ P.withinRows s
      ∧ P.writesOut K s.invocation (s.newByte i K s.invocation) := by
  have quiet (base n : Nat) : s.quietOn base n := by simp [State.quietOn, hraces]
  obtain ⟨K, hK, hwf, hl, hr, hres⟩ : ∃ K, s.kernel = some K ∧ K.wf s.params ∧ s.invocation.convLegal s.params K
      ∧ s.invocation.dyBeg < s.invocation.dyEnd
      ∧ (i = .compute → K.var ≠ .v0 → s.windowResident K s.invocation) := by
    rcases hi with rfl | rfl <;> obtain ⟨K, hK, hwf, hl, hr⟩ := h
    · exact ⟨K, hK, hwf, hl, hr.1, fun _ => hr.2⟩
    · exact ⟨K, hK, hwf, hl, hr, nofun⟩
  have hend := (convLegal_range hl).2
  by_cases hv : K.var = .v0
  · refine ⟨K, _, hK, exec_conv_direct hi hK hl hr hv, directPlan_hitsOf hi hK hv hr.le, directPlan_withinRows hK, ?_⟩
    rw [newByte_ref _ fun h => h.2 hv]
    exact directPlan_writesOut (quiet _ _)
  · rcases hi with rfl | rfl
    · refine ⟨K, _, hK, exec_compute_ring hK hl hr hv (hres rfl hv), ringPlan_hitsOf hK hv hr.le,
        ringPlan_withinRows hK, ?_⟩
      rw [newByte_ring _ hv]
      exact ringPlan_writesOut s K s.invocation
    · refine ⟨K, _, hK, exec_run_fused hK hl hr hv, fusedPlan_hitsOf hK hwf hr.le hend, fusedPlan_withinRows hK, ?_⟩
      rw [newByte_ref _ (by simp)]
      exact fusedPlan_writesOut hp hwf (hlen K hK) hv (quiet _ _)

/-- Settles O28: the port's answer is a bus error at an access the command may make, and each byte of the plan has
landed or not. -/
theorem busErrorLeavesOldOrNewBytes : Obligations.BusErrorLeavesOldOrNewBytes := by
  intro s i f hi hready hp hlen hm hraces hs hf hsure
  obtain rfl | hi := hi
  · obtain ⟨K, hK, hwf, hl, hr, hv⟩ := hready
    have ⟨_, ⟨_, hend⟩, _⟩ := hl
    obtain ⟨g, hg, access, answer⟩ := portAnswer_busError (fillHits_hitsOf hK hwf hend) hs hf hsure
    have run := execPreprocess_busError hK (firstError_preprocessChecks_legal hl) hr.ne hv answer
    exact ⟨_, K, g, hK, run, hg, access, raiseError_worked s s.kernel _ _ s.acc s.mem _ _, rfl, fun _ => rfl,
      fun _ _ _ _ _ _ _ => .inl rfl, fun _ _ => rfl⟩
  · obtain ⟨K, P, hK, run, hits, rows, out⟩ := ready_plan hi hready hp hlen hraces
    obtain ⟨g, hg, access, answer⟩ := portAnswer_busError hits hs hf hsure
    have ends := finishPlan_busError answer
    refine ⟨_, K, g, hK, run.trans ends, hg, access, raiseError_worked s _ _ _ _ _ _ _, rfl,
      fun h => by simp [h] at hi, fun dy dx c hb he hdx hc => ?inside, finishPlan_keeps_outside hK hm rows ends⟩
    have landed := maybeLanded_cases s (s.invocation.dstAddr K dy dx c) (s.newByte i K s.invocation dy dx c)
    rwa [← storedBytes_byteAt hm s.maybeLanded (out dy dx c hb he hdx hc)] at landed

end Sys2Proof.Machine
end

section
/-!
PROOFS. The schedules (42_convolution.md R125 to R127, 43_datapath.md R136): each cuts the rows' pixels and the channel
groups into pieces, and the pieces make up the whole.
-/
namespace Sys2Proof.Machine

/-! ### Cuts of a range -/

/-- Runs of k, one after the other. -/
theorem flatten_runs (k lo q : Nat) :
    ((List.range q).map fun i => List.range' (lo + k * i) k).flatten = List.range' lo (k * q) := by
  induction q with
  | zero => rfl
  | succ q ih =>
    rw [List.range_succ, List.map_append, List.flatten_append, ih, List.map_singleton, List.flatten_singleton,
      List.range'_append_1, Nat.mul_succ]

theorem flatten_map_singleton {α : Type} (l : List α) : (l.map fun a => [a]).flatten = l := by
  rw [← List.flatMap_def, List.flatMap_singleton']

theorem flatten_blocks (k lo n : Nat) : (blocks k lo n).flatten = List.range' lo n := by
  have total : k * (n / k) + n % k = n := Nat.div_add_mod n k
  unfold blocks
  rw [List.flatten_append, flatten_runs]
  split
  · rename_i h
    rw [List.flatten_nil, List.append_nil]
    congr 1
    omega
  · rw [List.flatten_singleton, List.range'_append_1, total]

/-- The batches of 4, then 2, then 1 are all the groups (R125). -/
theorem flatten_groupBatches (n : Nat) : (groupBatches n).flatten = List.range n := by
  have append (m k : Nat) : List.range m ++ List.range' m k = List.range (m + k) := by
    simpa [List.range_eq_range'] using List.range'_append_1 (s := 0) (m := m) (n := k)
  have fours := flatten_runs 4 0 (n / 4)
  simp only [Nat.zero_add, ← List.range_eq_range'] at fours
  have two : (if n % 4 < 2 then [] else [List.range' (4 * (n / 4)) 2]).flatten
      = List.range' (4 * (n / 4)) (2 * (n % 4 / 2)) := by
    split
    · rw [show n % 4 / 2 = 0 by omega]
      rfl
    · rw [show n % 4 / 2 = 1 by omega]
      rfl
  have one : (if n % 2 = 0 then [] else [[n - 1]]).flatten
      = List.range' (4 * (n / 4) + 2 * (n % 4 / 2)) (n % 2) := by
    split
    · rw [show n % 2 = 0 by omega]
      rfl
    · rw [show n % 2 = 1 by omega, show 4 * (n / 4) + 2 * (n % 4 / 2) = n - 1 by omega]
      rfl
  unfold groupBatches
  rw [List.flatten_append, List.flatten_append, fours, two, one, append, append]
  congr 1
  omega

theorem flatten_pairUp (l : List Nat) : (pairUp l).flatten = l := by
  induction l using pairUp.induct with
  | case1 a b rest ih => simp [pairUp, ih]
  | case2 a => rfl
  | case3 => rfl

/-- The fused rows of the 3×3 path are the rows (R126, R127). -/
theorem flatten_fusedRows (K : Kernel) (b e : Nat) : (K.fusedRows b e).flatten.Perm (List.range' b (e - b)) := by
  unfold Kernel.fusedRows
  split
  · split
    · rw [← flatten_blocks 4 b (e - b), ← List.flatMap_id, ← List.flatMap_id, List.flatMap_assoc]
      refine List.Perm.flatMap_left _ fun rows _ => ?_
      split
      · simpa using List.Perm.swap ..
      · simpa using List.Perm.swap ..
      · simp [flatten_map_singleton]
    · rw [flatten_blocks]
  · rw [flatten_map_singleton]

/-! ### Products of cuts -/

/-- A product taken piece by piece on the left. -/
theorem flatMap_product {α β γ : Type} (l : List α) (f : α → List β) (ys : List γ) :
    (l.flatMap fun a => (f a).product ys) = (l.flatMap f).product ys := List.flatMap_assoc.symm

/-- A product taken piece by piece on the right, in another order. -/
theorem flatMap_product_right {β γ : Type} (xs : List β) (L : List (List γ)) :
    (L.flatMap fun ys => xs.product ys).Perm (xs.product L.flatten) := by
  induction L with
  | nil => simp [List.product]
  | cons ys rest ih =>
    have split : (xs.product ys ++ xs.product rest.flatten).Perm (xs.product (ys ++ rest.flatten)) := by
      simpa [List.product] using List.flatMap_append_perm xs (fun x => ys.map (Prod.mk x))
        fun x => rest.flatten.map (Prod.mk x)
    exact (ih.append_left _).trans split

/-- The pixels of a grid, block by block. -/
theorem pixelsOf_blocks (R C : List (List Nat)) :
    (R.flatMap fun rows => C.flatMap fun cols => pixelsOf rows cols).Perm (pixelsOf R.flatten C.flatten) := by
  have rows : (R.flatMap fun rows => pixelsOf rows C.flatten) = pixelsOf R.flatten C.flatten :=
    (flatMap_product R id C.flatten).trans (congrArg (pixelsOf · C.flatten) List.flatMap_id)
  exact (List.Perm.flatMap_left _ fun rows _ => flatMap_product_right rows C).trans (.of_eq rows)

theorem pixelsOf_singleton (dy : Nat) (cols : List Nat) : pixelsOf [dy] cols = cols.map fun dx => (dy, dx) := by
  simp [pixelsOf]

/-! ### What a list of tiles covers -/

/-- The tiles compute every pixel of `ps` with every group of `gs`, exactly once. -/
def Covers (ts : List Tile) (ps : List (Nat × Nat)) (gs : List Nat) : Prop :=
  (ts.flatMap Tile.pairs).Perm (ps.product gs)

theorem Covers.perm {ts : List Tile} {ps ps' : List (Nat × Nat)} {gs : List Nat} (h : Covers ts ps gs)
    (hp : ps.Perm ps') : Covers ts ps' gs := List.Perm.trans h (hp.product_right gs)

theorem Covers.append {ts us : List Tile} {ps qs : List (Nat × Nat)} {gs : List Nat} (ht : Covers ts ps gs)
    (hu : Covers us qs gs) : Covers (ts ++ us) (ps ++ qs) gs := by
  have both := List.Perm.append ht hu
  rw [← List.flatMap_append] at both
  exact both.trans (.of_eq List.flatMap_append.symm)

/-- Tiles for piece after piece of the pixels. -/
theorem covers_flatMap {α : Type} {l : List α} {f : α → List Tile} {g : α → List (Nat × Nat)} {gs : List Nat}
    (h : ∀ a, Covers (f a) (g a) gs) : Covers (l.flatMap f) (l.flatMap g) gs := by
  unfold Covers
  rw [List.flatMap_assoc, ← flatMap_product]
  exact List.Perm.flatMap_left _ fun a _ => h a

/-- Tiles of the same pixels for piece after piece of the groups. -/
theorem covers_groups (ps : List (Nat × Nat)) (L : List (List Nat)) :
    Covers (L.map fun gs => ⟨ps, gs⟩) ps L.flatten := by
  unfold Covers
  rw [List.flatMap_map]
  exact flatMap_product_right ps L

/-- Tiles of the same pixels, a group at a time. -/
theorem covers_singleGroups (ps : List (Nat × Nat)) (gs : List Nat) : Covers (gs.map fun g => ⟨ps, [g]⟩) ps gs := by
  have each := covers_groups ps (gs.map fun g => [g])
  rwa [List.map_map, flatten_map_singleton] at each

/-- Tiles for block after block of a grid. -/
theorem covers_grid {R C : List (List Nat)} {f : List Nat → List Nat → List Tile} {gs : List Nat}
    (h : ∀ rows cols, Covers (f rows cols) (pixelsOf rows cols) gs) :
    Covers (R.flatMap fun rows => C.flatMap fun cols => f rows cols) (pixelsOf R.flatten C.flatten) gs :=
  Covers.perm (covers_flatMap fun rows => covers_flatMap fun cols => h rows cols) (pixelsOf_blocks R C)

/-! ### The schedules (R125 to R127) -/

theorem directTiles_covers (K : Kernel) (w dy dx : Nat) :
    Covers (directTiles K w dy dx) [(dy, dx)] (List.range (K.groupCount w)) :=
  flatten_groupBatches (K.groupCount w) ▸ covers_groups [(dy, dx)] _

/-- Any columns of a row on V0's generic path. -/
theorem directColumns_covers (K : Kernel) (w dy : Nat) (cols : List Nat) :
    Covers (cols.flatMap fun dx => directTiles K w dy dx) (pixelsOf [dy] cols) (List.range (K.groupCount w)) := by
  rw [pixelsOf_singleton, ← List.flatMap_pure_eq_map]
  exact covers_flatMap fun dx => directTiles_covers K w dy dx

/-- A row on V0's fast path: its edge pixels and its interior pixels are its pixels. -/
theorem directFastRow_covers (K : Kernel) (w dy : Nat) :
    Covers (directFastRow K w dy) (pixelsOf [dy] (List.range K.dstW)) (List.range (K.groupCount w)) := by
  have interior (cols : List Nat) : Covers
      ((pairUp cols).flatMap fun dxs => (List.range (K.groupCount w)).map fun g => ⟨dxs.map fun dx => (dy, dx), [g]⟩)
      (pixelsOf [dy] cols) (List.range (K.groupCount w)) := by
    have pairs := covers_flatMap (l := pairUp cols) fun dxs =>
      covers_singleGroups (dxs.map fun dx => (dy, dx)) (List.range (K.groupCount w))
    rwa [← List.map_flatMap, List.flatMap_id', flatten_pairUp, ← pixelsOf_singleton] at pairs
  refine ((directColumns_covers K w dy _).append (interior _)).perm ?_
  simp only [pixelsOf_singleton]
  rw [← List.map_append]
  exact (List.perm_append_comm.trans (List.filter_append_perm (fun dx => K.interior dy dx) _)).map _

theorem anyR0_covers (K : Kernel) (w accN b e : Nat) :
    Covers (anyR0 K w accN b e) (pixelsOf (List.range' b (e - b)) (List.range K.dstW))
      (List.range (K.groupCount w)) := by
  have tiles (rows cols : List Nat) := covers_groups (pixelsOf rows cols)
    (blocks (accN / (rows.length * cols.length)) 0 (K.groupCount w))
  simp only [flatten_blocks, ← List.range_eq_range'] at tiles
  have grid := covers_grid (R := blocks 2 b (e - b)) (C := blocks 2 0 K.dstW) tiles
  rwa [flatten_blocks, flatten_blocks, ← List.range_eq_range'] at grid

theorem anyR1_covers (K : Kernel) (w b e : Nat) :
    Covers (anyR1 K w b e) (pixelsOf (List.range' b (e - b)) (List.range K.dstW))
      (List.range (K.groupCount w)) := by
  have grid := covers_grid (R := (List.range' b (e - b)).map fun dy => [dy]) (C := blocks 4 0 K.dstW)
    fun rows cols => covers_singleGroups (pixelsOf rows cols) (List.range (K.groupCount w))
  rwa [List.flatMap_map, flatten_map_singleton, flatten_blocks, ← List.range_eq_range'] at grid

theorem fastR1_covers (K : Kernel) (w b e : Nat) :
    Covers (fastR1 K w b e) (pixelsOf (List.range' b (e - b)) (List.range K.dstW))
      (List.range (K.groupCount w)) := by
  have grid := covers_grid (R := K.fusedRows b e) (C := (List.range K.dstW).map fun dx => [dx])
    fun rows cols => covers_singleGroups (pixelsOf rows cols) (List.range (K.groupCount w))
  simp only [List.flatMap_map, flatten_map_singleton] at grid
  exact grid.perm ((flatten_fusedRows K b e).product_right _)

/-- V0's rows, each on its own. -/
theorem directRows_covers {K : Kernel} {w : Nat} {f : Nat → List Tile}
    (h : ∀ dy, Covers (f dy) (pixelsOf [dy] (List.range K.dstW)) (List.range (K.groupCount w))) (rows : List Nat) :
    Covers (rows.flatMap f) (pixelsOf rows (List.range K.dstW)) (List.range (K.groupCount w)) := by
  simp only [pixelsOf_singleton] at h
  exact covers_flatMap h

/-- Settles O34: every path cuts the rows into tiles that cover them. -/
theorem schedulesCoverEveryOutputOnce : Obligations.SchedulesCoverEveryOutputOnce := by
  intro p K b e _ _ _
  show Covers (K.schedule p b e) _ _
  unfold Kernel.schedule
  split
  · refine directRows_covers (fun dy => ?_) _
    split
    · exact directFastRow_covers K p.w dy
    · exact directColumns_covers K p.w dy _
  · exact anyR0_covers K p.w p.accN b e
  · split
    · exact fastR1_covers K p.w b e
    · exact anyR1_covers K p.w b e

end Sys2Proof.Machine
end

section
/-!
PROOFS. Products and sums in i32 (43_datapath.md R130, R132, R133, R138): each is the exact integer, taken modulo 2^32,
and the integer fits.
-/
namespace Sys2Proof.Machine

/-! ### Words as integers -/

/-- A word given by an integer that fits in i32 reads back as it. -/
theorem toInt_ofInt_of_natAbs_lt {n : Int} (h : n.natAbs < 2 ^ 31) : (BitVec.ofInt 32 n).toInt = n := by
  rw [BitVec.toInt_ofInt]
  exact Int.bmod_eq_of_le (by omega) (by omega)

/-- A sum of words is the sum of the integers they stand for. -/
theorem sum_ofInt {α : Type} (l : List α) (f : α → Int) :
    (l.map fun t => BitVec.ofInt 32 (f t)).sum = BitVec.ofInt 32 (l.map f).sum := by
  induction l with
  | nil => rfl
  | cons x xs ih => rw [List.map_cons, List.sum_cons, ih, ← BitVec.ofInt_add, List.map_cons, List.sum_cons]

/-- A sum of l integers of magnitude at most b is at most l * b. -/
theorem natAbs_sum_le {α : Type} {l : List α} {f : α → Int} {b : Nat} (h : ∀ t, (f t).natAbs ≤ b) :
    (l.map f).sum.natAbs ≤ l.length * b := by
  induction l with
  | nil => simp
  | cons x xs ih =>
    have here := h x
    rw [List.map_cons, List.sum_cons, List.length_cons, Nat.add_mul]
    omega

/-! ### One product (R130, R132, R133) -/

/-- A source byte times a weight: at most 255 * 128 (R133). -/
theorem natAbs_product_le (v w : Byte) : ((v.toNat : Int) * w.toInt).natAbs ≤ 32640 := by
  have source : v.toNat ≤ 255 := by omega
  have weight : w.toInt.natAbs ≤ 128 := by
    have := BitVec.le_toInt w
    have := BitVec.toInt_lt (x := w)
    omega
  rw [Int.natAbs_mul, Int.natAbs_natCast]
  exact Nat.mul_le_mul source weight

/-- The product of the widened operands is the exact product (R130, R132). -/
theorem widen_mul (v w : Byte) : widenSource v * widenWeight w = BitVec.ofInt 32 (v.toNat * w.toInt) := by
  have source : widenSource v = BitVec.ofInt 32 v.toNat := by
    rw [BitVec.ofInt_natCast, BitVec.ofNat_toNat, widenSource]
  rw [source, BitVec.ofInt_mul]
  rfl

/-- PMADD of a source pair and a weight pair is the sum of the two products (R133). -/
theorem pmadd_pair (hi lo wh wl : Byte) :
    pmadd (hi.setWidth 16 ++ lo.setWidth 16) (wh.signExtend 16 ++ wl.signExtend 16)
      = BitVec.ofInt 32 (hi.toNat * wh.toInt + lo.toNat * wl.toInt) := by
  unfold pmadd
  simp only [hiHalf_append, loHalf_append, signExtend_setWidth_source, signExtend_signExtend_weight]
  rw [widen_mul, widen_mul, ← BitVec.ofInt_add]

/-- Settles O30: `pmadd_pair` gives the sum modulo 2^32, and two products are too small to wrap. -/
theorem pmaddIsExact : Obligations.PmaddIsExact := by
  refine ⟨fun _ _ _ => rfl, natAbs_product_le, fun hi lo wh wl => ?_⟩
  have bound : ((hi.toNat : Int) * wh.toInt + lo.toNat * wl.toInt).natAbs ≤ 65280 := by
    have := natAbs_product_le hi wh
    have := natAbs_product_le lo wl
    omega
  exact ⟨by rw [pmadd_pair, toInt_ofInt_of_natAbs_lt (by omega)], bound⟩

/-! ### A sum over taps (R111, R138) -/

/-- 255 * 255 products at most (R138). -/
theorem natAbs_sum_products_le {K : Kernel} (hky : K.ky ≤ 255) (hkx : K.kx ≤ 255) {α : Type} {l : List α}
    (hl : l.length ≤ K.ky * K.kx) (v w : α → Byte) :
    (l.map fun t => ((v t).toNat : Int) * (w t).toInt).sum.natAbs ≤ 2122416000 := by
  have taps : K.ky * K.kx ≤ 255 * 255 := Nat.mul_le_mul hky hkx
  calc _ ≤ l.length * 32640 := natAbs_sum_le fun t => natAbs_product_le (v t) (w t)
    _ ≤ 2122416000 := by omega

/-- Settles O29: RefSum is the sum modulo 2^32, and distinct taps are no more than K's taps, whose sum is too small to
wrap. -/
theorem sumsNeverWrap : Obligations.SumsNeverWrap := by
  intro K src dy dx c hky hkx product
  constructor
  · have small := natAbs_sum_products_le hky hkx (taps_length K.ky K.kx).le
      (fun t => src (K.tapRead (K.outIndex dy dx c) t.1 t.2) (dy * K.sy + t.1 * K.dily) (dx * K.sx + t.2 * K.dilx) c)
      (fun t => K.weight t.1 t.2 c)
    simp only [refSum_eq_sum, widen_mul, sum_ofInt]
    exact toInt_ofInt_of_natAbs_lt (by omega)
  · intro part hnodup hpart
    have subset : part ⊆ taps K.ky K.kx := fun t ht => mem_taps.mpr (hpart t ht)
    have count : part.length ≤ K.ky * K.kx :=
      (hnodup.subperm subset).length_le.trans_eq (taps_length K.ky K.kx)
    exact natAbs_sum_products_le hky hkx count _ _

end Sys2Proof.Machine
end

section
/-!
PROOFS. The size of a tile (42_convolution.md R125 to R127, 43_datapath.md R136): a schedule cuts its pixels and groups
into pieces whose product is at most 8, or, for AnyR0, at most ACC_N.
-/
namespace Sys2Proof.Machine

/-! ### The length of a piece -/

theorem length_of_mem_blocks {k lo n : Nat} (hk : 0 < k) : ∀ l ∈ blocks k lo n, l.length ≤ k := by
  intro l hl
  simp only [blocks, List.mem_append, List.mem_map, List.mem_ite_nil_left, List.mem_singleton] at hl
  rcases hl with ⟨i, -, rfl⟩ | ⟨-, rfl⟩
  · exact List.length_range'.le
  · exact List.length_range'.le.trans (Nat.mod_lt n hk).le

theorem length_of_mem_groupBatches {n : Nat} : ∀ l ∈ groupBatches n, l.length ≤ 4 := by
  intro l hl
  simp only [groupBatches, List.mem_append, List.mem_map, List.mem_ite_nil_left, List.mem_singleton] at hl
  rcases hl with (⟨i, -, rfl⟩ | ⟨-, rfl⟩) | ⟨-, rfl⟩
  · exact List.length_range'.le
  · simp
  · simp

theorem length_of_mem_pairUp {l : List Nat} : ∀ q ∈ pairUp l, q.length ≤ 2 := by
  induction l using pairUp.induct with
  | case1 a b rest ih => simpa [pairUp] using ih
  | case2 a => simp [pairUp]
  | case3 => simp [pairUp]

theorem length_of_mem_singletons {l : List Nat} : ∀ q ∈ l.map fun a => [a], q.length ≤ 2 := by
  intro q hq
  obtain ⟨a, -, rfl⟩ := List.mem_map.mp hq
  simp

/-- The 3×3 path fuses two rows at most (R126, R127). -/
theorem length_of_mem_fusedRows {K : Kernel} {b e : Nat} : ∀ q ∈ K.fusedRows b e, q.length ≤ 2 := by
  unfold Kernel.fusedRows
  split
  · split
    · intro q hq
      obtain ⟨rows, -, hq⟩ := List.mem_flatMap.mp hq
      split at hq
      · rcases List.mem_pair.mp hq with rfl | rfl <;> simp
      · rcases List.mem_pair.mp hq with rfl | rfl <;> simp
      · exact length_of_mem_singletons q hq
    · exact length_of_mem_blocks (by decide)
  · exact length_of_mem_singletons

/-! ### Tiles of bounded size -/

/-- Every tile of the list has at most n (pixel, group) pairs. -/
def FitIn (n : Nat) (ts : List Tile) : Prop := ∀ t ∈ ts, t.pairs.length ≤ n

theorem Tile.pairs_length (t : Tile) : t.pairs.length = t.pixels.length * t.groups.length :=
  List.length_product t.pixels t.groups

theorem pixelsOf_length (rows cols : List Nat) : (pixelsOf rows cols).length = rows.length * cols.length :=
  List.length_product rows cols

theorem FitIn.mono {m n : Nat} {ts : List Tile} (h : FitIn m ts) (hmn : m ≤ n) : FitIn n ts :=
  fun t ht => (h t ht).trans hmn

theorem FitIn.append {n : Nat} {ts us : List Tile} (ht : FitIn n ts) (hu : FitIn n us) : FitIn n (ts ++ us) :=
  fun t h => (List.mem_append.mp h).elim (ht t) (hu t)

/-- Tiles for piece after piece. -/
theorem fitIn_flatMap {α : Type} {n : Nat} {l : List α} {f : α → List Tile} (h : ∀ a ∈ l, FitIn n (f a)) :
    FitIn n (l.flatMap f) := fun t ht => by
  obtain ⟨a, ha, ht⟩ := List.mem_flatMap.mp ht
  exact h a ha t ht

/-- Tiles of the same pixels for piece after piece of the groups. -/
theorem fitIn_groups {n k : Nat} {ps : List (Nat × Nat)} {L : List (List Nat)} (hL : ∀ gs ∈ L, gs.length ≤ k)
    (hn : ps.length * k ≤ n) : FitIn n (L.map fun gs => ⟨ps, gs⟩) := fun t ht => by
  obtain ⟨gs, hgs, rfl⟩ := List.mem_map.mp ht
  rw [Tile.pairs_length]
  exact (Nat.mul_le_mul_left _ (hL gs hgs)).trans hn

/-- Tiles of the same pixels, a group at a time. -/
theorem fitIn_singleGroups {n : Nat} {ps : List (Nat × Nat)} {gs : List Nat} (hn : ps.length ≤ n) :
    FitIn n (gs.map fun g => ⟨ps, [g]⟩) := fun t ht => by
  obtain ⟨g, -, rfl⟩ := List.mem_map.mp ht
  rw [Tile.pairs_length, List.length_singleton, Nat.mul_one]
  exact hn

/-! ### The schedules (R125 to R127) -/

theorem directTiles_fitIn (K : Kernel) (w dy dx : Nat) : FitIn 8 (directTiles K w dy dx) :=
  fitIn_groups length_of_mem_groupBatches (by simp)

theorem directFastRow_fitIn (K : Kernel) (w dy : Nat) : FitIn 8 (directFastRow K w dy) := by
  refine FitIn.append (fitIn_flatMap fun dx _ => directTiles_fitIn K w dy dx)
    (fitIn_flatMap fun dxs hdxs => fitIn_singleGroups ?_)
  have := length_of_mem_pairUp dxs hdxs
  rw [List.length_map]
  omega

/-- AnyR0 takes as many groups as its pixels leave accumulators for (R126). -/
theorem anyR0_fitIn (K : Kernel) (w b e : Nat) {accN : Nat} (hacc : 8 ≤ accN) : FitIn accN (anyR0 K w accN b e) := by
  refine fitIn_flatMap fun rows hrows => fitIn_flatMap fun cols hcols => ?_
  have grid : rows.length * cols.length ≤ 2 * 2 :=
    Nat.mul_le_mul (length_of_mem_blocks (by decide) rows hrows) (length_of_mem_blocks (by decide) cols hcols)
  rcases Nat.eq_zero_or_pos (rows.length * cols.length) with hnone | hsome
  · intro t ht
    obtain ⟨gs, -, rfl⟩ := List.mem_map.mp ht
    simp [Tile.pairs_length, pixelsOf_length, hnone]
  · refine fitIn_groups (length_of_mem_blocks (Nat.div_pos (by omega) hsome)) ?_
    rw [pixelsOf_length]
    exact Nat.mul_div_le accN _

theorem anyR1_fitIn (K : Kernel) (w b e : Nat) : FitIn 8 (anyR1 K w b e) := by
  refine fitIn_flatMap fun dy _ => fitIn_flatMap fun cols hcols => fitIn_singleGroups ?_
  have := length_of_mem_blocks (by decide) cols hcols
  rw [pixelsOf_length, List.length_singleton]
  omega

theorem fastR1_fitIn (K : Kernel) (w b e : Nat) : FitIn 8 (fastR1 K w b e) := by
  refine fitIn_flatMap fun rows hrows => fitIn_flatMap fun dx _ => fitIn_singleGroups ?_
  have := length_of_mem_fusedRows rows hrows
  rw [pixelsOf_length, List.length_singleton]
  omega

/-- There are at least 8 accumulators (R10). -/
theorem params_accN_le {p : Params} (h : p.legal = true) : 8 ≤ p.accN := by
  simp only [Params.legal, Bool.and_eq_true, decide_eq_true_eq] at h
  omega

/-- Settles O35: every path's tiles need at most 8 accumulators, or, for AnyR0, as many as there are. -/
theorem tilesFitTheAccumulatorFile : Obligations.TilesFitTheAccumulatorFile := by
  intro p K b e hp _
  have hacc := params_accN_le hp
  show FitIn p.accN (K.schedule p b e)
  unfold Kernel.schedule
  split
  · refine fitIn_flatMap fun dy _ => FitIn.mono ?_ hacc
    split
    · exact directFastRow_fitIn K p.w dy
    · exact fitIn_flatMap fun dx _ => directTiles_fitIn K p.w dy dx
  · exact anyR0_fitIn K p.w b e hacc
  · split
    · exact (fastR1_fitIn K p.w b e).mono hacc
    · exact (anyR1_fitIn K p.w b e).mono hacc

end Sys2Proof.Machine
end

section
/-!
PROOFS. A tile over the accumulator file (43_datapath.md R132 to R137, R139): the steps act on each accumulator, and in
it on each lane, alone; a valid lane adds up what the one-pixel sums of R111 and R113 add up.
-/
namespace Sys2Proof.Machine

/-! ### One lane (R132, R133) -/

/-- What one step does to one lane: MAC, or PMADD for V2. -/
def laneOp (K : Kernel) (acc a b : Word) : Word :=
  match K.var with
  | .v2 => pmac acc a b
  | _ => mac acc a b

theorem laneStep_eq_map_zip (K : Kernel) (acc a b : List Word) :
    laneStep K acc a b = (acc.zip (a.zip b)).map fun x => laneOp K x.1 x.2.1 x.2.2 := by
  unfold laneStep laneOp
  cases K.var <;> rfl

/-- A lane of lists that all have it. -/
theorem laneStep_getD {K : Kernel} {acc a b : List Word} {i : Nat} (hacc : i < acc.length) (ha : i < a.length)
    (hb : i < b.length) : (laneStep K acc a b).getD i 0 = laneOp K (acc.getD i 0) (a.getD i 0) (b.getD i 0) := by
  simp [laneStep_eq_map_zip, hacc, ha, hb]

theorem laneStep_length {K : Kernel} {w : Nat} {acc a b : List Word} (hacc : acc.length = w) (ha : a.length = w)
    (hb : b.length = w) : (laneStep K acc a b).length = w := by
  simp [laneStep_eq_map_zip, hacc, ha, hb]

/-- Steps over vectors of w lanes are the same steps in each lane. -/
theorem foldl_laneStep {K : Kernel} {w i : Nat} {A B : Nat × Nat → List Word} (hA : ∀ t, (A t).length = w)
    (hB : ∀ t, (B t).length = w) (hi : i < w) (steps : List (Nat × Nat)) {acc : List Word} (hacc : acc.length = w) :
    (steps.foldl (fun v t => laneStep K v (A t) (B t)) acc).getD i 0
      = steps.foldl (fun v t => laneOp K v ((A t).getD i 0) ((B t).getD i 0)) (acc.getD i 0) := by
  induction steps generalizing acc with
  | nil => rfl
  | cons t ts ih =>
    have lane := laneStep_getD (K := K) (hi.trans_eq hacc.symm) (hi.trans_eq (hA t).symm) (hi.trans_eq (hB t).symm)
    rw [List.foldl_cons, List.foldl_cons, ih (laneStep_length hacc (hA t) (hB t)), lane]

/-! ### The operands of a step (R130, R134) -/

@[simp] theorem lanes_length (w : Nat) (f : Nat → Word) : (lanes w f).length = w := by simp [lanes]

theorem lanes_getD {w i : Nat} (f : Nat → Word) (hi : i < w) : (lanes w f).getD i 0 = f i := getD_map_range f 0 hi

theorem stepSource_length (s : State) (K : Kernel) (I : CallRegs) (ring : List Slot) (p : (Nat × Nat) × Nat)
    (t : Nat × Nat) : (stepSource s K I ring p t).length = s.params.w := by
  unfold stepSource
  cases K.var <;> exact lanes_length _ _

theorem weightLoad_length (K : Kernel) (w r kx g : Nat) : (weightLoad K w r kx g).length = w := lanes_length _ _

/-- V0's entry stands in the low byte of its word (R95). -/
theorem extractLsb'_setWidth_byte (v : Byte) : (v.setWidth 32).extractLsb' 0 8 = v := by
  refine BitVec.eq_of_toNat_eq ?_
  rw [BitVec.extractLsb'_toNat, BitVec.toNat_setWidth, Nat.shiftRight_zero]
  omega

/-- A valid lane of a loaded weight vector is its tap's weight, widened, or V2's pair of weights (R95, R130, R134). -/
theorem weightLoad_getD {p : Params} {K : Kernel} (hp : p.legal = true) (hK : K.wf p) {r kx g i : Nat}
    (hr : r < K.storeRows) (hkx : kx < K.kx) (hi : i < p.w) (hc : laneChannel p.w g i < K.c) :
    (weightLoad K p.w r kx g).getD i 0
      = if K.var = .v2 then K.weightPair r kx (laneChannel p.w g i)
        else widenWeight (K.weight r kx (laneChannel p.w g i)) := by
  have hpad : laneChannel p.w g i < K.cpad :=
    hc.trans_le ((le_cpadOf (params_w_pos hp) K.c).trans_eq (cpad_eq hK).symm)
  have entry := repacked_storeIndex (params_w_pos hp) (cpad_eq hK) hr hkx hpad
  obtain ⟨⟨-, -, -, -, -, -, -, hstore⟩, -⟩ := hK
  rw [← hstore, Kernel.storeEntry, if_pos hc] at entry
  unfold weightLoad
  rw [lanes_getD _ hi]
  simp only [entry]
  cases K.var with
  | v0 => exact congrArg widenWeight (extractLsb'_setWidth_byte _)
  | v1 => rfl
  | v2 => rfl

theorem laneValid_iff {K : Kernel} {w g i : Nat} : K.laneValid w g i = true ↔ laneChannel w g i < K.c :=
  decide_eq_true_iff

/-! ### The sum of one lane (R111, R113, R136) -/

/-- The sum of the one-pixel reference: RefSum for V0, RingSum for V1 and V2. -/
def State.pixelSum (s : State) (K : Kernel) (I : CallRegs) (ring : List Slot) : Nat → Nat → Nat → Word :=
  if K.var = .v0 then K.refSum (s.source K I) else K.ringSum s.params.w ring

/-- From 0, a valid lane adds up the one-pixel sum of its channel. -/
theorem foldl_laneOp_eq_pixelSum {s : State} {K : Kernel} (I : CallRegs) (ring : List Slot)
    (hp : s.params.legal = true) (hK : K.wf s.params) {dy dx g i : Nat} (hi : i < s.params.w)
    (hc : laneChannel s.params.w g i < K.c) :
    K.tileSteps.foldl (fun v t => laneOp K v ((stepSource s K I ring ((dy, dx), g) t).getD i 0)
        ((weightLoad K s.params.w t.1 t.2 g).getD i 0)) 0
      = s.pixelSum K I ring dy dx (laneChannel s.params.w g i) := by
  have weight {t : Nat × Nat} (ht : t ∈ taps K.storeRows K.kx) :=
    weightLoad_getD hp hK (mem_taps.mp ht).1 (mem_taps.mp ht).2 hi hc
  cases hv : K.var with
  | v0 =>
    simp only [Kernel.storeRows, hv] at weight
    simp only [Kernel.tileSteps, State.pixelSum, Kernel.refSum, hv, if_true]
    refine List.foldl_ext _ _ _ fun v t ht => ?_
    simp only [laneOp, stepSource, widenLoad, hv, lanes_getD _ hi, laneValid_iff.mpr hc, weight ht, if_true,
      reduceCtorEq, if_false]
  | v1 =>
    simp only [Kernel.storeRows, hv] at weight
    simp only [Kernel.tileSteps, State.pixelSum, Kernel.ringSum, Kernel.ringSumV1, hv, reduceCtorEq, if_false]
    refine List.foldl_ext _ _ _ fun v t ht => ?_
    simp only [laneOp, stepSource, ringLoad, hv, lanes_getD _ hi, weight ht, reduceCtorEq, if_false]
  | v2 =>
    simp only [Kernel.storeRows, hv] at weight
    simp only [Kernel.tileSteps, State.pixelSum, Kernel.ringSum, Kernel.ringSumV2, hv, reduceCtorEq, if_false]
    refine List.foldl_ext _ _ _ fun v t ht => ?_
    simp only [laneOp, stepSource, ringLoad, hv, lanes_getD _ hi, weight ht, if_true]

/-! ### One accumulator (R136) -/

/-- An accumulator the tile uses starts at 0 in every lane. -/
theorem zeroAccs_getElem? {w n k : Nat} {file : List (List Word)} (hk : k < n) (hn : n ≤ file.length) :
    (zeroAccs w n file)[k]? = some (List.replicate w 0) := by
  simp [zeroAccs, hk, hk.trans_le hn]

/-- The accumulator of pair p sees the steps of p only. -/
theorem foldl_stepAccs_getElem? {s : State} {K : Kernel} {I : CallRegs} {ring : List Slot}
    {ps : List ((Nat × Nat) × Nat)} {p : (Nat × Nat) × Nat} {k : Nat} (hp : ps[k]? = some p)
    (steps : List (Nat × Nat)) (file : List (List Word)) :
    (steps.foldl (stepAccs s K I ring ps) file)[k]? = file[k]?.map fun acc =>
      steps.foldl (fun v t => laneStep K v (stepSource s K I ring p t) (weightLoad K s.params.w t.1 t.2 p.2)) acc := by
  induction steps generalizing file with
  | nil => simp
  | cons t ts ih =>
    rw [List.foldl_cons, ih, stepAccs, List.getElem?_mapIdx, hp, Option.map_map]
    rfl

/-! ### The bytes of a pair (R134, R135, R137) -/

/-- An output byte depends on the sum of its own output only. -/
theorem outByte_congr {s : State} {K : Kernel} {I : CallRegs} {sum sum' : Nat → Nat → Nat → Word} {dy dx c : Nat}
    (h : sum dy dx c = sum' dy dx c) : s.outByte K I sum dy dx c = s.outByte K I sum' dy dx c := by
  rw [State.outByte, h, State.outByte]

/-- The bytes of a pair's valid lanes, by the one-pixel reference. -/
def State.pixelBytes (s : State) (K : Kernel) (I : CallRegs) (ring : List Slot) (p : (Nat × Nat) × Nat) :
    List (Nat × Byte) :=
  (List.range s.params.w).filterMap fun i =>
    if p.2 * s.params.w + i < K.c then
      some (K.outIndex p.1.1 p.1.2 (p.2 * s.params.w + i),
        s.outByte K I (s.pixelSum K I ring) p.1.1 p.1.2 (p.2 * s.params.w + i))
    else none

/-- The pack of the accumulator of a pair, once the tile's steps are done. -/
theorem packPair_tile {s : State} {K : Kernel} (I : CallRegs) (ring : List Slot) (hp : s.params.legal = true)
    (hK : K.wf s.params) {ps : List ((Nat × Nat) × Nat)} {file : List (List Word)} {p : (Nat × Nat) × Nat} {k : Nat}
    (hpk : ps[k]? = some p) (hfit : ps.length ≤ file.length) :
    packPair s K I p ((K.tileSteps.foldl (stepAccs s K I ring ps) (zeroAccs s.params.w ps.length file)).getD k [])
      = s.pixelBytes K I ring p := by
  obtain ⟨hk, -⟩ := List.getElem?_eq_some_iff.mp hpk
  rw [List.getD_eq_getElem?_getD, foldl_stepAccs_getElem? hpk, zeroAccs_getElem? hk hfit]
  refine List.filterMap_congr fun i hi => ?_
  have hi : i < s.params.w := List.mem_range.mp hi
  by_cases hc : p.2 * s.params.w + i < K.c
  · have lane := foldl_laneStep (K := K) (stepSource_length s K I ring p)
      (fun t => weightLoad_length K s.params.w t.1 t.2 p.2) hi K.tileSteps (List.length_replicate (a := 0))
    rw [List.getD_replicate _ hi, foldl_laneOp_eq_pixelSum I ring hp hK hi hc] at lane
    rw [if_pos (laneValid_iff.mpr hc), if_pos hc]
    exact congrArg (fun b => some (_, b)) (outByte_congr lane)
  · rw [if_neg (mt laneValid_iff.mp hc), if_neg hc]

/-- Settles O33: each pair's accumulator holds, in a valid lane, the one-pixel sum. -/
theorem tileEqualsTheScalarPath : Obligations.TileEqualsTheScalarPath := by
  intro s K I ring file t hp hK _ _ hfit
  show _ = t.pairs.flatMap (s.pixelBytes K I ring)
  have packed : ∀ x ∈ t.pairs.zipIdx,
      packPair s K I x.1 ((runTile s K I ring file t).1.getD x.2 []) = s.pixelBytes K I ring x.1 := fun x hx =>
    packPair_tile I ring hp hK (List.mem_zipIdx_iff_getElem?.mp hx) hfit
  calc (runTile s K I ring file t).2 = (t.pairs.zipIdx.map fun x => s.pixelBytes K I ring x.1).flatten :=
        congrArg List.flatten (List.map_congr_left packed)
    _ = t.pairs.flatMap (s.pixelBytes K I ring) := by
        rw [List.flatMap_def, ← List.zipIdx_map_fst 0 t.pairs, List.map_map, List.zipIdx_map_fst]
        rfl

end Sys2Proof.Machine
end

section
/-!
PROOFS. The arithmetic of REQ_REF (43_datapath.md R141): rounding a number times a power of two, binary32 values as
rounded integers, and the byte a product ends in.
-/
namespace Sys2Proof.Machine

/-! ### Rounding a quotient -/

/-- What rneShift gives: the quotient, or one more when the remainder is half or above. -/
theorem rneShift_cases (m k : Nat) :
    (rneShift m k = m / 2 ^ k ∧ 2 * (m % 2 ^ k) ≤ 2 ^ k ∧ (2 * (m % 2 ^ k) = 2 ^ k → m / 2 ^ k % 2 = 0))
      ∨ rneShift m k = m / 2 ^ k + 1 ∧ 2 ^ k ≤ 2 * (m % 2 ^ k)
        ∧ (2 * (m % 2 ^ k) = 2 ^ k → (m / 2 ^ k + 1) % 2 = 0) := by
  unfold rneShift
  dsimp only
  split
  · right
    omega
  · left
    omega

theorem rneShift_zero (m : Nat) : rneShift m 0 = m := by
  rcases rneShift_cases m 0 with ⟨h, -⟩ | ⟨-, h, -⟩
  · rw [h, Nat.pow_zero, Nat.div_one]
  · rw [Nat.pow_zero, Nat.mod_one] at h
    omega

/-- A common factor does not matter. -/
theorem rneShift_mul_pow (m k d : Nat) : rneShift (m * 2 ^ d) (k + d) = rneShift m k := by
  have pos : 0 < 2 ^ d := Nat.two_pow_pos d
  unfold rneShift
  simp only [Nat.pow_add, Nat.mul_div_mul_right _ _ pos, Nat.mul_mod_mul_right, ← Nat.mul_assoc, gt_iff_lt,
    Nat.mul_lt_mul_right pos, Nat.mul_left_inj pos.ne']

theorem le_rneShift (m k : Nat) : m / 2 ^ k ≤ rneShift m k := by
  rcases rneShift_cases m k with ⟨h, -⟩ | ⟨h, -⟩ <;> omega

theorem rneShift_le {m k c : Nat} (h : m < 2 ^ (c + k)) : rneShift m k ≤ 2 ^ c := by
  have quotient : m / 2 ^ k < 2 ^ c := Nat.div_lt_of_lt_mul (by rwa [Nat.mul_comm, ← Nat.pow_add])
  rcases rneShift_cases m k with ⟨h, -⟩ | ⟨h, -⟩ <;> omega

/-- Less than half rounds to 0. -/
theorem rneShift_eq_zero {m k : Nat} (h : 2 * m < 2 ^ k) : rneShift m k = 0 := by
  have quotient : m / 2 ^ k = 0 := Nat.div_eq_of_lt (by omega)
  have remainder : m % 2 ^ k = m := Nat.mod_eq_of_lt (by omega)
  rcases rneShift_cases m k with ⟨h', -⟩ | ⟨-, h', -⟩ <;> omega

/-! ### A number with its sign -/

/-- (-1)^neg * m. -/
def signed (neg : Bool) (m : Nat) : Int := if neg then -(m : Int) else m

@[simp] theorem natAbs_signed (neg : Bool) (m : Nat) : (signed neg m).natAbs = m := by
  cases neg <;> simp [signed]

@[simp] theorem signed_zero (neg : Bool) : signed neg 0 = 0 := by cases neg <;> rfl

theorem signed_mul (n n' : Bool) (m m' : Nat) : signed n m * signed n' m' = signed (n != n') (m * m') := by
  cases n <;> cases n' <;> simp [signed]

theorem signed_mul_pow (neg : Bool) (m n : Nat) : signed neg (m * 2 ^ n) = signed neg m * 2 ^ n := by
  cases neg <;> simp [signed]

theorem signed_toInt (t : Word) : signed (decide (t.toInt < 0)) t.toInt.natAbs = t.toInt := by
  unfold signed
  split
  · rename_i h
    have := of_decide_eq_true h
    omega
  · rename_i h
    have := of_decide_eq_false (eq_false_of_ne_true h)
    omega

/-- rneShift is the rounding of R141. -/
theorem roundsTo_rneShift (m k : Nat) : roundsTo m k (rneShift m k) := by
  have remainder : m % 2 ^ k < 2 ^ k := Nat.mod_lt m (Nat.two_pow_pos k)
  have division : (m : Int) = m / 2 ^ k * 2 ^ k + m % 2 ^ k := by rw [mul_comm, Int.mul_ediv_add_emod]
  rcases rneShift_cases m k with ⟨h, bound, even⟩ | ⟨h, bound, even⟩
  · have error : (m : Int) - rneShift m k * 2 ^ k = (m % 2 ^ k : Nat) := by
      rw [h]
      push_cast
      linarith
    rw [roundsTo, error]
    omega
  · have error : (m : Int) - rneShift m k * 2 ^ k = (m % 2 ^ k : Nat) - (2 ^ k : Nat) := by
      rw [h]
      push_cast
      linarith
    rw [roundsTo, error]
    omega

theorem roundsTo_neg {v r : Int} {k : Nat} (h : roundsTo v k r) : roundsTo (-v) k (-r) := by
  have error : 2 * (-v - -r * 2 ^ k) = -(2 * (v - r * 2 ^ k)) := by ring
  rw [roundsTo, error, Int.natAbs_neg]
  exact ⟨h.1, fun tie => by have := h.2 tie; omega⟩

theorem roundsTo_signed (neg : Bool) (m k : Nat) : roundsTo (signed neg m) k (signed neg (rneShift m k)) := by
  cases neg with
  | false => exact roundsTo_rneShift m k
  | true => exact roundsTo_neg (roundsTo_rneShift m k)

/-! ### Rounding a number times a power of two -/

/-- m * 2^e to the nearest integer, ties to even. -/
def rneScale (m : Nat) (e : Int) : Nat := if 0 ≤ e then m * 2 ^ e.toNat else rneShift m (-e).toNat

theorem rneScale_natCast (m n : Nat) : rneScale m n = m * 2 ^ n := by simp [rneScale]

theorem rneScale_neg (m n : Nat) : rneScale m (-n) = rneShift m n := by
  unfold rneScale
  split
  · obtain rfl : n = 0 := by omega
    simp [rneShift_zero]
  · simp

theorem toIntRne_eq_signed (neg : Bool) (m : Nat) (e : Int) : Fp.toIntRne neg m e = signed neg (rneScale m e) := rfl

/-- A power of two may stand on either side. -/
theorem rneScale_mul_pow (m d : Nat) (e : Int) : rneScale (m * 2 ^ d) (e - d) = rneScale m e := by
  obtain ⟨n, rfl | rfl⟩ := e.eq_nat_or_neg
  · rcases Nat.le_total d n with h | h
    · obtain ⟨k, rfl⟩ := Nat.exists_eq_add_of_le h
      rw [show ((d + k : Nat) : Int) - d = k by omega, rneScale_natCast, rneScale_natCast, Nat.mul_assoc, Nat.pow_add]
    · obtain ⟨k, rfl⟩ := Nat.exists_eq_add_of_le h
      rw [show (n : Int) - (n + k : Nat) = -k by omega, rneScale_natCast, rneScale_neg, Nat.pow_add, ← Nat.mul_assoc]
      simpa [rneShift_zero] using rneShift_mul_pow (m * 2 ^ n) 0 k
  · rw [show -(n : Int) - d = -(n + d : Nat) by omega, rneScale_neg, rneScale_neg, rneShift_mul_pow]

@[simp] theorem rneScale_zero (e : Int) : rneScale 0 e = 0 := by
  unfold rneScale
  split
  · exact Nat.zero_mul _
  · exact rneShift_eq_zero (Nat.two_pow_pos _)

theorem rneScale_sub_of_le {m n k : Nat} (h : n ≤ k) : rneScale m (n - k) = rneShift m (k - n) := by
  rw [show (n : Int) - k = -(k - n : Nat) by omega, rneScale_neg]

theorem rneScale_sub_of_ge {m n k : Nat} (h : k ≤ n) : rneScale m (n - k) = m * 2 ^ (n - k) := by
  rw [show (n : Int) - k = (n - k : Nat) by omega, rneScale_natCast]

theorem rneScale_le {m a c : Nat} {e : Int} (h : m < 2 ^ a) (he : a + e ≤ c) : rneScale m e ≤ 2 ^ c := by
  obtain ⟨n, rfl | rfl⟩ := e.eq_nat_or_neg
  · rw [rneScale_natCast]
    calc m * 2 ^ n ≤ 2 ^ a * 2 ^ n := Nat.mul_le_mul_right _ h.le
      _ ≤ 2 ^ c := by rw [← Nat.pow_add]; exact Nat.pow_le_pow_right (by decide) (by omega)
  · rw [rneScale_neg]
    exact rneShift_le (h.trans_le (Nat.pow_le_pow_right (by decide) (by omega)))

theorem rneScale_eq_zero {m a : Nat} {e : Int} (h : m < 2 ^ a) (he : a + e < 0) : rneScale m e = 0 := by
  obtain ⟨n, rfl⟩ : ∃ n : Nat, e = -n := ⟨e.natAbs, by omega⟩
  have half : 2 ^ (a + 1) ≤ 2 ^ n := Nat.pow_le_pow_right (by decide) (by omega)
  rw [rneScale_neg]
  exact rneShift_eq_zero (by omega)

/-! ### Rounding to 24 bits (R141) -/

/-- The bits of m that binary32 has no room for. -/
def fpExcess (m : Nat) : Nat := Nat.log2 m - 23

/-- m rounded to 24 significant bits, in units of 2 ^ fpExcess m. -/
def fpRound (m : Nat) : Nat := rneShift m (fpExcess m)

theorem lt_two_pow_fpExcess (m : Nat) : m < 2 ^ (24 + fpExcess m) :=
  Nat.lt_log2_self.trans_le (Nat.pow_le_pow_right (by decide) (by unfold fpExcess; omega))

theorem fpRound_le (m : Nat) : fpRound m ≤ 2 ^ 24 := rneShift_le (lt_two_pow_fpExcess m)

@[simp] theorem fpRound_zero : fpRound 0 = 0 := rneShift_eq_zero (Nat.two_pow_pos _)

theorem fpExcess_lt {m k : Nat} (h : m < 2 ^ (24 + k)) : fpExcess m < k + 1 := by
  rcases Decidable.em (m = 0) with rfl | hm
  · exact Nat.succ_pos k
  · have := (Nat.log2_lt hm).mpr h
    unfold fpExcess
    omega

theorem roundsToFp_fpRound (neg : Bool) (m : Nat) :
    roundsToFp (signed neg m) (fpExcess m) (signed neg (fpRound m)) := by
  refine ⟨?_, roundsTo_signed neg m _⟩
  rw [natAbs_signed]
  refine ⟨lt_two_pow_fpExcess m, (Nat.eq_zero_or_pos (fpExcess m)).imp_right fun h => ?_⟩
  have top : 23 + fpExcess m = Nat.log2 m := by
    unfold fpExcess at h ⊢
    omega
  rw [top]
  exact Nat.log2_self_le fun h0 => by simp [h0, fpExcess] at h

/-- The significand of the binary32 value nearest to m: fpRound m with zeros behind it up to 24 bits. -/
def fpSig (m : Nat) : Nat := fpRound m * 2 ^ (23 - Nat.log2 m)

theorem rneScale_eq_fpSig (m : Nat) : rneScale m (23 - Nat.log2 m) = fpSig m := by
  unfold fpSig fpRound fpExcess
  rcases Nat.le_total (Nat.log2 m) 23 with h | h
  · rw [show Nat.log2 m - 23 = 0 by omega, show (23 : Int) - Nat.log2 m = (23 - Nat.log2 m : Nat) by omega,
      rneScale_natCast, rneShift_zero]
  · rw [show 23 - Nat.log2 m = 0 by omega, show (23 : Int) - Nat.log2 m = -(Nat.log2 m - 23 : Nat) by omega,
      rneScale_neg, Nat.pow_zero, Nat.mul_one]

@[simp] theorem fpSig_zero : fpSig 0 = 0 := by rw [← rneScale_eq_fpSig, rneScale_zero]

theorem fpSig_le (m : Nat) : fpSig m ≤ 2 ^ 24 := by
  rw [← rneScale_eq_fpSig]
  exact rneScale_le (a := Nat.log2 m + 1) Nat.lt_log2_self (by omega)

theorem fpSig_pos {m : Nat} (hm : m ≠ 0) : 0 < fpSig m := by
  have top : 2 ^ fpExcess m ≤ m :=
    (Nat.pow_le_pow_right (by decide) (Nat.sub_le ..)).trans (Nat.log2_self_le hm)
  exact Nat.mul_pos ((Nat.div_pos top (Nat.two_pow_pos _)).trans_le (le_rneShift ..)) (Nat.two_pow_pos _)

/-- The value fpSig m stands for is that of fpRound m. -/
theorem rneScale_fpSig (m : Nat) (e : Int) :
    rneScale (fpSig m) (e + Nat.log2 m - 23) = rneScale (fpRound m) (e + fpExcess m) := by
  rw [← rneScale_mul_pow (fpRound m) (23 - Nat.log2 m)]
  unfold fpSig fpExcess
  congr 1
  omega

/-! ### Fp.rounded (R141) -/

theorem rounded_zero (neg : Bool) (e : Int) : Fp.rounded neg 0 e = .fin neg 0 (-149) := rfl

theorem rounded_eq {m : Nat} {e q : Int} (neg : Bool) (hm : m ≠ 0) (hq : max (e + Nat.log2 m - 23) (-149) = q) :
    Fp.rounded neg m e
      = if rneScale m (e - q) * 2 ^ (q + 149).toNat < 2 ^ 277 then .fin neg (rneScale m (e - q)) q else .inf neg := by
  have unit : max (e + (Nat.log2 m : Int) + 1 - 24) (-149) = q := by omega
  unfold Fp.rounded rneScale
  simp only [if_neg hm, unit, Int.sub_nonneg, Int.neg_sub]

theorem log2_mul_two_pow {m : Nat} (hm : m ≠ 0) (d : Nat) : Nat.log2 (m * 2 ^ d) = Nat.log2 m + d := by
  refine (Nat.log2_eq_iff (Nat.mul_ne_zero hm (Nat.two_pow_pos d).ne')).mpr ⟨?_, ?_⟩
  · rw [Nat.pow_add]
    exact Nat.mul_le_mul_right _ (Nat.log2_self_le hm)
  · rw [Nat.add_right_comm, Nat.pow_add]
    exact Nat.mul_lt_mul_of_pos_right Nat.lt_log2_self (Nat.two_pow_pos d)

/-- A power of two may stand on either side. -/
theorem rounded_mul_pow (neg : Bool) (m d : Nat) (e : Int) :
    Fp.rounded neg (m * 2 ^ d) (e - d) = Fp.rounded neg m e := by
  rcases Decidable.em (m = 0) with rfl | hm
  · rw [Nat.zero_mul, rounded_zero, rounded_zero]
  · have unit : max (e - d + Nat.log2 (m * 2 ^ d) - 23) (-149) = max (e + Nat.log2 m - 23) (-149) := by
      rw [log2_mul_two_pow hm]
      omega
    rw [rounded_eq neg (Nat.mul_ne_zero hm (Nat.two_pow_pos d).ne') unit, rounded_eq neg hm rfl, sub_right_comm,
      rneScale_mul_pow]

theorem two_pow_mul_lt {a b c : Nat} (h : a + b < c) : 2 ^ a * 2 ^ b < 2 ^ c := by
  rw [← Nat.pow_add]
  exact Nat.pow_lt_pow_right (by decide) h

/-- A value that is not below the normal ones has 24 significant bits, or is too large. -/
theorem rounded_normal {m : Nat} {e : Int} (neg : Bool) (hm : m ≠ 0) (hn : -126 ≤ e + Nat.log2 m) :
    Fp.rounded neg m e = if fpSig m * 2 ^ (e + Nat.log2 m + 126).toNat < 2 ^ 277
      then .fin neg (fpSig m) (e + Nat.log2 m - 23) else .inf neg := by
  rw [rounded_eq neg hm (max_eq_left (by omega)), show e - (e + Nat.log2 m - 23) = 23 - Nat.log2 m by omega,
    rneScale_eq_fpSig, show e + Nat.log2 m - 23 + 149 = e + Nat.log2 m + 126 by omega]

/-- A value below the normal ones is a multiple of 2^-149, and no more than 2^-126. -/
theorem rounded_subnormal {m : Nat} {e : Int} (neg : Bool) (hm : m ≠ 0) (hs : e + Nat.log2 m < -126) :
    ∃ man ≤ 2 ^ 23, Fp.rounded neg m e = .fin neg man (-149) := by
  have small : rneScale m (e - -149) ≤ 2 ^ 23 := rneScale_le (a := Nat.log2 m + 1) Nat.lt_log2_self (by omega)
  refine ⟨_, small, ?_⟩
  rw [rounded_eq neg hm (max_eq_right (by omega)), if_pos]
  calc _ ≤ 2 ^ 23 * 2 ^ 0 := Nat.mul_le_mul_right _ small
    _ < 2 ^ 277 := two_pow_mul_lt (by decide)

/-- A value that is too large for binary32 has 255 or more at its integer part. -/
theorem le_rneScale_of_overflow {m : Nat} {x : Int} (hm : m ≠ 0) (h : ¬ fpSig m * 2 ^ (x + 126).toNat < 2 ^ 277) :
    255 ≤ rneScale (fpSig m) (x - 23) := by
  have exponent : 253 ≤ (x + 126).toNat := by
    by_contra small
    refine h ?_
    calc _ ≤ 2 ^ 24 * 2 ^ 252 := Nat.mul_le_mul (fpSig_le m) (Nat.pow_le_pow_right (by decide) (by omega))
      _ < 2 ^ 277 := two_pow_mul_lt (by decide)
  obtain ⟨n, hn, hx⟩ : ∃ n : Nat, 8 ≤ n ∧ x - 23 = n := ⟨(x - 23).toNat, by omega, by omega⟩
  rw [hx, rneScale_natCast]
  calc 255 ≤ 1 * 2 ^ 8 := by decide
    _ ≤ _ := Nat.mul_le_mul (fpSig_pos hm) (Nat.pow_le_pow_right (by decide) hn)

/-! ### The byte of a value (R141) -/

/-- The byte REQ_REF gives for a product. -/
def Fp.toByte (nan zp : Byte) : Fp → Byte
  | .nan => nan
  | .inf neg => if neg then 0 else 255
  | .fin neg m e => clampByte (Fp.toIntRne neg m e + zp.toNat)

theorem reqRef_eq_toByte (nan : Byte) (sum bias scale : Word) (zp : Byte) :
    reqRef nan sum bias scale zp = (Fp.mul (Fp.ofI32 (sum + bias)) (Fp.ofBits scale)).toByte nan zp := by
  unfold reqRef
  cases Fp.mul (Fp.ofI32 (sum + bias)) (Fp.ofBits scale) <;> rfl

theorem toNat_clampByte (v : Int) : ((clampByte v).toNat : Int) = min (max v 0) 255 := by
  unfold clampByte
  rw [BitVec.toNat_ofNat]
  omega

theorem clampByte_toNat (v : Byte) : clampByte v.toNat = v := by
  have := toNat_clampByte v.toNat
  exact BitVec.eq_of_toNat_eq (by omega)

/-- A magnitude of 255 or more saturates, whatever the zero point. -/
theorem clampByte_saturates {neg : Bool} {a : Nat} (ha : 255 ≤ a) (zp : Byte) :
    clampByte (signed neg a + zp.toNat) = if neg then 0 else 255 := by
  have := toNat_clampByte (signed neg a + zp.toNat)
  cases neg with
  | false =>
    refine BitVec.eq_of_toNat_eq (?_ : _ = 255)
    simp only [signed, Bool.false_eq_true, if_false] at this ⊢
    omega
  | true =>
    refine BitVec.eq_of_toNat_eq (?_ : _ = 0)
    simp only [signed, if_true] at this ⊢
    omega

/-- The byte of a rounded product: the three roundings of R141. Below the normal values both sides round to 0; above the
largest one both saturate. -/
theorem toByte_rounded (nan zp : Byte) (neg : Bool) (m : Nat) (e : Int) :
    (Fp.rounded neg m e).toByte nan zp
      = clampByte (signed neg (rneScale (fpRound m) (e + fpExcess m)) + zp.toNat) := by
  rw [← rneScale_fpSig]
  have significand := fpSig_le m
  rcases Nat.eq_zero_or_pos m with rfl | hm
  · rw [rounded_zero, Fp.toByte, toIntRne_eq_signed, rneScale_zero, fpSig_zero, rneScale_zero]
  rcases Int.lt_or_le (e + Nat.log2 m) (-126) with hs | hn
  · obtain ⟨man, hman, hr⟩ := rounded_subnormal neg hm.ne' hs
    rw [hr, Fp.toByte, toIntRne_eq_signed, rneScale_eq_zero (a := 24) (by omega) (by decide),
      rneScale_eq_zero (a := 25) (by omega) (by omega)]
  · rw [rounded_normal neg hm.ne' hn]
    split
    · rw [Fp.toByte, toIntRne_eq_signed]
    · rename_i large
      rw [Fp.toByte, clampByte_saturates (le_rneScale_of_overflow hm.ne' large)]

/-! ### The conversion and the product (R141) -/

theorem natAbs_toInt_lt (t : Word) : t.toInt.natAbs < 2 ^ 32 := by
  have := BitVec.le_toInt t
  have := BitVec.toInt_lt (x := t)
  omega

theorem natAbs_toInt_ne_zero {t : Word} (ht : t ≠ 0) : t.toInt.natAbs ≠ 0 := fun h =>
  ht (BitVec.eq_of_toInt_eq (Int.natAbs_eq_zero.mp h))

/-- toFP32 of a total: its 24-bit rounding, which never overflows. -/
theorem ofI32_of_ne_zero {t : Word} (ht : t ≠ 0) :
    Fp.ofI32 t = .fin (decide (t.toInt < 0)) (fpSig t.toInt.natAbs) (Nat.log2 t.toInt.natAbs - 23) := by
  have hm := natAbs_toInt_ne_zero ht
  have log : Nat.log2 t.toInt.natAbs < 32 := (Nat.log2_lt hm).mpr (natAbs_toInt_lt t)
  have fits : fpSig t.toInt.natAbs * 2 ^ ((0 : Int) + Nat.log2 t.toInt.natAbs + 126).toNat < 2 ^ 277 := by
    calc _ ≤ 2 ^ 24 * 2 ^ 158 := Nat.mul_le_mul (fpSig_le _) (Nat.pow_le_pow_right (by decide) (by omega))
      _ < 2 ^ 277 := two_pow_mul_lt (by decide)
  rw [Fp.ofI32, rounded_normal _ hm (by omega), if_pos fits, Int.zero_add]

theorem ofI32_zero : Fp.ofI32 0 = .fin false 0 (-149) := rfl

/-- The product of a total and a finite scale, of which fpRound is the first factor (R141). -/
theorem mul_ofI32 (t : Word) (neg : Bool) (m : Nat) (e : Int) :
    Fp.mul (Fp.ofI32 t) (.fin neg m e)
      = Fp.rounded (decide (t.toInt < 0) != neg) (fpRound t.toInt.natAbs * m) (fpExcess t.toInt.natAbs + e) := by
  rcases Decidable.em (t = 0) with rfl | ht
  · have zero : (0 : Word).toInt = 0 := rfl
    rw [ofI32_zero, Fp.mul, zero, Int.natAbs_zero, fpRound_zero, Nat.zero_mul, rounded_zero, rounded_zero]
    rfl
  · rw [ofI32_of_ne_zero ht, Fp.mul]
    refine Eq.trans ?_ (rounded_mul_pow _ _ (23 - Nat.log2 t.toInt.natAbs) _)
    congr 1
    · rw [fpSig, Nat.mul_right_comm]
    · rw [fpExcess]
      omega

/-! ### Scales (R141) -/

theorem sign_eq (x : Word) : x.getLsbD 31 = decide (x.toInt < 0) := by
  rw [← BitVec.msb_eq_toInt, BitVec.msb_eq_getLsbD_last]

/-- A normal scale (G1). -/
theorem ofBits_normal {x : Word} (h0 : 0 < fpExponent x) (h1 : fpExponent x < 255) :
    Fp.ofBits x = .fin (decide (x.toInt < 0)) (2 ^ 23 + x.toNat % 2 ^ 23) (fpExponent x - 150) := by
  unfold fpExponent at h0 h1
  simp only [Fp.ofBits, sign_eq, if_neg h1.ne, if_neg h0.ne']
  rfl

/-- A scale below the normal ones (G1). -/
theorem ofBits_subnormal {x : Word} (h : fpExponent x = 0) :
    Fp.ofBits x = .fin (decide (x.toInt < 0)) (x.toNat % 2 ^ 23) (-149) := by
  unfold fpExponent at h
  have finite : ¬ x.toNat / 2 ^ 23 % 2 ^ 8 = 255 := by omega
  simp only [Fp.ofBits, sign_eq, if_neg finite, if_pos h]

/-- An infinite or NaN scale (G1). -/
theorem ofBits_special {x : Word} (h : x.toNat / 2 ^ 23 % 2 ^ 8 = 255) :
    Fp.ofBits x = if x.toNat % 2 ^ 23 = 0 then .inf (decide (x.toInt < 0)) else .nan := by
  simp only [Fp.ofBits, sign_eq, h, if_true]

theorem fpSignificand_eq_signed (x : Word) :
    fpSignificand x = signed (decide (x.toInt < 0)) (2 ^ 23 + x.toNat % 2 ^ 23) := by
  unfold fpSignificand signed
  split <;> simp_all

end Sys2Proof.Machine
end

section
/-!
PROOFS. REQ_REF by kinds of scale (43_datapath.md R141): NaN and infinite, normal, below the normal ones, and 1.0.
-/
namespace Sys2Proof.Machine

/-! ### NaN and infinite scales -/

/-- Settles O32: a NaN scale or zero times infinity is a NaN, and any other total times infinity is an infinity. -/
theorem requantizerSpecialScales : Obligations.RequantizerSpecialScales := by
  intro nan sum bias scale zp h
  rw [reqRef_eq_toByte, ofBits_special h]
  generalize sum + bias = t
  rcases Decidable.em (t = 0) with rfl | ht
  · rw [if_pos (Or.inr rfl), ofI32_zero]
    split <;> rfl
  rw [ofI32_of_ne_zero ht]
  rcases Decidable.em (scale.toNat % 2 ^ 23 = 0) with hman | hman
  · have nonzero := (fpSig_pos (natAbs_toInt_ne_zero ht)).ne'
    have notNan : ¬ (scale.toNat % 2 ^ 23 ≠ 0 ∨ t = 0) := fun h => h.elim (· hman) ht
    rw [if_pos hman, if_neg notNan, Fp.mul, if_neg nonzero, Fp.toByte]
    rcases Decidable.em (t.toInt < 0 ↔ scale.toInt < 0) with same | opposite
    · rw [if_pos same, decide_eq_decide.mpr same, bne_self_eq_false]
      rfl
    · rw [if_neg opposite, if_pos (bne_iff_ne.mpr (mt decide_eq_decide.mp opposite))]
  · rw [if_neg hman, if_pos (Or.inl hman)]
    rfl

/-! ### Finite scales -/

/-- With a normal scale, REQ_REF rounds the total, the product and the result, each to nearest with ties to even. -/
theorem reqRef_normal (nan : Byte) (sum bias scale : Word) (zp : Byte) (h0 : 0 < fpExponent scale)
    (h1 : fpExponent scale < 255) :
    ∃ (e j : Nat) (f p r : Int), roundsToFp (sum + bias).toInt e f ∧ roundsToFp (f * fpSignificand scale) j p
      ∧ (fpExponent scale + e + j ≤ 150 → roundsTo p (150 - (fpExponent scale + e + j)) r)
      ∧ (150 < fpExponent scale + e + j → r = p * 2 ^ (fpExponent scale + e + j - 150))
      ∧ ((reqRef nan sum bias scale zp).toNat : Int) = min (max (r + zp.toNat) 0) 255 := by
  generalize ht : sum + bias = t
  generalize hf : fpRound t.toInt.natAbs = f
  generalize he : fpExcess t.toInt.natAbs = e
  generalize hm : f * (2 ^ 23 + scale.toNat % 2 ^ 23) = m
  generalize hneg : (decide (t.toInt < 0) != decide (scale.toInt < 0)) = neg
  refine ⟨e, fpExcess m, signed (decide (t.toInt < 0)) f, signed neg (fpRound m),
    signed neg (rneScale (fpRound m) ((fpExponent scale + e + fpExcess m : Nat) - (150 : Nat))), ?total, ?product,
    fun h => ?fraction, fun h => ?whole, ?byte⟩
  case total =>
    have := roundsToFp_fpRound (decide (t.toInt < 0)) t.toInt.natAbs
    rwa [signed_toInt, hf, he] at this
  case product =>
    rw [fpSignificand_eq_signed, signed_mul, hneg, hm]
    exact roundsToFp_fpRound neg m
  case fraction =>
    rw [rneScale_sub_of_le h]
    exact roundsTo_signed ..
  case whole => rw [rneScale_sub_of_ge h.le, signed_mul_pow]
  case byte =>
    rw [reqRef_eq_toByte, ht, ofBits_normal h0 h1, mul_ofI32, hf, he, hm, hneg, toByte_rounded, toNat_clampByte,
      show (e : Int) + (fpExponent scale - 150) + fpExcess m
        = (fpExponent scale + e + fpExcess m : Nat) - (150 : Nat) by omega]

/-- With a scale below the normal ones the product is too small to round to anything but 0. -/
theorem reqRef_subnormal (nan : Byte) (sum bias scale : Word) (zp : Byte) (h : fpExponent scale = 0) :
    reqRef nan sum bias scale zp = zp := by
  generalize ht : (sum + bias).toInt.natAbs = t
  have total : fpExcess t < 9 := fpExcess_lt (ht ▸ natAbs_toInt_lt (sum + bias))
  have product : fpRound t * (scale.toNat % 2 ^ 23) < 2 ^ (24 + 24) :=
    (Nat.mul_le_mul (fpRound_le t) (Nat.mod_lt _ (Nat.two_pow_pos 23)).le).trans_lt (by decide)
  have excess := fpExcess_lt product
  have small := (fpRound_le (fpRound t * (scale.toNat % 2 ^ 23))).trans_lt (show 2 ^ 24 < 2 ^ 25 by decide)
  rw [reqRef_eq_toByte, ofBits_subnormal h, mul_ofI32, ht, toByte_rounded, rneScale_eq_zero small (by omega),
    signed_zero, Int.zero_add, clampByte_toNat]

/-! ### Scale 1.0 -/

/-- A multiple of 2^k loses nothing. -/
theorem roundsTo_exact {v r : Int} {k : Nat} (h : roundsTo v k r) (hv : 2 ^ k ∣ v) : r * 2 ^ k = v := by
  obtain ⟨c, rfl⟩ := hv
  have pos : 0 < 2 ^ k := Nat.two_pow_pos k
  have near : (c - r).natAbs * 2 * 2 ^ k ≤ 1 * 2 ^ k := by
    have error : 2 * (2 ^ k * c - r * 2 ^ k) = (c - r) * 2 * 2 ^ k := by ring
    have := h.1
    rwa [error, Int.natAbs_mul, Int.natAbs_mul, Int.natAbs_pow, ← Nat.one_mul (2 ^ k)] at this
  have := Nat.le_of_mul_le_mul_right near pos
  obtain rfl : c = r := by omega
  ring

/-- Neither does a value with 24 significant bits. -/
theorem roundsToFp_exact {a m : Int} {b e : Nat} (h : roundsToFp (a * 2 ^ b) e m) (ha : a.natAbs < 2 ^ 24) :
    m * 2 ^ e = a * 2 ^ b := by
  obtain ⟨⟨-, hfull⟩, hround⟩ := h
  refine roundsTo_exact hround ?_
  rcases hfull with rfl | hfull
  · exact one_dvd _
  have low : e ≤ b := by
    by_contra high
    refine hfull.not_gt ?_
    calc (a * 2 ^ b).natAbs = a.natAbs * 2 ^ b := by rw [Int.natAbs_mul, Int.natAbs_pow]; rfl
      _ < 2 ^ 24 * 2 ^ b := Nat.mul_lt_mul_of_pos_right ha (Nat.two_pow_pos b)
      _ ≤ 2 ^ (23 + e) := by
        rw [← Nat.pow_add]
        exact Nat.pow_le_pow_right (by decide) (by omega)
  exact Dvd.dvd.mul_left (pow_dvd_pow 2 low) a

/-- A total of magnitude up to 2^24 has 24 significant bits. -/
theorem exists_significand {v : Int} (h : v.natAbs ≤ 2 ^ 24) :
    ∃ (a : Int) (b : Nat), a.natAbs < 2 ^ 24 ∧ v = a * 2 ^ b := by
  obtain h | h | h : v.natAbs < 2 ^ 24 ∨ v = 2 ^ 24 ∨ v = -2 ^ 24 := by omega
  · exact ⟨v, 0, h, by simp⟩
  · exact ⟨1, 24, by decide, by simpa using h⟩
  · exact ⟨-1, 24, by decide, by simpa using h⟩

/-- With scale 1.0 and bias 0, a total of at most 24 significant bits comes out as it is. -/
theorem reqRef_one (nan : Byte) (s : Word) (zp : Byte) (hs : s.toInt.natAbs ≤ 2 ^ 24) :
    ((reqRef nan s 0 0x3F800000 zp).toNat : Int) = min (max (s.toInt + zp.toNat) 0) 255 := by
  have exponent : fpExponent 0x3F800000 = 127 := by decide
  have significand : fpSignificand 0x3F800000 = 2 ^ 23 := by decide
  obtain ⟨e, j, f, p, r, hf, hp, hle, hgt, hbyte⟩ := reqRef_normal nan s 0 0x3F800000 zp (by decide) (by decide)
  rw [exponent] at hle hgt
  rw [significand] at hp
  rw [add_zero] at hf
  have total : f * 2 ^ e = s.toInt := by
    obtain ⟨a, b, ha, hab⟩ := exists_significand hs
    rw [hab] at hf ⊢
    exact roundsToFp_exact hf ha
  have narrow : f.natAbs < 2 ^ 24 := by
    have bound := hf.1.1
    rw [← total, Int.natAbs_mul, Int.natAbs_pow, Nat.pow_add] at bound
    exact Nat.lt_of_mul_lt_mul_right bound
  have product : p * 2 ^ (e + j) = s.toInt * 2 ^ 23 := by
    have := roundsToFp_exact hp narrow
    rw [← total, pow_add]
    linear_combination this * 2 ^ e
  have result : r = s.toInt := by
    rcases Nat.lt_or_ge 150 (127 + e + j) with h | h
    · refine mul_right_cancel₀ (pow_ne_zero 23 two_ne_zero) (Eq.trans ?_ product)
      rw [hgt h, mul_assoc, ← pow_add, show 127 + e + j - 150 + 23 = e + j by omega]
    · obtain ⟨k, hk⟩ := Nat.exists_eq_add_of_le h
      have whole : p = s.toInt * 2 ^ k := by
        refine mul_right_cancel₀ (pow_ne_zero (e + j) two_ne_zero) (product.trans ?_)
        rw [mul_assoc, ← pow_add, show k + (e + j) = 23 by omega]
      have rounded := hle h
      rw [show 150 - (127 + e + j) = k by omega] at rounded
      exact mul_right_cancel₀ (pow_ne_zero k two_ne_zero)
        ((roundsTo_exact rounded (whole ▸ Dvd.intro_left _ rfl)).trans whole)
  rw [hbyte, result]

/-- Settles O31: the three clauses are scale 1.0, the normal scales and the scales below them. -/
theorem requantizerRoundsToNearestEven : Obligations.RequantizerRoundsToNearestEven :=
  ⟨reqRef_one, reqRef_normal, reqRef_subnormal⟩

end Sys2Proof.Machine
end

section
/-!
PROOFS. Which commands complete and which wait for the data port (60_exceptions.md R152, 20_memory.md R66, R67).
-/
namespace Sys2Proof.Machine

/-! ### A port that answers -/

/-- Settles O6: of the three ends of `exec_outcome`, the wait needs an access that is never answered. -/
theorem everyCommandCompletes : Obligations.EveryCommandCompletes := by
  intro s i answered
  rcases exec_outcome i s with ⟨-, e⟩ | ⟨-, _, _, _, _, _, e | ⟨_, _, -, e⟩ | ⟨-, -, f, hf, silent⟩⟩
  · exact ⟨_, e, rfl, .inl rfl⟩
  · exact ⟨_, e, rfl, .inl rfl⟩
  · exact ⟨_, e, rfl, .inr rfl⟩
  · exact absurd silent (by simp [answered f hf])

/-! ### A command that waits -/

/-- A command that has worked on anything but the data space, and has not ended, waits (R152; log 15). -/
theorem waitsAs_worked (s : State) (k : Option Kernel) (r : List Slot) (x : Option RingCtx) (a : List (List Word)) :
    s.waitsAs (s.worked k r x a s.mem) :=
  ⟨⟨rfl, rfl, rfl, rfl, rfl, rfl⟩, rfl, ⟨rfl, rfl, rfl, rfl, rfl, rfl⟩, rfl, rfl, rfl, rfl⟩

/-- With no bus error to come, an access that is never answered makes the command wait (R152). -/
theorem portAnswer_silent {s : State} {hits : PortFault → List Nat} (silent : ∀ g ∈ s.port, g.silent = true)
    {f : PortFault} (hf : f ∈ s.port) (hit : hits f ≠ []) : s.portAnswer hits = .waiting := by
  cases answer : s.portAnswer hits with
  | waiting => rfl
  | error a =>
    obtain ⟨g, hg, answered, -⟩ := portAnswer_error answer
    exact absurd (silent g hg) (by simp [answered])
  | data =>
    have noErrors : (s.port.filter fun g => !g.silent) = [] := List.filter_eq_nil_iff.mpr (by simpa using silent)
    have access : (s.port.filter fun g => g.silent).flatMap hits ≠ [] := fun h =>
      hit (List.flatMap_eq_nil_iff.mp h f (List.mem_filter.mpr ⟨hf, silent f hf⟩))
    obtain ⟨a, as, hcons⟩ := List.exists_cons_of_ne_nil access
    simp [State.portAnswer, noErrors, hcons] at answer

/-- INIT whose checks pass and one of whose accesses is never answered (R90, R152). -/
theorem execInit_waits {s : State} (hc : firstError (initChecks s.params s.initOperands) = none)
    (hp : s.portAnswer (initHits s.initOperands) = .waiting) : execInit s = .next (discardKernel s) := by
  rcases execInit_cases s with ⟨_, _, hc', -⟩ | ⟨-, ⟨hp', -⟩ | ⟨_, hp', -⟩ | ⟨-, e⟩⟩
  · cases hc.symm.trans hc'
  · cases hp.symm.trans hp'
  · cases hp.symm.trans hp'
  · exact e

/-- PREPROCESS whose checks pass and one of whose reads is never answered (R101, R152). -/
theorem execPreprocess_waits {s : State} {K : Kernel} (hK : s.kernel = some K)
    (hc : firstError (preprocessChecks s.params K s.invocation) = none)
    (hrange : s.invocation.dyBeg ≠ s.invocation.dyEnd) (hvar : K.var ≠ .v0)
    (hp : s.portAnswer (fillHits s.draws K s.invocation s.invocation.dyBeg s.invocation.dyEnd) = .waiting) :
    execPreprocess s = .next (enterContext s s.invocation) := by
  simp [execPreprocess, hK, hc, hrange, hvar, hp]

/-- A plan one of whose accesses is never answered (R152). -/
theorem finishPlan_waits {s : State} {P : Plan} (hp : s.portAnswer P.hits = .waiting) :
    finishPlan s P = .next (s.worked s.kernel P.started P.rctx (s.accAfter P) s.mem) := by
  simp [finishPlan, hp]

/-- A COMPUTE or RUN that is ready carries out a plan with the accesses of the command. -/
theorem ready_plan_hitsOf {s : State} {i : Instr} (hi : i = .compute ∨ i = .run) (h : s.ready i) :
    ∃ K P, exec i s = finishPlan s P ∧ s.hitsOf i K P.hits := by
  rcases hi with rfl | rfl
  · obtain ⟨K, hK, -, hl, hr, hres⟩ := h
    by_cases hv : K.var = .v0
    · exact ⟨K, _, exec_conv_direct (.inl rfl) hK hl hr hv, directPlan_hitsOf (.inl rfl) hK hv hr.le⟩
    · exact ⟨K, _, exec_compute_ring hK hl hr hv (hres hv), ringPlan_hitsOf hK hv hr.le⟩
  · obtain ⟨K, hK, hwf, hl, hr⟩ := h
    by_cases hv : K.var = .v0
    · exact ⟨K, _, exec_conv_direct (.inr rfl) hK hl hr hv, directPlan_hitsOf (.inr rfl) hK hv hr.le⟩
    · exact ⟨K, _, exec_run_fused hK hl hr hv, fusedPlan_hitsOf hK hwf hr.le (convLegal_range hl).2⟩

/-- A ready command with an access that is never answered and none that gets a bus error waits (R152). -/
theorem exec_waits {s : State} {i : Instr} {f : PortFault} (hready : s.ready i)
    (silent : ∀ g ∈ s.port, g.silent = true) (hf : f ∈ s.port) (sure : s.surelyAccesses i f) :
    ∃ t, exec i s = .next t ∧ s.waitsAs t := by
  have plan : ∀ {i}, i = .compute ∨ i = .run → s.ready i → s.surelyAccesses i f →
      ∃ t, exec i s = .next t ∧ s.waitsAs t := by
    intro i hi hready sure
    obtain ⟨K, P, run, hits, -⟩ := ready_plan_hitsOf hi hready
    have waits := finishPlan_waits (portAnswer_silent silent hf (hits f sure))
    exact ⟨_, run.trans waits, waitsAs_worked s _ _ _ _⟩
  cases i with
  | nop => exact hready.elim
  | inval => exact hready.elim
  | clrerr => exact hready.elim
  | init =>
    have answer := portAnswer_silent silent hf (initHits_ne_nil sure.1 sure.2)
    exact ⟨_, execInit_waits (firstError_initChecks_legal hready) answer,
      waitsAs_worked s none (invalidateTags s.ring) none s.acc⟩
  | preprocess =>
    obtain ⟨K, hK, hwf, hl, hr, hv⟩ := hready
    have ⟨_, ⟨_, hend⟩, _⟩ := hl
    have answer := portAnswer_silent silent hf ((fillHits_hitsOf hK hwf hend).1 f sure)
    exact ⟨_, execPreprocess_waits hK (firstError_preprocessChecks_legal hl) hr.ne hv answer,
      waitsAs_worked s s.kernel _ _ s.acc⟩
  | compute => exact plan (.inl rfl) hready sure
  | run => exact plan (.inr rfl) hready sure

/-! ### What a command waits for -/

/-- `o` is the end of command `i`, or its wait for an access that the port never answers (R152). -/
def State.endsOrWaits (s : State) (i : Instr) (o : Host.Outcome State Fault Refusal) : Prop :=
  ∃ t, o = .next t ∧ (t.held = none ∨ (s.waitsAs t ∧ ∃ f ∈ s.port, f.silent = true ∧ s.waitsFor i f))

theorem endsOrWaits_ended {s t : State} {i : Instr} (h : t.held = none) : s.endsOrWaits i (.next t) :=
  ⟨t, rfl, .inl h⟩

/-- A command waits for one of the accesses its port was asked for. -/
theorem endsOrWaits_waiting {s t : State} {i : Instr} {hits : PortFault → List Nat}
    (answer : s.portAnswer hits = .waiting) (ht : s.waitsAs t) (may : ∀ f, ∀ a ∈ hits f, s.waitsFor i f) : s.endsOrWaits i (.next t) := by
  obtain ⟨f, hf, silent, hit⟩ := portAnswer_waiting answer
  obtain ⟨a, ha⟩ := List.exists_mem_of_ne_nil _ hit
  exact ⟨t, rfl, .inr ⟨ht, f, hf, silent, may f a ha⟩⟩

/-- A row range that passes the check and is not empty (R115). -/
theorem dyBeg_lt_of_rangeLegal {K : Kernel} {I : CallRegs} (h : rangeIllegal K I = false) (hne : I.dyBeg ≠ I.dyEnd) :
    I.dyBeg < I.dyEnd := by
  simp only [rangeIllegal, Bool.not_eq_false', Bool.and_eq_true, decide_eq_true_eq] at h
  omega

/-- The checks of COMPUTE and RUN pass no row range that ends before it begins (R116). -/
theorem dyBeg_lt_of_convChecks {p : Params} {K : Kernel} {I : CallRegs} (h : firstError (convChecks p K I) = none)
    (hne : I.dyBeg ≠ I.dyEnd) : I.dyBeg < I.dyEnd :=
  dyBeg_lt_of_rangeLegal (firstError_none.mp h (rangeIllegal K I, .range, I.rows) (by simp [convChecks])) hne

/-- The checks of PREPROCESS pass no row range that ends before it begins (R102). -/
theorem dyBeg_lt_of_preprocessChecks {p : Params} {K : Kernel} {I : CallRegs}
    (h : firstError (preprocessChecks p K I) = none) (hne : I.dyBeg ≠ I.dyEnd) : I.dyBeg < I.dyEnd :=
  dyBeg_lt_of_rangeLegal (firstError_none.mp h (rangeIllegal K I, .range, I.rows) (by simp [preprocessChecks])) hne

/-- A plan ends, or waits for one of its accesses. -/
theorem finishPlan_endsOrWaits {s : State} {i : Instr} {P : Plan} (may : ∀ f, ∀ a ∈ P.hits f, s.waitsFor i f) :
    s.endsOrWaits i (finishPlan s P) := by
  rcases finishPlan_cases s P with ⟨-, e⟩ | ⟨_, -, e⟩ | ⟨answer, e⟩ <;> rw [e]
  · exact endsOrWaits_ended rfl
  · exact endsOrWaits_ended rfl
  · exact endsOrWaits_waiting answer (waitsAs_worked s s.kernel _ _ _) may

theorem execInit_endsOrWaits (s : State) : s.endsOrWaits .init (execInit s) := by
  rcases execInit_cases s with ⟨_, _, -, e⟩ | ⟨-, ⟨-, e⟩ | ⟨_, -, e⟩ | ⟨answer, e⟩⟩ <;> rw [e]
  · exact endsOrWaits_ended rfl
  · exact endsOrWaits_ended rfl
  · exact endsOrWaits_ended rfl
  · exact endsOrWaits_waiting answer (waitsAs_worked s none (invalidateTags s.ring) none s.acc)
      fun _ _ ha => initHits_reads (List.ne_nil_of_mem ha)

theorem execPreprocess_endsOrWaits (s : State) : s.endsOrWaits .preprocess (execPreprocess s) := by
  rcases execPreprocess_cases s with
    ⟨-, e⟩ | ⟨K, hK, ⟨_, _, -, e⟩ | ⟨hc, ⟨-, e⟩ | ⟨hne, hv, ⟨-, e⟩ | ⟨_, -, e⟩ | ⟨answer, e⟩⟩⟩⟩ <;> rw [e]
  · exact endsOrWaits_ended rfl
  · exact endsOrWaits_ended rfl
  · exact endsOrWaits_ended rfl
  · exact endsOrWaits_ended rfl
  · exact endsOrWaits_ended rfl
  · exact endsOrWaits_waiting answer (waitsAs_worked s s.kernel _ _ s.acc) fun _ _ ha =>
      ⟨K, hK, hv, dyBeg_lt_of_preprocessChecks hc hne, (mayAccess_of_sourceHits (by simp) ha).2⟩

theorem execCompute_endsOrWaits (s : State) : s.endsOrWaits .compute (execCompute s) := by
  rcases execCompute_cases s with ⟨_, _, -, e⟩ | ⟨P, hP, e⟩ <;> rw [e]
  · exact endsOrWaits_ended rfl
  · refine finishPlan_endsOrWaits ?_
    rcases computePlan_cases s with
      ⟨-, h⟩ | ⟨K, hK, ⟨_, -, h⟩ | ⟨hc, ⟨-, h⟩ | ⟨hne, ⟨hv, h⟩ | ⟨hv, ⟨_, -, h⟩ | ⟨-, h⟩⟩⟩⟩⟩ <;> cases hP.symm.trans h
    · exact nofun
    · have hr := dyBeg_lt_of_convChecks hc hne
      exact fun f a ha => ⟨K, hK, hr, ((directPlan_hitsOf (.inl rfl) hK hv hr.le).2 f a ha).2⟩
    · have hr := dyBeg_lt_of_convChecks hc hne
      exact fun f a ha => ⟨K, hK, hr, ((ringPlan_hitsOf hK hv hr.le).2 f a ha).2⟩

theorem execRun_endsOrWaits (s : State) : s.endsOrWaits .run (execRun s) := by
  rcases execRun_cases s with ⟨_, _, -, e⟩ | ⟨P, hP, e⟩ <;> rw [e]
  · exact endsOrWaits_ended rfl
  · refine finishPlan_endsOrWaits ?_
    rcases runPlan_cases s with ⟨-, h⟩ | ⟨K, hK, ⟨_, -, h⟩ | ⟨hc, ⟨-, h⟩ | ⟨hne, ⟨hv, h⟩ | ⟨-, h⟩⟩⟩⟩ <;>
      cases hP.symm.trans h
    · exact nofun
    · have hr := dyBeg_lt_of_convChecks hc hne
      exact fun f a ha => ⟨K, hK, hr, ((directPlan_hitsOf (.inr rfl) hK hv hr.le).2 f a ha).2⟩
    · have hr := dyBeg_lt_of_convChecks hc hne
      intro f a ha
      refine ⟨K, hK, hr, ?_⟩
      rcases List.mem_append.mp ha with ha | ha
      · exact (mayAccess_of_sourceHits (by simp) ha).2
      · exact (mayAccess_of_writeHits (by decide) hr.le ha).2

/-- Settles O7: `exec_waits`, and each command ends or waits for one of its own accesses. -/
theorem waitingCommandStaysBusy : Obligations.WaitingCommandStaysBusy := by
  refine ⟨fun s i f => exec_waits, fun s i => ?_⟩
  show s.endsOrWaits i (exec i s)
  cases i with
  | nop => exact endsOrWaits_ended rfl
  | inval => exact endsOrWaits_ended rfl
  | clrerr => exact endsOrWaits_ended rfl
  | init => exact execInit_endsOrWaits s
  | preprocess => exact execPreprocess_endsOrWaits s
  | compute => exact execCompute_endsOrWaits s
  | run => exact execRun_endsOrWaits s

end Sys2Proof.Machine
end

section
/-!
PROOFS. Error completion (60_exceptions.md R144, R148): which errors a command raises, and what one leaves.
-/
namespace Sys2Proof.Machine

/-! ### The rows of R144 -/

/-- The errors a command that is executed can raise (R144). -/
def errorRow : Instr → List ErrorCode
  | .init => [.cfgShape, .cfgSrcType, .cfgDstType, .cfgReorder, .cfgVariant, .cfgCapacity, .align, .addr, .bus]
  | .preprocess => [.notReady, .zp, .range, .addr, .bus]
  | .compute => [.notReady, .zp, .range, .addr, .overlap, .ringMiss, .bus]
  | .run => [.notReady, .zp, .range, .addr, .overlap, .bus]
  | .nop => []
  | .inval => []
  | .clrerr => []

theorem none_notMem_errorRow (i : Instr) : ErrorCode.none ∉ errorRow i := by cases i <;> decide

/-! ### A raised error -/

/-- `t` is the error completion of command `i`: an error of its row, raised after work that may have changed the ring,
the accumulators and the data space, with the kernel object kept, or discarded by INIT (R90, R144, R148). -/
def State.raisedBy (s t : State) (i : Instr) : Prop :=
  ∃ code info k r x a m, t = raiseError code info (s.worked k r x a m) ∧ code ∈ errorRow i
    ∧ (i ≠ .init → k = s.kernel) ∧ (i = .init → k = none)

/-- An error raised before any work, by a command other than INIT. -/
theorem raisedBy_raiseError {s : State} {i : Instr} {code : ErrorCode} (hi : i ≠ .init) (info : Word)
    (hc : code ∈ errorRow i) : s.raisedBy (raiseError code info s) i :=
  ⟨code, info, s.kernel, s.ring, s.rctx, s.acc, s.mem, rfl, hc, fun _ => rfl, fun h => absurd h hi⟩

/-- INIT has discarded the kernel object before it raises an error (R90). -/
theorem raisedBy_init {s : State} {code : ErrorCode} (info : Word) (hc : code ∈ errorRow .init) :
    s.raisedBy (raiseError code info (discardKernel s)) .init :=
  ⟨code, info, none, invalidateTags s.ring, none, s.acc, s.mem, rfl, hc, fun h => absurd rfl h, fun _ => rfl⟩

/-- A plan raises no error but ERR_BUS (R122). -/
theorem finishPlan_raises {s t : State} {i : Instr} {P : Plan} (h : finishPlan s P = .next t) (hi : i ≠ .init)
    (hbus : .bus ∈ errorRow i) (he : s.err = false) (ht : t.err = true) : s.raisedBy t i := by
  have noError : s.err ≠ true := by simp [he]
  rcases finishPlan_cases s P with ⟨-, e⟩ | ⟨_, -, e⟩ | ⟨-, e⟩ <;> cases h.symm.trans e
  · exact absurd ht noError
  · exact ⟨_, _, s.kernel, s.ring, s.rctx, _, _, rfl, hbus, fun _ => rfl, fun h => absurd h hi⟩
  · exact absurd ht noError

/-- Whenever a command leaves ERR = 1 where it was 0, it has raised an error of its row (R144, R148). -/
theorem exec_raises {s t : State} {i : Instr} (h : exec i s = .next t) (he : s.err = false) (ht : t.err = true) :
    s.raisedBy t i := by
  have noError : s.err ≠ true := by simp [he]
  cases i with
  | nop =>
    cases h
    exact absurd ht noError
  | inval =>
    cases h
    exact absurd ht noError
  | clrerr =>
    cases h
    cases ht
  | init =>
    rcases execInit_cases s with ⟨_, info, hc, e⟩ | ⟨-, ⟨-, e⟩ | ⟨_, -, e⟩ | ⟨-, e⟩⟩ <;> cases h.symm.trans e
    · have row : ([.cfgShape, .cfgSrcType, .cfgDstType, .cfgReorder, .cfgVariant, .cfgCapacity, .align, .addr] :
          List ErrorCode) ⊆ errorRow .init := by decide
      exact raisedBy_init info (row (initChecks_code (firstError_mem hc)))
    · exact absurd ht noError
    · exact raisedBy_init _ (by decide)
    · exact absurd ht noError
  | preprocess =>
    rcases execPreprocess_cases s with
      ⟨-, e⟩ | ⟨K, -, ⟨_, info, hc, e⟩ | ⟨-, ⟨-, e⟩ | ⟨-, -, ⟨-, e⟩ | ⟨_, -, e⟩ | ⟨-, e⟩⟩⟩⟩ <;> cases h.symm.trans e
    · exact raisedBy_raiseError (by decide) _ (by decide)
    · have row : ([.zp, .range, .addr] : List ErrorCode) ⊆ errorRow .preprocess := by decide
      exact raisedBy_raiseError (by decide) info (row (preprocessChecks_code (firstError_mem hc)))
    · exact absurd ht noError
    · exact absurd ht noError
    · exact ⟨_, _, s.kernel, _, _, s.acc, s.mem, rfl, by decide, fun _ => rfl, nofun⟩
    · exact absurd ht noError
  | compute =>
    rcases execCompute_cases s with ⟨_, info, hP, e⟩ | ⟨P, -, e⟩
    · cases h.symm.trans e
      have row : ([.notReady, .zp, .range, .addr, .overlap, .ringMiss] : List ErrorCode) ⊆ errorRow .compute := by
        decide
      exact raisedBy_raiseError (by decide) info (row (computePlan_code hP))
    · exact finishPlan_raises (e.symm.trans h) (by decide) (by decide) he ht
  | run =>
    rcases execRun_cases s with ⟨_, info, hP, e⟩ | ⟨P, -, e⟩
    · cases h.symm.trans e
      have row : ([.notReady, .zp, .range, .addr, .overlap] : List ErrorCode) ⊆ errorRow .run := by decide
      exact raisedBy_raiseError (by decide) info (row (runPlan_code hP))
    · exact finishPlan_raises (e.symm.trans h) (by decide) (by decide) he ht

/-- Settles O36: every raised error is `raiseError` on the command's work, and no row has code 0. -/
theorem errorCompletionEffects : Obligations.ErrorCompletionEffects := by
  intro s t i h he ht
  obtain ⟨code, info, k, r, x, a, m, rfl, row, kept, discarded⟩ := exec_raises h he ht
  refine ⟨raiseError_worked s k r x a m code info, ?_, ?_, kept, discarded⟩
  · exact fun hc => none_notMem_errorRow i (hc ▸ row)
  · simp [irqErr]

/-- Settles O37: the code of a raised error is in the command's row. -/
theorem eachCommandRaisesOnlyItsErrors : Obligations.EachCommandRaisesOnlyItsErrors := by
  intro s t i h he ht
  obtain ⟨code, info, k, r, x, a, m, rfl, row, -⟩ := exec_raises h he ht
  cases i <;> exact row

end Sys2Proof.Machine
end

section
/-!
PROOFS. A write of CMD that is dropped, and what clears DROP (60_exceptions.md R145, R146).
-/
namespace Sys2Proof.Machine

/-! ### What clears DROP -/

/-- A write of 1 to STATUS bit 5, or a soft reset (R28, R163). -/
def PortAccess.clearsDrop (a : PortAccess) : Prop :=
  ∃ v, a.op = .write v
    ∧ ((a.offset = 0x14 ∧ v.getLsbD 5 = true) ∨ (a.offset = 0x10 ∧ v.getLsbD 0 = true))

/-- No CMD write clears DROP, whether it is accepted or dropped (R145, R146). -/
theorem submitCommand_keeps_drop (w : Word) {s : State} (hd : s.drop = true) : (submitCommand w s).drop = true := by
  rcases submitCommand_cases w s with ⟨-, e⟩ | ⟨-, -, e⟩ <;> rw [e]
  rcases acceptCommand_cases w s with ⟨_, -, e⟩ | ⟨-, e⟩ | ⟨-, e⟩ | ⟨_, _, -, -, -, e⟩ <;> rw [e] <;> exact hd

/-- The register writes that clear DROP: a 1 to bit 5 of STATUS, and a soft reset (R28, R163). -/
theorem writeReg_clears_drop {s : State} {v e : Word} {r : Reg} (hd : s.drop = true)
    (h : (writeReg s v e r).drop = false) :
    (r = .status ∧ v.getLsbD 5 = true) ∨ (r = .ctrl ∧ v.getLsbD 0 = true) := by
  have kept : s.drop ≠ false := by simp [hd]
  rcases writeReg_cases s v e r with e' | ⟨hr, hv, -⟩ | ⟨rfl, -⟩ | ⟨-, e'⟩ | ⟨_, _, _, _, e'⟩
  · rw [e'] at h
    exact absurd h kept
  · exact .inr ⟨hr, hv⟩
  · exact .inl ⟨rfl, by simpa [writeReg_status, hd] using h⟩
  · rw [e', submitCommand_keeps_drop v hd] at h
    cases h
  · rw [e'] at h
    exact absurd h kept

/-- A legal access selects the k-th register at offset 4*k alone (R22). -/
theorem offset_of_regAt {o : Byte} {n k : Nat} {r : Reg} (hl : accessLegal o n = true) (ho : regAt o = some r)
    (hk : regMap[k]? = some r) : o.toNat = 4 * k := by
  have hlt : k < regMap.length := (List.getElem?_eq_some_iff.mp hk).1
  have index : k = o.toNat / 4 := (List.getElem?_inj hlt (by decide)).mp (hk.trans ho.symm)
  simp only [accessLegal, Bool.and_eq_true, beq_iff_eq] at hl
  omega

/-- The accesses of the register window that clear DROP. -/
theorem portAccess_clears_drop {s : State} {a : PortAccess} {e : Word} (hd : s.drop = true)
    (h : (portAccess a e s).drop = false) : a.clearsDrop := by
  have kept : s.drop ≠ false := by simp [hd]
  rcases portAccess_cases a e s with ⟨-, e'⟩ | ⟨-, -, e'⟩ | ⟨-, hl, ⟨v, r, hop, ho, e'⟩ | ⟨_, e'⟩⟩ <;> rw [e'] at h
  · exact absurd h kept
  · exact absurd h kept
  · refine ⟨v, hop, ?_⟩
    rcases writeReg_clears_drop hd h with ⟨rfl, hv⟩ | ⟨rfl, hv⟩
    · exact .inl ⟨BitVec.eq_of_toNat_eq (offset_of_regAt (k := 5) hl ho rfl), hv⟩
    · exact .inr ⟨BitVec.eq_of_toNat_eq (offset_of_regAt (k := 4) hl ho rfl), hv⟩
  · exact absurd h kept

/-- No command, and no illegal held word, changes DROP (R146). -/
theorem engineTurn_drop {s t : State} (h : engineTurn s = .next t) : t.drop = s.drop := by
  rcases engineTurn_cases s with ⟨-, e⟩ | ⟨_, _, -, -, -, e⟩ | ⟨_, _, -, -, -, e⟩
  · cases h.symm.trans e
    rfl
  · obtain ⟨⟨-, drop, -⟩, -⟩ := exec_sameAround (e.symm.trans h)
    exact drop
  · cases h.symm.trans e
    rfl

/-- The events that clear DROP: an access that does, beside a completion or not, and the reset input. -/
theorem handleEvent_clears_drop {s t : State} {e : Event} (hd : s.drop = true) (h : handleEvent e s = .next t)
    (ht : t.drop = false) :
    (∃ a, (e = .access a ∨ e = .accessAtCompletion a) ∧ a.clearsDrop) ∨ ∃ b, e = .rst b := by
  have kept : s.drop ≠ false := by simp [hd]
  cases e with
  | engine => exact absurd ((engineTurn_drop h).symm.trans ht) kept
  | access a =>
    cases h
    exact .inl ⟨a, .inl rfl, portAccess_clears_drop hd ht⟩
  | accessAtCompletion a =>
    refine .inl ⟨a, .inr rfl, ?_⟩
    simp only [handleEvent, accessAfterCompletion] at h
    split at h
    · cases turn : engineTurn s with
      | next u =>
        rw [turn] at h
        cases h
        exact portAccess_clears_drop ((engineTurn_drop turn).trans hd) ht
      | fault _ => simp [turn] at h
      | refused _ => simp [turn] at h
    · cases h
      exact portAccess_clears_drop hd ht
  | memRead a =>
    simp only [handleEvent] at h
    split at h <;> cases h
    obtain ⟨_, _, _, e⟩ := hostLoad_changes a s
    rw [e] at ht
    exact absurd ht kept
  | memWrite a v =>
    simp only [handleEvent] at h
    split at h <;> cases h
    exact absurd ht kept
  | portAnswers l =>
    cases h
    exact absurd ht kept
  | rst b => exact .inr ⟨b, rfl⟩

/-- Settles O38: `submitCommand_drops` is all that the write does, and DROP falls only by `handleEvent_clears_drop`. -/
theorem droppedCommandOnlySetsDrop : Obligations.DroppedCommandOnlySetsDrop := by
  constructor
  · intro s w rest hr hev hdrop
    have refused : s.busy = true ∨ (s.err = true ∧ w ≠ encode .clrerr) :=
      hdrop.imp_left Option.isSome_iff_ne_none.mpr
    rw [step_cmd hr hev, submitCommand_drops (s := { s with events := rest }) refused]
  · intro s t hd h ht
    cases hev : s.events with
    | nil => exact absurd ((engineTurn_drop (step_idle hev ▸ h)).symm.trans ht) (by simp [hd])
    | cons e rest =>
      rw [step_event hev] at h
      rcases handleEvent_clears_drop (s := { s with events := rest }) hd h ht with ⟨a, he, v, hop, hv⟩ | ⟨b, rfl⟩
      · exact .inl ⟨a, v, rest, he.imp (congrArg (· :: rest)) (congrArg (· :: rest)), hop, hv⟩
      · exact .inr ⟨b, rest, rfl⟩

end Sys2Proof.Machine
end

section
/-!
PROOFS. What the acceptance of each command latches, discards and clears (60_exceptions.md R145).
-/
namespace Sys2Proof.Machine

/-! ### Acceptance by command (R145) -/

/-- Acceptance of INIT latches S and discards the kernel object and the ring (R90, R145). -/
theorem acceptCommand_init (s : State) :
    acceptCommand (encode .init) s = discardKernel { takeCommand (encode .init) s with latched := some s.shape } := rfl

/-- Acceptance of the other commands but CLRERR latches I for an invocation, and nothing else (R48, R145). -/
theorem acceptCommand_other {i : Instr} (hi : i ≠ .init) (hc : i ≠ .clrerr) (s : State) :
    ∃ c, acceptCommand (encode i) s = { takeCommand (encode i) s with call := c }
      ∧ ((i = .preprocess ∨ i = .compute ∨ i = .run) → c = some s.callRegs) := by
  cases i with
  | init => exact absurd rfl hi
  | clrerr => exact absurd rfl hc
  | nop => exact ⟨none, rfl, by simp⟩
  | inval => exact ⟨none, rfl, by simp⟩
  | preprocess => exact ⟨_, rfl, fun _ => rfl⟩
  | compute => exact ⟨_, rfl, fun _ => rfl⟩
  | run => exact ⟨_, rfl, fun _ => rfl⟩

/-- Settles O39: the step is the write of CMD, which accepts the word; then the three kinds of acceptance. -/
theorem acceptanceLatchesTheOperands : Obligations.AcceptanceLatchesTheOperands := by
  intro s i rest hr hh he hev
  have written := step_cmd hr hev
  rw [submitCommand_accepts (s := { s with events := rest }) hh (he.imp_right (congrArg encode))] at written
  have op := (encode_spec i).2
  refine ⟨_, written, ?_⟩
  by_cases hi : i = .init
  · subst hi
    rw [acceptCommand_init]
    exact ⟨⟨rfl, statusWord_busy _, rfl, op⟩, fun _ => ⟨rfl, rfl, rfl, tagAt_invalidateTags s.ring⟩,
      fun h => absurd rfl h, by simp, nofun, fun _ => ⟨rfl, rfl, rfl⟩, rfl, rfl, rfl, rfl, rfl, rfl, rfl, rfl, rfl⟩
  by_cases hc : i = .clrerr
  · subst hc
    rw [acceptCommand_clrerr]
    exact ⟨⟨rfl, statusWord_busy _, rfl, op⟩, nofun, fun _ => ⟨rfl, rfl, rfl⟩, by simp, fun _ => ⟨rfl, rfl, rfl⟩,
      fun h => absurd rfl h, rfl, rfl, rfl, rfl, rfl, rfl, rfl, rfl, rfl⟩
  · obtain ⟨c, accepted, call⟩ := acceptCommand_other hi hc { s with events := rest }
    rw [accepted]
    exact ⟨⟨rfl, statusWord_busy _, rfl, op⟩, fun h => absurd h hi, fun _ => ⟨rfl, rfl, rfl⟩, call,
      fun h => absurd h hc, fun _ => ⟨rfl, rfl, rfl⟩, rfl, rfl, rfl, rfl, rfl, rfl, rfl, rfl, rfl⟩

end Sys2Proof.Machine
end

section
/-!
PROOFS. The interrupt output (60_exceptions.md R153).
-/
namespace Sys2Proof.Machine

/-! ### The line (R153) -/

/-- The two low bits of a word are all that a mask of 3 leaves. -/
theorem and_three_ne_zero_iff (x : Word) : x &&& 3 ≠ 0 ↔ x.getLsbD 0 = true ∨ x.getLsbD 1 = true := by
  have low : (x &&& 3).toNat = x.toNat % 2 ^ 2 := by
    rw [BitVec.toNat_and]
    exact Nat.and_two_pow_sub_one_eq_mod x.toNat 2
  have nonzero : x &&& 3 ≠ 0 ↔ x.toNat % 2 ^ 2 ≠ 0 := by
    rw [← low, ne_eq, ← BitVec.toNat_inj]
    rfl
  simp only [nonzero, BitVec.getLsbD, Nat.testBit_eq_decide_div_mod_eq, decide_eq_true_eq]
  omega

/-- Settles O48: DONE_IS and ERR_IS are the bits the mask 3 leaves, and each write sets or clears them or their
enables. -/
theorem interruptLineFollowsTheRegisters : Obligations.InterruptLineFollowsTheRegisters := by
  refine ⟨fun s => ?line, fun s => ⟨fun h => ?done, fun h => ?err, ?cleared, ?disabled⟩⟩
  case line =>
    rw [Bool.eq_iff_iff, decide_eq_true_iff, and_three_ne_zero_iff]
    simp [State.irq]
  case done => simp [State.irq, writeReg, irqEnMask, h]
  case err => simp [State.irq, writeReg, irqEnMask, h]
  case cleared => simp [State.irq, writeReg]
  case disabled => simp [State.irq, writeReg]

end Sys2Proof.Machine
end

section
/-!
PROOFS. The reset values and the two resets (70_reset_and_hazards.md R161 to R163).
-/
namespace Sys2Proof.Machine

/-! ### The reset values (R161) -/

/-- Settles O49: each clause is about the one state `State.reset`. -/
theorem resetState : Obligations.ResetState := by
  refine ⟨⟨rfl, rfl⟩, ?registers, ⟨rfl, rfl, rfl⟩, ⟨rfl, fun i => ?tags⟩, ?line⟩
  case registers => decide
  case tags => rfl
  case line => decide

/-- Settles O60: with no command, no kernel object and no ring, only the status and the res bits have values to look
at. -/
theorem resetMeetsTheInvariants : Obligations.ResetMeetsTheInvariants := by
  refine ⟨⟨rfl, statusOk_noError rfl rfl rfl (.inl rfl), ?reserved, nofun, ⟨nofun, fun _ _ => rfl⟩,
    contextOk_released rfl rfl⟩, ?legal⟩
  case reserved => exact reservedZero_reset .reset
  case legal => decide

/-! ### What a reset leaves (R161 to R163) -/

/-- `s` after a reset, with the answer `x` to the host and the level `b` of `rst` (R162, R163). -/
abbrev State.afterReset (s : State) (x : Response) (b : Bool) : State := { resetMachine s with resp := x, rst := b }

/-- A reset puts every register the instance's parameters do not give at its reset value. -/
theorem readReg_afterReset (s : State) (x : Response) (b : Bool) {r : Reg} (h0 : r ≠ .params0) (h1 : r ≠ .params1) :
    readReg (s.afterReset x b) r = readReg State.reset r := by
  cases r with
  | params0 => exact absurd rfl h0
  | params1 => exact absurd rfl h1
  | _ => rfl

/-- The interrupt output is low after a reset. -/
theorem irq_afterReset (s : State) (x : Response) (b : Bool) : (s.afterReset x b).irq = false := by
  show State.reset.irq = false
  decide

/-- With no command running a reset changes no data byte (R163). -/
theorem abandonedMem_idle {s : State} (h : s.held = none) : s.abandonedMem = s.mem := by
  simp [State.abandonedMem, State.runningPlan, h]

/-- A write of CTRL with bit 0 = 1, one step (R163). -/
theorem step_softReset {s : State} {v : Word} {rest : List Event} (hr : s.rst = false)
    (hev : s.events = .access ⟨0x10, 4, .write v⟩ :: rest) (hv : v.getLsbD 0 = true) :
    step s = .next (({ s with events := rest } : State).afterReset .written s.rst) := by
  rw [step_write (r := .ctrl) hr hev (by decide) (by decide), writeReg, if_pos hv]
  rfl

/-- `rst` driven to the other level, one step (R162). -/
theorem step_rst {s : State} {b : Bool} {rest : List Event} (hb : b ≠ s.rst) (hev : s.events = .rst b :: rest) :
    step s = .next (({ s with events := rest } : State).afterReset s.resp b) :=
  (step_event hev).trans (congrArg Host.Outcome.next (if_neg hb))

/-- Settles O50: the write is `resetMachine` or nothing, by bit 0. -/
theorem softReset : Obligations.SoftReset := by
  intro s v rest hr hev
  constructor
  · intro hv
    exact ⟨_, step_softReset hr hev hv, rfl, rfl, rfl, fun r => readReg_afterReset _ _ _, ⟨rfl, rfl, rfl, rfl⟩,
      ⟨rfl, fun _ => rfl⟩, irq_afterReset _ _ _, fun h => abandonedMem_idle (s := { s with events := rest }) h⟩
  · intro hv
    rw [step_write (r := .ctrl) hr hev (by decide) (by decide), writeReg, hv]
    rfl

/-- Settles O52: while asserted, `rst` stops the port and the engine; a change of its level is `resetMachine`. -/
theorem powerOnReset : Obligations.PowerOnReset := by
  refine ⟨fun s a rest hr hev => ?unanswered, fun s hr hev => ?rests, fun s b rest hb hev => ?driven,
    fun s rest hev => ?sameLevel⟩
  case unanswered => exact (step_access hev).trans (congrArg Host.Outcome.next (if_pos hr))
  case rests => exact (step_idle hev).trans (engineTurn_idle (.inl hr))
  case driven =>
    exact ⟨_, step_rst (by simp [hb]) hev, rfl, rfl, rfl,
      fun h => abandonedMem_idle (s := { s with events := rest }) h, ⟨rfl, rfl, rfl, rfl⟩, ⟨rfl, fun _ => rfl⟩,
      irq_afterReset _ _ _, fun r => readReg_afterReset _ _ _⟩
  case sameLevel => exact (step_event hev).trans (congrArg Host.Outcome.next (if_pos rfl))

end Sys2Proof.Machine
end

section
/-!
PROOFS. A reset while a command is BUSY (70_reset_and_hazards.md R164): the plan of the running command, and the bytes
it leaves when it is cut short.
-/
namespace Sys2Proof.Machine

/-! ### Checks that pass (R116 to R118) -/

/-- The checks of COMPUTE and RUN pass only an invocation context that R116 and R117 accept. -/
theorem convLegal_of_convChecks {p : Params} {K : Kernel} {I : CallRegs} (hK : K.wf p)
    (h : firstError (convChecks p K I) = none) : I.convLegal p K := by
  obtain ⟨⟨-, -, ⟨hdstH, hdstW⟩, -⟩, ⟨hsrcH, -⟩, ⟨hsrcW, -⟩, ⟨hc, -⟩, -⟩ := hK
  have source : 0 < K.srcH * K.srcW * K.c := Nat.mul_pos (Nat.mul_pos hsrcH hsrcW) hc
  have rows : 0 < K.dstH := hdstH ▸ Nat.succ_pos _
  have columns : 0 < K.dstW := hdstW ▸ Nat.succ_pos _
  have dest : 0 < K.dstH * K.dstW * K.c := Nat.mul_pos (Nat.mul_pos rows columns) hc
  rw [convChecks_eq_convFailures, firstError_none] at h
  simp only [CallRegs.convFailures, List.forall_mem_cons, List.not_mem_nil, false_implies, implies_true, and_true,
    decide_eq_false_iff_not, not_not] at h
  obtain ⟨hsz, hdz, hrange, hsrc, hdst, hdisjoint⟩ := h
  exact ⟨⟨by omega, hrange, by omega⟩, by omega, by omega, by omega⟩

/-- A window with no miss is resident under the invocation's context (R118). -/
theorem windowResident_of_ringMiss {s : State} {K : Kernel} {I : CallRegs} (hr : I.dyBeg < I.dyEnd)
    (h : ringMiss s K I = none) : s.windowResident K I := by
  have hx : s.rctx = some I.ringCtx := by
    by_contra hx
    cases (ringMiss_context hx).symm.trans h
  refine ⟨hx, fun py hlo hhi => ?_⟩
  simp only [ringMiss, hx, ne_eq, not_true_eq_false, if_false, Option.map_eq_none_iff, List.find?_eq_none,
    Bool.not_eq_true', Bool.not_eq_false] at h
  exact resident_iff.mp (h py ((mem_window hr).mpr ⟨hlo, hhi⟩))

/-! ### The running command's plan (R164) -/

/-- `P` is the plan of a COMPUTE or RUN that is ready: it writes the command's new bytes, within its rows. -/
def Plan.carriesOut (P : Plan) (s : State) (i : Instr) : Prop :=
  s.ready i ∧ ∃ K, s.kernel = some K ∧ P.withinRows s ∧ P.writesOut K s.invocation (s.newByte i K s.invocation)

/-- A COMPUTE whose checks pass has nothing to do, or is ready and computes directly or from the ring. -/
theorem computePlan_carriesOut {s : State} {P : Plan} (h : computePlan s = .ok P) (hk : s.kernelOk)
    (quiet : ∀ base n, s.quietOn base n) : P = emptyPlan s s.invocation ∨ P.carriesOut s .compute := by
  have within := computePlan_withinRows h
  rcases computePlan_cases s with
    ⟨-, e⟩ | ⟨K, hK, ⟨_, -, e⟩ | ⟨hc, ⟨-, e⟩ | ⟨hne, ⟨hv, e⟩ | ⟨hv, ⟨_, -, e⟩ | ⟨hm, e⟩⟩⟩⟩⟩ <;>
    cases h.symm.trans e
  · exact .inl rfl
  · have hl := convLegal_of_convChecks (hk K hK) hc
    have hr := dyBeg_lt_of_convChecks hc hne
    refine .inr ⟨⟨K, hK, hk K hK, hl, hr, fun h => absurd hv h⟩, K, hK, within, ?_⟩
    rw [newByte_ref _ fun h => h.2 hv]
    exact directPlan_writesOut (quiet _ _)
  · have hl := convLegal_of_convChecks (hk K hK) hc
    have hr := dyBeg_lt_of_convChecks hc hne
    refine .inr ⟨⟨K, hK, hk K hK, hl, hr, fun _ => windowResident_of_ringMiss hr hm⟩, K, hK, within, ?_⟩
    rw [newByte_ring _ hv]
    exact ringPlan_writesOut s K s.invocation

/-- A RUN whose checks pass has nothing to do, or is ready and computes directly or through the ring. -/
theorem runPlan_carriesOut {s : State} {P : Plan} (h : runPlan s = .ok P) (hk : s.kernelOk)
    (hp : s.params.legal = true) (hlen : ∀ K, s.kernel = some K → s.ring.length = K.bufH)
    (quiet : ∀ base n, s.quietOn base n) : P = emptyPlan s s.invocation ∨ P.carriesOut s .run := by
  have within := runPlan_withinRows h
  rcases runPlan_cases s with ⟨-, e⟩ | ⟨K, hK, ⟨_, -, e⟩ | ⟨hc, ⟨-, e⟩ | ⟨hne, hplan⟩⟩⟩
  · cases h.symm.trans e
  · cases h.symm.trans e
  · cases h.symm.trans e
    exact .inl rfl
  · have hwf := hk K hK
    refine .inr ⟨⟨K, hK, hwf, convLegal_of_convChecks hwf hc, dyBeg_lt_of_convChecks hc hne⟩, K, hK, within, ?_⟩
    rw [newByte_ref _ (by simp)]
    rcases hplan with ⟨-, e⟩ | ⟨hv, e⟩ <;> cases h.symm.trans e
    · exact directPlan_writesOut (quiet _ _)
    · exact fusedPlan_writesOut hp hwf (hlen K hK) hv (quiet _ _)

/-- The running command's plan is empty, or that of a COMPUTE or RUN that is ready. -/
theorem runningPlan_carriesOut {s : State} {w : Word} {i : Instr} {P : Plan} (hh : s.held = some w)
    (hd : decode w = .ok i) (hP : s.runningPlan = some P) (hk : s.kernelOk) (hp : s.params.legal = true)
    (hlen : ∀ K, s.kernel = some K → s.ring.length = K.bufH) (hraces : s.races = []) :
    P = emptyPlan s s.invocation ∨ ((i = .compute ∨ i = .run) ∧ P.carriesOut s i) := by
  have quiet (base n : Nat) : s.quietOn base n := by simp [State.quietOn, hraces]
  obtain ⟨w', hw, ⟨hd', hP⟩ | ⟨hd', hP⟩⟩ := runningPlan_eq_some.mp hP <;>
    obtain rfl : w = w' := Option.some.inj (hh.symm.trans hw) <;> cases hd.symm.trans hd'
  · exact (computePlan_carriesOut hP hk quiet).imp_right fun h => ⟨.inl rfl, h⟩
  · exact (runPlan_carriesOut hP hk hp hlen quiet).imp_right fun h => ⟨.inr rfl, h⟩

/-! ### The bytes it leaves (R61, R164) -/

/-- Each destination byte of the rows is that of one output (R61). -/
theorem dstAddr_of_writesTo {I : CallRegs} {K : Kernel} {a : Nat} (h : I.writesTo K a) :
    ∃ dy dx c, I.dyBeg ≤ dy ∧ dy < I.dyEnd ∧ dx < K.dstW ∧ c < K.c ∧ a = I.dstAddr K dy dx c := by
  obtain ⟨first, last⟩ := h
  obtain ⟨n, rfl⟩ := Nat.exists_eq_add_of_le (Nat.le_of_add_right_le first)
  rw [Nat.add_le_add_iff_left] at first
  rw [Nat.add_lt_add_iff_left] at last
  have hc : 0 < K.c := Nat.pos_of_ne_zero fun h0 => by simp [h0] at last
  have hw : 0 < K.dstW := Nat.pos_of_ne_zero fun h0 => by simp [h0] at last
  refine ⟨n / K.c / K.dstW, n / K.c % K.dstW, n % K.c, ?_, ?_, Nat.mod_lt _ hw, Nat.mod_lt _ hc, ?_⟩
  · rwa [Nat.le_div_iff_mul_le hw, Nat.le_div_iff_mul_le hc]
  · rwa [Nat.div_lt_iff_lt_mul hw, Nat.div_lt_iff_lt_mul hc]
  · rw [CallRegs.dstAddr, Nat.div_add_mod', Nat.div_add_mod']

/-- A plan that is cut short leaves each byte as before, or one of its rows as the plan writes it. -/
theorem partialMem_cases {s : State} {K : Kernel} {P : Plan} {out : Nat → Nat → Nat → Byte} (hm : s.mem.wf = true)
    (hK : s.kernel = some K) (hrows : P.withinRows s) (hout : P.writesOut K s.invocation out) (a : Nat) :
    (s.partialMem P).read a = s.mem.read a
      ∨ ∃ dy dx c, s.invocation.dyBeg ≤ dy ∧ dy < s.invocation.dyEnd ∧ dx < K.dstW ∧ c < K.c
        ∧ a = s.invocation.dstAddr K dy dx c ∧ (s.partialMem P).read a = out dy dx c := by
  by_cases ha : ∃ i < P.values.length, a = P.first + i
  · obtain ⟨i, hi, rfl⟩ := ha
    obtain ⟨K', hK', hw⟩ := hrows i hi
    cases hK.symm.trans hK'
    obtain ⟨dy, dx, c, hb, he, hdx, hc, place⟩ := dstAddr_of_writesTo hw
    rw [place]
    have stored := storedBytes_byteAt hm s.maybeLanded (hout dy dx c hb he hdx hc)
    rcases maybeLanded_cases s (s.invocation.dstAddr K dy dx c) (out dy dx c) with old | new
    · exact .inl (stored.trans old)
    · exact .inr ⟨dy, dx, c, hb, he, hdx, hc, rfl, stored.trans new⟩
  · push Not at ha
    exact .inl (storedBytes_read_outside hm s.maybeLanded ha)

/-- What a reset while BUSY leaves in the data space: all as before, or the plan of a COMPUTE or RUN that is ready, cut
short (R164). -/
theorem abandonedMem_cases {s : State} {w : Word} {i : Instr} (hh : s.held = some w) (hd : decode w = .ok i)
    (hk : s.kernelOk) (hp : s.params.legal = true) (hlen : ∀ K, s.kernel = some K → s.ring.length = K.bufH)
    (hraces : s.races = []) :
    s.abandonedMem = s.mem
      ∨ ((i = .compute ∨ i = .run) ∧ ∃ P, P.carriesOut s i ∧ s.abandonedMem = s.partialMem P) := by
  unfold State.abandonedMem
  cases hP : s.runningPlan with
  | none => exact .inl rfl
  | some P =>
    rcases runningPlan_carriesOut hh hd hP hk hp hlen hraces with rfl | ⟨hi, carries⟩
    · exact .inl rfl
    · exact .inr ⟨hi, P, carries, rfl⟩

/-- Either reset, soft or by `rst`, is one step to `afterReset`. -/
theorem step_reset {s : State} {rest : List Event} (hr : s.rst = false)
    (hev : (∃ v : Word, v.getLsbD 0 = true ∧ s.events = .access ⟨0x10, 4, .write v⟩ :: rest)
      ∨ s.events = .rst true :: rest) :
    ∃ x b, step s = .next (({ s with events := rest } : State).afterReset x b) := by
  rcases hev with ⟨v, hv, hev⟩ | hev
  · exact ⟨_, _, step_softReset hr hev hv⟩
  · exact ⟨_, _, step_rst (by simp [hr]) hev⟩

/-- Settles O51: the data space is `abandonedMem`, the one before or that of a ready command's plan cut short. -/
theorem resetWhileBusyLeavesOldOrNewBytes : Obligations.ResetWhileBusyLeavesOldOrNewBytes := by
  intro s w i rest hr hh hd hk hp hlen hm hraces hev
  obtain ⟨x, b, run⟩ := step_reset hr hev
  refine ⟨_, run, ⟨rfl, rfl, rfl, rfl, irq_afterReset _ x b⟩, ?_⟩
  rcases abandonedMem_cases (s := { s with events := rest }) hh hd hk hp hlen hraces with
    same | ⟨hi, P, ⟨hready, K, hK, rows, out⟩, cut⟩
  · exact ⟨fun _ => same, fun a => .inl (congrArg (·.read a) same)⟩
  · refine ⟨fun h => ?_, fun a => ?_⟩
    · rcases h with h | ⟨hc, hrun⟩
      · exact absurd hready h
      · exact absurd hi (by simp [hc, hrun])
    · rcases partialMem_cases (s := { s with events := rest }) hm hK rows out a with old | new
      · exact .inl ((congrArg (·.read a) cut).trans old)
      · obtain ⟨dy, dx, c, hb, he, hdx, hc, place, landed⟩ := new
        exact .inr ⟨hi, hready, K, dy, dx, c, hK, hb, he, hdx, hc, place, (congrArg (·.read a) cut).trans landed⟩

end Sys2Proof.Machine
end
